-- ==== Sys2Proof/Word.lean ====
section
/-! DEFINITION. The words of I2C-CORE that have one width. What is as wide as a parameter of 00_scope.md rule R6 says (a pointer, a
length, a frequency, a handle) is a natural number, narrowed to that width where it is stored (log 12). -/

namespace Sys2Proof

/-- A 32-bit word: the command header `CMD` (rule R56), a pad word (rule R69). -/
abbrev Word := BitVec 32

/-- One byte of caller memory, of a receive FIFO or of a transmit FIFO (rules R41, R63). -/
abbrev Byte := BitVec 8

/-- A 7-bit I2C address (rule R58). -/
abbrev Addr := BitVec 7

end Sys2Proof
end

