-- ==== Sys2Proof/Syntax.lean ====
section
/-! DEFINITION. The instructions of I2C-CORE: one constructor per row of spec/opcode_table.json (rule R2 says what an
instruction of this device is), and their encoded form. -/

namespace Sys2Proof

/-- The direction of a transfer, the R/W bit: 0 write, 1 read (rules R13, R62, R65). -/
inductive Dir where
  | write
  | read
  deriving DecidableEq, Repr

/-- The buffer selector `sel` of a micro-operation (rule R70): 0 `m_buf`, 1 `s_rxbuf`, 2 `s_txbuf`; 3 is reserved. -/
inductive BufSel where
  | mBuf
  | sRxBuf
  | sTxBuf
  deriving DecidableEq, Repr

/-- The master sticky flag a `LU_M_FLAG` move names, in the order of rule R173. -/
inductive MFlag where
  | stop
  | nak
  | arb
  | ferr
  | plt
  deriving DecidableEq, Repr

/-- The master level a `LU_M_LEVEL` move names, in the order of rule R174. -/
inductive MLevel where
  | busy
  | held
  | pltc
  deriving DecidableEq, Repr

/-- The instructions. A pointer, a length, a frequency or a handle is a natural number, as presented: it is narrowed to its
width (`PTR_W`, `LEN_W`, `FREQ_W`, rule R58) by the meaning, which knows the parameters. -/
inductive Instr where
  /-- `M_BEGIN frequency` (R90). -/
  | mBegin (frequency : Nat)
  /-- `M_END` (R92). -/
  | mEnd
  /-- `M_WRITE_ASYNC address, buffer, length, send_stop` (R95). -/
  | mWriteAsync (a : Addr) (ptr len : Nat) (sendStop : Bool)
  /-- `M_READ_ASYNC address, buffer, length, send_stop` (R96). -/
  | mReadAsync (a : Addr) (ptr len : Nat) (sendStop : Bool)
  /-- `M_FINISHED` (R98). -/
  | mFinished
  /-- `M_GET_BYTES_TRANSFERRED` (R99). -/
  | mGetBytesTransferred
  /-- `M_ERROR` (R100). -/
  | mError
  /-- `M_HAS_ERROR` (R101). -/
  | mHasError
  /-- `M_SET_PAD_CONTROL value` (R102). -/
  | mSetPadControl (value : Word)
  /-- `M_SET_PULLUPS selection` (R106); `ARG0[31:0]`, bits 31:2 zero when well formed. -/
  | mSetPullups (arg0 : Word)
  /-- `S_LISTEN address` (R131). -/
  | sListen (a : Addr)
  /-- `S_LISTEN2 address1, address2` (R132). -/
  | sListen2 (a b : Addr)
  /-- `S_LISTEN_RANGE first, last` (R133). -/
  | sListenRange (first last : Addr)
  /-- `S_STOP_LISTENING` (R134). -/
  | sStopListening
  /-- `S_SET_RX_BUFFER buffer, size` (R135). -/
  | sSetRxBuffer (ptr size : Nat)
  /-- `S_SET_TX_BUFFER buffer, size` (R136). -/
  | sSetTxBuffer (ptr size : Nat)
  /-- `S_AFTER_RECEIVE handle` (R137). -/
  | sAfterReceive (handle : Nat)
  /-- `S_BEFORE_TRANSMIT handle` (R138). -/
  | sBeforeTransmit (handle : Nat)
  /-- `S_AFTER_TRANSMIT handle` (R139). -/
  | sAfterTransmit (handle : Nat)
  /-- `S_ERROR` (R140). -/
  | sError
  /-- `S_HAS_ERROR` (R141). -/
  | sHasError
  /-- `S_SET_PAD_CONTROL value` (R142). -/
  | sSetPadControl (value : Word)
  /-- `S_SET_PULLUPS selection` (R144); `ARG0[31:0]`, bits 31:2 zero when well formed. -/
  | sSetPullups (arg0 : Word)
  /-- `TRANSMIT(data)` (R62): send one data byte. -/
  | txwTransmit (data : Byte)
  /-- `RECEIVE(n)` (R62): receive `n` bytes, 1 to 256. -/
  | txwReceive (count : Nat)
  /-- `STOP` (R62). -/
  | txwStop
  /-- `START(addr, dir)` (R62): START or repeated START and the address byte. -/
  | txwStart (addr : Addr) (dir : Dir)
  /-- `BB_INIT(B, pointer, length)` (R80). -/
  | bbInit (sel : BufSel) (ptr len : Nat)
  /-- `BB_WRITE(B, byte)` (R81). -/
  | bbWrite (sel : BufSel) (byte : Byte)
  /-- `BB_READ(B)` (R82). -/
  | bbRead (sel : BufSel)
  /-- `BB_HAS_DATA(B)` (R83). -/
  | bbHasData (sel : BufSel)
  /-- `BB_NOT_STARTED_READING(B)` (R84). -/
  | bbNotStartedReading (sel : BufSel)
  /-- `BB_NOT_STARTED_WRITING(B)` (R85). -/
  | bbNotStartedWriting (sel : BufSel)
  /-- `BB_FINISHED_READING(B)` (R86). -/
  | bbFinishedReading (sel : BufSel)
  /-- `BB_FINISHED_WRITING(B)` (R87). -/
  | bbFinishedWriting (sel : BufSel)
  /-- `BB_CONFIGURED(B)` (R88). -/
  | bbConfigured (sel : BufSel)
  /-- `M_ISR`: one master pass (R110). -/
  | mIsr
  /-- `S_ISR`: one slave pass (R150). -/
  | sIsr
  /-- `UP_AFTER_RECEIVE`: the upcall `after_receive` (R153, R158). -/
  | upAfterReceive
  /-- `UP_BEFORE_TRANSMIT`: the upcall `before_transmit` (R156, R158). -/
  | upBeforeTransmit
  /-- `UP_AFTER_TRANSMIT`: the upcall `after_transmit` (R153, R158). -/
  | upAfterTransmit
  /-- `LU_M_TAKE` (R171). -/
  | luMTake
  /-- `LU_M_RX byte` (R172). -/
  | luMRx (byte : Byte)
  /-- `LU_M_FLAG name` (R173). -/
  | luMFlag (name : MFlag)
  /-- `LU_M_LEVEL name, value` (R174). -/
  | luMLevel (name : MLevel) (value : Bool)
  /-- `LU_S_ADDR addr, rw` (R176). -/
  | luSAddr (addr : Addr) (rw : Dir)
  /-- `LU_S_RX byte, sof` (R177). -/
  | luSRx (byte : Byte) (sof : Bool)
  /-- `LU_S_TAKE` (R178). -/
  | luSTake
  /-- `LU_S_RS` (R179). -/
  | luSRs
  /-- `LU_S_STOP` (R180). -/
  | luSStop
  /-- `LU_S_BERR` (R181). -/
  | luSBerr
  /-- `M_CHANNEL_RESET`: the output event of R105 (R175). -/
  | mChannelReset
  /-- `M_RECOVERY_PULSES(RECOVERY_PULSES)`: the output event of R116 (R175). -/
  | mRecoveryPulses
  /-- `S_CHANNEL_RESET`: the output event of R130 (R182). -/
  | sChannelReset
  deriving DecidableEq, Repr

/-- The four kinds of encoded word: a command header (32 bits, R56), a transmit command word (11 bits, R62), a
micro-operation (6 bits, R70), an event (8 bits, R71). -/
inductive Fmt where
  | cmd
  | txw
  | uop
  | ev
  deriving DecidableEq, Repr

/-- An encoded instruction: its word, right-aligned in 32 bits, and its two operand words, whose widths are parameters (R55). For a
command these are `CMD`, `ARG0`, `ARG1`; for events and micro-operations the spec gives no encoding of the operands, and their place in
`arg0` and `arg1` is the model's own (DESIGN CHOICE, log 9). -/
structure Code where
  fmt : Fmt
  word : Word
  arg0 : Nat
  arg1 : Nat
  deriving DecidableEq, Repr

/-- Why the decoder reads no instruction from an encoded form. -/
inductive DecodeError where
  /-- `op` is not in the table of R57. -/
  | unknownOpcode
  /-- A field the command's format does not use is nonzero, or `CMD[31:23]` is (R59). -/
  | reservedField
  /-- A pull-up command with `ARG0[31:2]` nonzero (R59). -/
  | pullupReserved
  /-- A transmit word with a reserved `cmd`, a STOP with nonzero data, or a word wider than 11 bits (R62, U6). -/
  | reservedTxWord
  /-- The reserved buffer selector 3 (R70). -/
  | reservedSelector
  /-- A reserved `uop` code, or a word wider than 6 bits (R70). -/
  | reservedMicroOp
  /-- An event code that R71 does not list. -/
  | unknownEvent
  /-- An operand of an event or a micro-operation outside its range (the model's own operand encoding, log 9). -/
  | operandRange
  deriving DecidableEq, Repr

end Sys2Proof
end

