-- ==== Sys2Proof/WellFormed.lean ====
section
/-! DEFINITION. The checks on an instruction that its types do not make (rules R58, R59, R62). -/

namespace Sys2Proof

/-- `ARG0[31:2]` of a pull-up command must be zero (rules R58, R59, R106, R144). -/
def pullupArgOk (arg0 : Word) : Bool := decide (arg0.toNat < 4)

/-- A RECEIVE word carries a count from 1 to 256 (rule R62: "so `data` = n - 1 for n in 1..256"). -/
def receiveCountOk (count : Nat) : Bool := decide (1 ≤ count) && decide (count ≤ 256)

/-- An instruction the encodings of 30_encoding.md can carry. Every operand but these three has a type that holds exactly
its legal values. -/
def Instr.wellFormed : Instr → Bool
  | .mSetPullups arg0 => pullupArgOk arg0
  | .sSetPullups arg0 => pullupArgOk arg0
  | .txwReceive count => receiveCountOk count
  | _ => true

end Sys2Proof
end

