-- ==== Sys2Proof/Decode.lean ====
section
/-! DEFINITION. The decoder, total on every encoded form and rejecting by name, and after it the encoder, both written from
30_encoding.md rules R56, R57, R59, R62, R70, R71. -/

namespace Sys2Proof

/-! ### Fields of a command header (rule R56) -/

/-- `CMD[7:0]`, the opcode. -/
def cmdOp (w : Word) : BitVec 8 := w.extractLsb' 0 8

/-- `CMD[14:8]`, the address operand `a`. -/
def cmdA (w : Word) : Addr := w.extractLsb' 8 7

/-- `CMD[15]`, the `send_stop` operand `s`. -/
def cmdS (w : Word) : Bool := w.getLsbD 15

/-- `CMD[22:16]`, the second address operand `b`. -/
def cmdB (w : Word) : Addr := w.extractLsb' 16 7

/-- The masks of the six formats of rule R56: `H0`, `HP` and `HPL` compare all 32 bits. -/
def maskH : Word := 0xFFFFFFFF#32

/-- The mask of format `HA`. -/
def maskHA : Word := 0xFFFF80FF#32

/-- The mask of format `HAB`. -/
def maskHAB : Word := 0xFF8080FF#32

/-- The mask of format `HASPL`. -/
def maskHASPL : Word := 0xFFFF00FF#32

/-- "A command word `w` is an instance of a row of rule R57 when `(w & mask) = match`." -/
def isInstance (w mask pat : Word) : Bool := (w &&& mask) == pat

/-- The instruction of a command word whose opcode is known, if the word is an instance of its row (rule R59). -/
def ifInstance (w mask pat : Word) (i : Instr) : Except DecodeError Instr :=
  if isInstance w mask pat then .ok i else .error .reservedField

/-- A pull-up command, whose `ARG0[31:2]` must be zero as well (rule R59). -/
def ifPullup (w pat arg0 : Word) (f : Word → Instr) : Except DecodeError Instr :=
  if isInstance w maskH pat then (if pullupArgOk arg0 then .ok (f arg0) else .error .pullupReserved)
  else .error .reservedField

/-- The host commands: the opcode map of rule R57. -/
def decodeCmd (w : Word) (arg0 arg1 : Nat) : Except DecodeError Instr :=
  match (cmdOp w).toNat with
  | 0x10 => ifInstance w maskH 0x10#32 (.mBegin arg0)
  | 0x11 => ifInstance w maskH 0x11#32 .mEnd
  | 0x12 => ifInstance w maskHASPL 0x12#32 (.mWriteAsync (cmdA w) arg0 arg1 (cmdS w))
  | 0x13 => ifInstance w maskHASPL 0x13#32 (.mReadAsync (cmdA w) arg0 arg1 (cmdS w))
  | 0x14 => ifInstance w maskH 0x14#32 .mFinished
  | 0x15 => ifInstance w maskH 0x15#32 .mGetBytesTransferred
  | 0x16 => ifInstance w maskH 0x16#32 .mError
  | 0x17 => ifInstance w maskH 0x17#32 .mHasError
  | 0x18 => ifInstance w maskH 0x18#32 (.mSetPadControl (BitVec.ofNat 32 arg0))
  | 0x19 => ifPullup w 0x19#32 (BitVec.ofNat 32 arg0) .mSetPullups
  | 0x20 => ifInstance w maskHA 0x20#32 (.sListen (cmdA w))
  | 0x21 => ifInstance w maskHAB 0x21#32 (.sListen2 (cmdA w) (cmdB w))
  | 0x22 => ifInstance w maskHAB 0x22#32 (.sListenRange (cmdA w) (cmdB w))
  | 0x23 => ifInstance w maskH 0x23#32 .sStopListening
  | 0x24 => ifInstance w maskH 0x24#32 (.sSetRxBuffer arg0 arg1)
  | 0x25 => ifInstance w maskH 0x25#32 (.sSetTxBuffer arg0 arg1)
  | 0x26 => ifInstance w maskH 0x26#32 (.sAfterReceive arg0)
  | 0x27 => ifInstance w maskH 0x27#32 (.sBeforeTransmit arg0)
  | 0x28 => ifInstance w maskH 0x28#32 (.sAfterTransmit arg0)
  | 0x29 => ifInstance w maskH 0x29#32 .sError
  | 0x2A => ifInstance w maskH 0x2A#32 .sHasError
  | 0x2B => ifInstance w maskH 0x2B#32 (.sSetPadControl (BitVec.ofNat 32 arg0))
  | 0x2C => ifPullup w 0x2C#32 (BitVec.ofNat 32 arg0) .sSetPullups
  | _ => .error .unknownOpcode

/-! ### Transmit command words (rule R62) -/

/-- The direction a bit stands for: 0 write, 1 read. -/
def dirOfBit (b : Bool) : Dir := if b then .read else .write

/-- The bit of a direction: 0 write, 1 read. -/
def dirBit (d : Dir) : Bool :=
  match d with
  | .write => false
  | .read => true

/-- `w[10:8]`, the command of a transmit word. -/
def txwCmd (w : BitVec 11) : BitVec 3 := w.extractLsb' 8 3

/-- `w[7:0]`, the data of a transmit word. -/
def txwData (w : BitVec 11) : Byte := w.extractLsb' 0 8

/-- The four transmit commands; the other command values are reserved, and a STOP's data must be 0. -/
def decodeTxw (w : BitVec 11) : Except DecodeError Instr :=
  match (txwCmd w).toNat with
  | 0b000 => .ok (.txwTransmit (txwData w))
  | 0b001 => .ok (.txwReceive ((txwData w).toNat + 1))
  | 0b010 => if txwData w == 0#8 then .ok .txwStop else .error .reservedTxWord
  | 0b100 => .ok (.txwStart ((txwData w).extractLsb' 1 7) (dirOfBit ((txwData w).getLsbD 0)))
  | _ => .error .reservedTxWord

/-- `TRANSMIT(d)` = `0x000 | d`. -/
def txwTransmitWord (d : Byte) : BitVec 11 := 0b000#3 ++ d

/-- `RECEIVE(n)` = `0x100 | (n - 1)`. -/
def txwReceiveWord (n : Nat) : BitVec 11 := 0b001#3 ++ BitVec.ofNat 8 (n - 1)

/-- `STOP` = `0x200`. -/
def txwStopWord : BitVec 11 := 0x200#11

/-- `START(addr, dir)` = `0x400 | (addr << 1) | dir`. -/
def txwStartWord (addr : Addr) (dir : Dir) : BitVec 11 := (0b100#3 ++ addr) ++ BitVec.ofBool (dirBit dir)

/-! ### Micro-operations (rule R70) -/

/-- The buffer selector of a micro-operation. -/
def decodeSel (sel : Nat) : Except DecodeError BufSel :=
  match sel with
  | 0 => .ok .mBuf
  | 1 => .ok .sRxBuf
  | 2 => .ok .sTxBuf
  | _ => .error .reservedSelector

/-- A byte operand carried in a whole operand word (log 9). -/
def byteOperand (arg : Nat) : Except DecodeError Byte :=
  if arg < 256 then .ok (BitVec.ofNat 8 arg) else .error .operandRange

/-- A one-bit operand carried in a whole operand word (log 9). -/
def bitOperand (arg : Nat) : Except DecodeError Bool :=
  match arg with
  | 0 => .ok false
  | 1 => .ok true
  | _ => .error .operandRange

/-- An address operand carried in a whole operand word (log 9). -/
def addrOperand (arg : Nat) : Except DecodeError Addr :=
  if arg < 128 then .ok (BitVec.ofNat 7 arg) else .error .operandRange

/-- The nine micro-operations on a selected buffer. -/
def decodeUopOn (uop : Nat) (sel : BufSel) (arg0 arg1 : Nat) : Except DecodeError Instr :=
  match uop with
  | 0x0 => .ok (.bbInit sel arg0 arg1)
  | 0x1 => (byteOperand arg0).map (.bbWrite sel)
  | 0x2 => .ok (.bbRead sel)
  | 0x3 => .ok (.bbHasData sel)
  | 0x4 => .ok (.bbNotStartedReading sel)
  | 0x5 => .ok (.bbNotStartedWriting sel)
  | 0x6 => .ok (.bbFinishedReading sel)
  | 0x7 => .ok (.bbFinishedWriting sel)
  | 0x8 => .ok (.bbConfigured sel)
  | _ => .error .reservedMicroOp

/-- A micro-operation: `sel[5:4] ++ uop[3:0]`. -/
def decodeUop (w : Word) (arg0 arg1 : Nat) : Except DecodeError Instr :=
  if w.toNat < 64 then
    match decodeSel (w.extractLsb' 4 2).toNat with
    | .ok sel => decodeUopOn (w.extractLsb' 0 4).toNat sel arg0 arg1
    | .error e => .error e
  else .error .reservedMicroOp

/-! ### Events (rule R71) -/

/-- The flag a `LU_M_FLAG` operand names, numbered in the order of rule R173 (log 9). -/
def flagOperand (arg : Nat) : Except DecodeError MFlag :=
  match arg with
  | 0 => .ok .stop
  | 1 => .ok .nak
  | 2 => .ok .arb
  | 3 => .ok .ferr
  | 4 => .ok .plt
  | _ => .error .operandRange

/-- The level a `LU_M_LEVEL` operand names, numbered in the order of rule R174 (log 9). -/
def levelOperand (arg : Nat) : Except DecodeError MLevel :=
  match arg with
  | 0 => .ok .busy
  | 1 => .ok .held
  | 2 => .ok .pltc
  | _ => .error .operandRange

/-- An instruction of two operands, each of which may be out of range. -/
def twoOperands {α β : Type} (x : Except DecodeError α) (y : Except DecodeError β) (f : α → β → Instr) :
    Except DecodeError Instr :=
  match x, y with
  | .ok a, .ok b => .ok (f a b)
  | .error e, _ => .error e
  | .ok _, .error e => .error e

/-- The events, by their 8-bit codes. -/
def decodeEv (w : Word) (arg0 arg1 : Nat) : Except DecodeError Instr :=
  match w.toNat with
  | 0x30 => .ok .mIsr
  | 0x31 => .ok .sIsr
  | 0x38 => .ok .upAfterReceive
  | 0x39 => .ok .upBeforeTransmit
  | 0x3A => .ok .upAfterTransmit
  | 0x40 => .ok .luMTake
  | 0x41 => (byteOperand arg0).map .luMRx
  | 0x42 => (flagOperand arg0).map .luMFlag
  | 0x43 => twoOperands (levelOperand arg0) (bitOperand arg1) .luMLevel
  | 0x50 => twoOperands (addrOperand arg0) (bitOperand arg1) (fun a b => .luSAddr a (dirOfBit b))
  | 0x51 => twoOperands (byteOperand arg0) (bitOperand arg1) .luSRx
  | 0x52 => .ok .luSTake
  | 0x53 => .ok .luSRs
  | 0x54 => .ok .luSStop
  | 0x55 => .ok .luSBerr
  | 0x60 => .ok .mChannelReset
  | 0x61 => .ok .mRecoveryPulses
  | 0x62 => .ok .sChannelReset
  | _ => .error .unknownEvent

/-- The decoder. -/
def decode (c : Code) : Except DecodeError Instr :=
  match c.fmt with
  | .cmd => decodeCmd c.word c.arg0 c.arg1
  | .txw => if c.word.toNat < 2048 then decodeTxw (c.word.setWidth 11) else .error .reservedTxWord
  | .uop => decodeUop c.word c.arg0 c.arg1
  | .ev => decodeEv c.word c.arg0 c.arg1

/-! ### The encoder -/

/-- `CMD = op | (a << 8) | (s << 15) | (b << 16)` (rules R56, R72); bits 31:23 are zero. -/
def cmdWord (op : BitVec 8) (a : Addr) (s : Bool) (b : Addr) : Word :=
  op.setWidth 32 ||| (a.setWidth 32 <<< 8) ||| ((BitVec.ofBool s).setWidth 32 <<< 15) ||| (b.setWidth 32 <<< 16)

/-- A command whose header carries only its opcode (formats `H0`, `HP`, `HPL`). -/
def encodePlain (op : BitVec 8) (arg0 arg1 : Nat) : Code := ⟨.cmd, cmdWord op 0#7 false 0#7, arg0, arg1⟩

/-- A transmit word. -/
def encodeTx (w : BitVec 11) : Code := ⟨.txw, w.setWidth 32, 0, 0⟩

/-- The two bits of a buffer selector. -/
def selBits (sel : BufSel) : BitVec 2 :=
  match sel with
  | .mBuf => 0#2
  | .sRxBuf => 1#2
  | .sTxBuf => 2#2

/-- A micro-operation. -/
def encodeUop (uop : BitVec 4) (sel : BufSel) (arg0 arg1 : Nat) : Code :=
  ⟨.uop, (selBits sel ++ uop).setWidth 32, arg0, arg1⟩

/-- An event. -/
def encodeEv (ev : Word) (arg0 arg1 : Nat) : Code := ⟨.ev, ev, arg0, arg1⟩

/-- A bit as a whole operand word. -/
def bitWord (b : Bool) : Nat := if b then 1 else 0

/-- The operand of `LU_M_FLAG`. -/
def flagWord (f : MFlag) : Nat :=
  match f with
  | .stop => 0
  | .nak => 1
  | .arb => 2
  | .ferr => 3
  | .plt => 4

/-- The first operand of `LU_M_LEVEL`. -/
def levelWord (l : MLevel) : Nat :=
  match l with
  | .busy => 0
  | .held => 1
  | .pltc => 2

/-- The encoded form of an instruction; operand words a format does not use are zero. -/
def encode (i : Instr) : Code :=
  match i with
  | .mBegin f => encodePlain 0x10#8 f 0
  | .mEnd => encodePlain 0x11#8 0 0
  | .mWriteAsync a p n s => ⟨.cmd, cmdWord 0x12#8 a s 0#7, p, n⟩
  | .mReadAsync a p n s => ⟨.cmd, cmdWord 0x13#8 a s 0#7, p, n⟩
  | .mFinished => encodePlain 0x14#8 0 0
  | .mGetBytesTransferred => encodePlain 0x15#8 0 0
  | .mError => encodePlain 0x16#8 0 0
  | .mHasError => encodePlain 0x17#8 0 0
  | .mSetPadControl v => encodePlain 0x18#8 v.toNat 0
  | .mSetPullups v => encodePlain 0x19#8 v.toNat 0
  | .sListen a => ⟨.cmd, cmdWord 0x20#8 a false 0#7, 0, 0⟩
  | .sListen2 a b => ⟨.cmd, cmdWord 0x21#8 a false b, 0, 0⟩
  | .sListenRange a b => ⟨.cmd, cmdWord 0x22#8 a false b, 0, 0⟩
  | .sStopListening => encodePlain 0x23#8 0 0
  | .sSetRxBuffer p n => encodePlain 0x24#8 p n
  | .sSetTxBuffer p n => encodePlain 0x25#8 p n
  | .sAfterReceive h => encodePlain 0x26#8 h 0
  | .sBeforeTransmit h => encodePlain 0x27#8 h 0
  | .sAfterTransmit h => encodePlain 0x28#8 h 0
  | .sError => encodePlain 0x29#8 0 0
  | .sHasError => encodePlain 0x2A#8 0 0
  | .sSetPadControl v => encodePlain 0x2B#8 v.toNat 0
  | .sSetPullups v => encodePlain 0x2C#8 v.toNat 0
  | .txwTransmit d => encodeTx (txwTransmitWord d)
  | .txwReceive n => encodeTx (txwReceiveWord n)
  | .txwStop => encodeTx txwStopWord
  | .txwStart a d => encodeTx (txwStartWord a d)
  | .bbInit sel p n => encodeUop 0x0#4 sel p n
  | .bbWrite sel b => encodeUop 0x1#4 sel b.toNat 0
  | .bbRead sel => encodeUop 0x2#4 sel 0 0
  | .bbHasData sel => encodeUop 0x3#4 sel 0 0
  | .bbNotStartedReading sel => encodeUop 0x4#4 sel 0 0
  | .bbNotStartedWriting sel => encodeUop 0x5#4 sel 0 0
  | .bbFinishedReading sel => encodeUop 0x6#4 sel 0 0
  | .bbFinishedWriting sel => encodeUop 0x7#4 sel 0 0
  | .bbConfigured sel => encodeUop 0x8#4 sel 0 0
  | .mIsr => encodeEv 0x30#32 0 0
  | .sIsr => encodeEv 0x31#32 0 0
  | .upAfterReceive => encodeEv 0x38#32 0 0
  | .upBeforeTransmit => encodeEv 0x39#32 0 0
  | .upAfterTransmit => encodeEv 0x3A#32 0 0
  | .luMTake => encodeEv 0x40#32 0 0
  | .luMRx b => encodeEv 0x41#32 b.toNat 0
  | .luMFlag f => encodeEv 0x42#32 (flagWord f) 0
  | .luMLevel l v => encodeEv 0x43#32 (levelWord l) (bitWord v)
  | .luSAddr a rw => encodeEv 0x50#32 a.toNat (bitWord (dirBit rw))
  | .luSRx b sof => encodeEv 0x51#32 b.toNat (bitWord sof)
  | .luSTake => encodeEv 0x52#32 0 0
  | .luSRs => encodeEv 0x53#32 0 0
  | .luSStop => encodeEv 0x54#32 0 0
  | .luSBerr => encodeEv 0x55#32 0 0
  | .mChannelReset => encodeEv 0x60#32 0 0
  | .mRecoveryPulses => encodeEv 0x61#32 0 0
  | .sChannelReset => encodeEv 0x62#32 0 0

/-! ### The opcode table's rows -/

/-- A row of the opcode table as far as decoding goes: the kind of word, its mask and its match. -/
structure Row where
  fmt : Fmt
  mask : Word
  pat : Word
  deriving DecidableEq, Repr

/-- The row an instruction belongs to (spec/opcode_table.json; rules R57, R62, R70, R71). -/
def rowOf (i : Instr) : Row :=
  match i with
  | .mBegin _ => ⟨.cmd, maskH, 0x10#32⟩
  | .mEnd => ⟨.cmd, maskH, 0x11#32⟩
  | .mWriteAsync .. => ⟨.cmd, maskHASPL, 0x12#32⟩
  | .mReadAsync .. => ⟨.cmd, maskHASPL, 0x13#32⟩
  | .mFinished => ⟨.cmd, maskH, 0x14#32⟩
  | .mGetBytesTransferred => ⟨.cmd, maskH, 0x15#32⟩
  | .mError => ⟨.cmd, maskH, 0x16#32⟩
  | .mHasError => ⟨.cmd, maskH, 0x17#32⟩
  | .mSetPadControl _ => ⟨.cmd, maskH, 0x18#32⟩
  | .mSetPullups _ => ⟨.cmd, maskH, 0x19#32⟩
  | .sListen _ => ⟨.cmd, maskHA, 0x20#32⟩
  | .sListen2 _ _ => ⟨.cmd, maskHAB, 0x21#32⟩
  | .sListenRange _ _ => ⟨.cmd, maskHAB, 0x22#32⟩
  | .sStopListening => ⟨.cmd, maskH, 0x23#32⟩
  | .sSetRxBuffer _ _ => ⟨.cmd, maskH, 0x24#32⟩
  | .sSetTxBuffer _ _ => ⟨.cmd, maskH, 0x25#32⟩
  | .sAfterReceive _ => ⟨.cmd, maskH, 0x26#32⟩
  | .sBeforeTransmit _ => ⟨.cmd, maskH, 0x27#32⟩
  | .sAfterTransmit _ => ⟨.cmd, maskH, 0x28#32⟩
  | .sError => ⟨.cmd, maskH, 0x29#32⟩
  | .sHasError => ⟨.cmd, maskH, 0x2A#32⟩
  | .sSetPadControl _ => ⟨.cmd, maskH, 0x2B#32⟩
  | .sSetPullups _ => ⟨.cmd, maskH, 0x2C#32⟩
  | .txwTransmit _ => ⟨.txw, 0x700#32, 0x000#32⟩
  | .txwReceive _ => ⟨.txw, 0x700#32, 0x100#32⟩
  | .txwStop => ⟨.txw, 0x7FF#32, 0x200#32⟩
  | .txwStart _ _ => ⟨.txw, 0x700#32, 0x400#32⟩
  | .bbInit .. => ⟨.uop, 0x0F#32, 0x00#32⟩
  | .bbWrite _ _ => ⟨.uop, 0x0F#32, 0x01#32⟩
  | .bbRead _ => ⟨.uop, 0x0F#32, 0x02#32⟩
  | .bbHasData _ => ⟨.uop, 0x0F#32, 0x03#32⟩
  | .bbNotStartedReading _ => ⟨.uop, 0x0F#32, 0x04#32⟩
  | .bbNotStartedWriting _ => ⟨.uop, 0x0F#32, 0x05#32⟩
  | .bbFinishedReading _ => ⟨.uop, 0x0F#32, 0x06#32⟩
  | .bbFinishedWriting _ => ⟨.uop, 0x0F#32, 0x07#32⟩
  | .bbConfigured _ => ⟨.uop, 0x0F#32, 0x08#32⟩
  | .mIsr => ⟨.ev, 0xFF#32, 0x30#32⟩
  | .sIsr => ⟨.ev, 0xFF#32, 0x31#32⟩
  | .upAfterReceive => ⟨.ev, 0xFF#32, 0x38#32⟩
  | .upBeforeTransmit => ⟨.ev, 0xFF#32, 0x39#32⟩
  | .upAfterTransmit => ⟨.ev, 0xFF#32, 0x3A#32⟩
  | .luMTake => ⟨.ev, 0xFF#32, 0x40#32⟩
  | .luMRx _ => ⟨.ev, 0xFF#32, 0x41#32⟩
  | .luMFlag _ => ⟨.ev, 0xFF#32, 0x42#32⟩
  | .luMLevel _ _ => ⟨.ev, 0xFF#32, 0x43#32⟩
  | .luSAddr _ _ => ⟨.ev, 0xFF#32, 0x50#32⟩
  | .luSRx _ _ => ⟨.ev, 0xFF#32, 0x51#32⟩
  | .luSTake => ⟨.ev, 0xFF#32, 0x52#32⟩
  | .luSRs => ⟨.ev, 0xFF#32, 0x53#32⟩
  | .luSStop => ⟨.ev, 0xFF#32, 0x54#32⟩
  | .luSBerr => ⟨.ev, 0xFF#32, 0x55#32⟩
  | .mChannelReset => ⟨.ev, 0xFF#32, 0x60#32⟩
  | .mRecoveryPulses => ⟨.ev, 0xFF#32, 0x61#32⟩
  | .sChannelReset => ⟨.ev, 0xFF#32, 0x62#32⟩

/-- The rows of the 23 host commands (rule R57), in the table's order. -/
def commandRows : List Row :=
  [rowOf (.mBegin 0), rowOf .mEnd, rowOf (.mWriteAsync 0#7 0 0 false), rowOf (.mReadAsync 0#7 0 0 false),
   rowOf .mFinished, rowOf .mGetBytesTransferred, rowOf .mError, rowOf .mHasError, rowOf (.mSetPadControl 0#32),
   rowOf (.mSetPullups 0#32)] ++
  [rowOf (.sListen 0#7), rowOf (.sListen2 0#7 0#7), rowOf (.sListenRange 0#7 0#7), rowOf .sStopListening,
   rowOf (.sSetRxBuffer 0 0), rowOf (.sSetTxBuffer 0 0), rowOf (.sAfterReceive 0),
   rowOf (.sBeforeTransmit 0), rowOf (.sAfterTransmit 0), rowOf .sError, rowOf .sHasError,
   rowOf (.sSetPadControl 0#32), rowOf (.sSetPullups 0#32)]

/-- Two rows of one kind of word that share an instance. -/
def Row.overlaps (r q : Row) : Bool :=
  decide (r.fmt = q.fmt) && ((r.pat ^^^ q.pat) &&& (r.mask &&& q.mask)) == 0#32

/-! ### The table's own numbering -/

/-- The encoded form of a table row's word given with `nbits` bits: 32 a command, 11 (or 16) a transmit word, 6 (or 8) a
micro-operation or an event. The two last share eight bits: the micro-operations of the three buffers are the words below
0x30 (selector 3 is reserved, R70), the events the words from 0x30 on (R71). Operand words are zero. -/
def tableCode (nbits w : Nat) : Code :=
  if 16 < nbits then ⟨.cmd, BitVec.ofNat 32 w, 0, 0⟩
  else if 8 < nbits then ⟨.txw, BitVec.ofNat 32 w, 0, 0⟩
  else if nbits < 7 then ⟨.uop, BitVec.ofNat 32 w, 0, 0⟩
  else if w < 0x30 then ⟨.uop, BitVec.ofNat 32 w, 0, 0⟩
  else ⟨.ev, BitVec.ofNat 32 w, 0, 0⟩

/-- The instruction the decoder reads from a table row's word. -/
def decodeTableWord (nbits w : Nat) : Option Instr :=
  match decode (tableCode nbits w) with
  | .ok i => some i
  | .error _ => none

end Sys2Proof
end

