-- ==== Sys2Proof/Config.lean ====
section
/-! DEFINITION. What an implementation or its platform fixes (00_scope.md rule R6), and the one free value of the model. -/

namespace Sys2Proof

/-- A device region of the address space of caller memory, `[base, base + size)` (rules R45, R46: where the platform puts one is
not the spec's). -/
structure Region where
  base : Nat
  size : Nat
  deriving DecidableEq, Repr

/-- The parameters of rule R6 that the spec leaves open (93_implementation_defined.md U14, U16: treat as a parameter), and the
platform's device regions. They are carried as plain data in the state, written by no step, so that a statement about every
state is a statement about every choice of them (log 6, log 15). -/
structure Config where
  /-- `PTR_W`: bits of a buffer pointer, of an address of caller memory and of a callback handle. -/
  ptrW : Nat
  /-- `LEN_W`: bits of a buffer length and of a cursor. -/
  lenW : Nat
  /-- `FREQ_W`: bits of the frequency operand. -/
  freqW : Nat
  /-- `M_TX_DEPTH`: entries in the master transmit FIFO. -/
  mTxDepth : Nat
  /-- `M_RX_DEPTH`: entries in the master receive FIFO. -/
  mRxDepth : Nat
  /-- `M_TX_WATERMARK`: `M_TDR` is set when the count is at or below it. -/
  mTxWatermark : Nat
  /-- `M_RX_WATERMARK`: `M_RDA` is set when the count is above it. -/
  mRxWatermark : Nat
  /-- `RECOVERY_PULSES`: clock cycles of a bus recovery (rule R116). -/
  recoveryPulses : Nat
  /-- `FINISHED_CHECKS_BUSY`: which variant of `finished()` (rule R98). -/
  finishedChecksBusy : Bool
  /-- The device regions of the platform (rule R45). -/
  devices : List Region
  deriving DecidableEq, Repr

/-- The defaults of rule R6; no device region. -/
def Config.default : Config :=
  { ptrW := 32, lenW := 32, freqW := 32, mTxDepth := 4, mRxDepth := 4, mTxWatermark := 0, mRxWatermark := 0,
    recoveryPulses := 9, finishedChecksBusy := true, devices := [] }

/-- The legal ranges of rule R6. -/
def Config.legal (c : Config) : Bool :=
  decide (1 ≤ c.ptrW) && decide (9 ≤ c.lenW) && decide (20 ≤ c.freqW) && decide (2 ≤ c.mTxDepth)
    && decide (1 ≤ c.mRxDepth) && decide (c.mTxWatermark < c.mTxDepth) && decide (c.mRxWatermark < c.mRxDepth)
    && decide (1 ≤ c.recoveryPulses)

/-- `MAX_MASTER_READ` (rule R6): "a read longer than 256 bytes fails". -/
def maxMasterRead : Nat := 256

/-- `F_STANDARD_MAX` in hertz, inclusive (rule R6). -/
def fStandardMax : Nat := 100000

/-- `F_FAST_LIMIT` in hertz, exclusive (rule R6). -/
def fFastLimit : Nat := 1000000

/-- `DUMMY_BYTE` (rule R6): "a dummy `0x00` is sent". -/
def dummyByte : Byte := 0x00#8

/-- FREE VALUE (log 4): what a byte of caller memory that nothing has written holds, by its address. Rule R41: "a read of
an unspecified value (treat as a draw, or fault)"; it depends on the address alone because the same rule says the read
"has no side effect and is idempotent". It has no body: no proof can know it. -/
opaque Config.unwrittenByte : Nat → Byte

end Sys2Proof
end

