-- ==== Sys2Proof/Machine/State.lean ====
section
/-! DEFINITION. The state of one port instance of I2C-CORE (10_state.md), as plain data, the reasons a step can stop, and the
state after reset (rule R39). -/

namespace Sys2Proof.Machine

/-! ### Named values of the registers (30_encoding.md rules R64, R65) -/

/-- The twelve error codes (rule R64), in the order of their numbers 0 to 11. -/
inductive ErrorCode where
  | ok
  | arbitrationLost
  | bufferOverflow
  | bufferUnderflow
  | invalidRequest
  | pinLowTimeout
  | masterNotReady
  | masterFifoError
  | masterFifosNotEmpty
  | addressNak
  | dataNak
  | bitError
  deriving DecidableEq, Repr

/-- The master session states (rules R12, R65), in the order of their numbers 0 to 5. -/
inductive MState where
  | starting
  | transferring
  | stopping
  | idle
  | transferComplete
  | stopped
  deriving DecidableEq, Repr

/-- The slave session states (rules R24, R65), in the order of their numbers 0 to 3. -/
inductive SState where
  | idle
  | receiving
  | transmitting
  | aborted
  deriving DecidableEq, Repr

/-- The speed classes `m_class` (rules R16, R65). -/
inductive SpeedClass where
  | standard
  | fast
  | fastModePlus
  deriving DecidableEq, Repr

/-- The address-match modes `s_mode` (rules R30, R65). -/
inductive MatchMode where
  | none
  | single
  | dual
  | range
  deriving DecidableEq, Repr

/-! ### The parts of the state -/

/-- A ByteBuffer, the register triple `(ptr, len, next)` (rule R11): `PTR_W`, `LEN_W` and `LEN_W` bits. -/
structure ByteBuffer where
  ptr : Nat
  len : Nat
  next : Nat
  deriving DecidableEq, Repr

/-- A pad configuration, the pair `(pad_ctrl, pullup)` (rules R23, R69). -/
structure Pad where
  ctrl : Word
  pullup : BitVec 2
  deriving DecidableEq, Repr

/-- The master engine's registers, FIFOs, flags and levels (rules R12 to R23). -/
structure Master where
  /-- `m_state` (R12). -/
  state : MState
  /-- `m_dir` (R13). -/
  dir : Dir
  /-- `m_stop` (R13): the `send_stop` operand of the transaction in progress. -/
  sendStop : Bool
  /-- `m_err` (R14). -/
  err : ErrorCode
  /-- `m_buf` (R15). -/
  buf : ByteBuffer
  /-- `m_freq` (R16), `FREQ_W` bits. -/
  freq : Nat
  /-- `m_class` (R16). -/
  cls : SpeedClass
  /-- `m_en` (R17). -/
  en : Bool
  /-- `m_irq_en` (R17). -/
  irqEn : Bool
  /-- `M_IER` (R18, R66). -/
  ier : BitVec 7
  /-- `m_txq` (R19), head first. -/
  txq : List (BitVec 11)
  /-- `m_rxq` (R19), head first. -/
  rxq : List Byte
  /-- `M_STOP` (R20). -/
  stopFlag : Bool
  /-- `M_NAK` (R20). -/
  nakFlag : Bool
  /-- `M_ARB` (R20). -/
  arbFlag : Bool
  /-- `M_FERR` (R20). -/
  ferrFlag : Bool
  /-- `M_PLT` (R20). -/
  pltFlag : Bool
  /-- `M_BUSY` (R21). -/
  busy : Bool
  /-- `M_HELD` (R21). -/
  held : Bool
  /-- `M_PLTC` (R21). -/
  pltc : Bool
  /-- `m_pad_pending` (R23). -/
  padPending : Pad
  /-- `m_pad_applied` (R23). -/
  padApplied : Pad
  deriving DecidableEq, Repr

/-- The slave engine's registers, FIFOs, flags and levels (rules R23 to R34). -/
structure Slave where
  /-- `s_state` (R24). -/
  state : SState
  /-- `s_err` (R25). -/
  err : ErrorCode
  /-- `s_addr` (R26). -/
  addr : Addr
  /-- `s_trail` (R27). -/
  trail : Bool
  /-- `s_rxbuf` (R28). -/
  rxbuf : ByteBuffer
  /-- `s_txbuf` (R28). -/
  txbuf : ByteBuffer
  /-- `s_cb_after_rx` (R29), `PTR_W` bits as the other two; 0 is no callback. -/
  cbAfterRx : Nat
  /-- `s_cb_before_tx` (R29). -/
  cbBeforeTx : Nat
  /-- `s_cb_after_tx` (R29). -/
  cbAfterTx : Nat
  /-- `s_listen` (R30). -/
  listen : Bool
  /-- `s_mode` (R30). -/
  mode : MatchMode
  /-- `s_match0` (R30). -/
  match0 : Addr
  /-- `s_match1` (R30). -/
  match1 : Addr
  /-- `S_IER` (R31, R67). -/
  ier : BitVec 6
  /-- `s_irq_en` (R31). -/
  irqEn : Bool
  /-- `s_txq` (R32), head first. -/
  txq : List Byte
  /-- `s_rxq` (R32, R63), entries `sof ++ data`. -/
  rxq : List (BitVec 9)
  /-- `S_AM` (R33). -/
  amFlag : Bool
  /-- `S_STOP` (R33). -/
  stopFlag : Bool
  /-- `S_RS` (R33). -/
  rsFlag : Bool
  /-- `S_BERR` (R33). -/
  berrFlag : Bool
  /-- `s_asr` (R33). -/
  asr : Addr
  /-- `s_txreq` (R33). -/
  txreq : Bool
  /-- `s_pad_pending` (R23). -/
  padPending : Pad
  /-- `s_pad_applied` (R23). -/
  padApplied : Pad
  /-- The model's own (log 18): a slave pass is held for ever by a callback that does not return (R243; U11, stuck). -/
  hung : Bool
  deriving DecidableEq, Repr

/-- Caller memory (rules R40, R41): the bytes that have been written, by rising address; an address that is not listed has
never been written. -/
abbrev Mem := List Host.Cell

/-! ### The environment's data (the model's own fields, log 1, 7, 8) -/

/-- What a host does inside a callback (rules R158, R241): issue one command through the command port, or access caller
memory. -/
inductive HostAct where
  | command (cmd : Word) (arg0 arg1 : Nat)
  | memRead (addr : Nat)
  | memWrite (addr : Nat) (byte : Byte)
  deriving DecidableEq, Repr

/-- One run of a callback: what it does, in order, and whether it returns (rules R158, R243; U11). -/
structure Callback where
  acts : List HostAct
  returns : Bool
  deriving DecidableEq, Repr

/-- One step the environment has chosen: an encoded instruction, a host access to caller memory (rules R47, R241), or the
reset input `rst` (rule R230). -/
inductive Input where
  | code (c : Code)
  | memRead (addr : Nat)
  | memWrite (addr : Nat) (byte : Byte)
  | rst
  deriving DecidableEq, Repr

/-- An output to the environment: the three output events (rules R175, R182), the three upcalls with their handle and
arguments (rule R68), and the result a command or a read issued inside a callback hands to that callback. -/
inductive OutEvent where
  | mChannelReset
  | mRecoveryPulses (n : Nat)
  | sChannelReset
  | afterReceive (handle length : Nat) (address : Byte)
  | beforeTransmit (handle : Nat) (address : Byte)
  | afterTransmit (handle : Nat) (address : Byte)
  | callbackResult (value : Nat)
  deriving DecidableEq, Repr

/-- One port instance of I2C-CORE, its caller memory, and its environment's data. -/
structure State where
  /-- The implementation parameters (R6) and the platform's device regions (R45); no step writes them. -/
  cfg : Config
  /-- The master engine. -/
  master : Master
  /-- The slave engine. -/
  slave : Slave
  /-- Caller memory. -/
  mem : Mem
  /-- `RES` (R55, R60), 32 or `LEN_W` bits: what the last step returned, if it returns anything. -/
  res : Option Nat
  /-- The output events and upcalls delivered so far, oldest first. -/
  events : List OutEvent
  /-- What the callbacks of the coming upcalls do, next first; none listed means the callback does nothing and returns. -/
  callbacks : List Callback
  /-- The steps the environment has chosen, next first. -/
  pending : List Input
  deriving DecidableEq, Repr

/-! ### Why a step can stop -/

/-- The situations 93_implementation_defined.md tells a model to treat as a fault or as stuck. -/
inductive Fault where
  /-- U1: `BB_READ` with the cursor at the length (R82). Raised by `BB_READ`; safe. -/
  | readPastEnd
  /-- U4: a push into a full `m_txq` (R103). Raised by `tx_push`, in `start`, `abort`, the transfer commands and the master
  pass; safe. -/
  | txFifoFull
  /-- U5: a transfer command while `m_en` = 0 (R95, R96). Raised by `M_WRITE_ASYNC` and `M_READ_ASYNC`; safe. -/
  | notBegun
  /-- U6: the line unit finds a transmit word with a reserved command value (R62). Raised by `LU_M_TAKE`; safe. -/
  | reservedTxWord
  deriving DecidableEq, Repr

/-- The steps that are not accepted: they change nothing. -/
inductive Refusal where
  /-- An instruction without a meaning in this model. Raised by `exec`'s arms alone; safe. -/
  | notModelled (mnemonic : String)
  /-- U10: a word that is no instruction (R59), or a reserved code (R62, R70, R71). Raised by the step's decoding and, for a
  command issued in a callback, by the upcall; safe. -/
  | notAccepted (why : DecodeError)
  /-- A pass whose vector is not pending is not enabled (R205). Raised by `M_ISR` and `S_ISR`; safe. -/
  | vectorNotPending
  /-- A line-unit move whose guard is false is not enabled (R170 to R178). Raised by the line-unit moves and the transmit
  words; safe. -/
  | moveNotEnabled
  /-- U8: a buffer whose region wraps past the top of the address space (R41). Raised by what binds it; safe. -/
  | regionWraps
  /-- A buffer over a device region, or a host access to one (R45: "a model should refuse it"). Raised by what binds the buffer
  and by the host's accesses to caller memory; safe. -/
  | deviceRegion
  /-- U11, stuck: a slave pass that a callback never ends (R243: "the slave engine makes no further step"). Raised by the slave
  pass, the upcalls and the slave side of the line unit; safe. -/
  | slaveHung
  /-- U7: a command that is not permitted inside an upcall (R158). Raised by the upcalls; safe. -/
  | notPermittedInUpcall
  deriving DecidableEq, Repr

/-! ### Reset (rules R39, R230) -/

/-- A ByteBuffer that is not configured. -/
def ByteBuffer.reset : ByteBuffer := { ptr := 0, len := 0, next := 0 }

/-- Pull-ups disabled and pad word 0, "only as this spec's placeholder" (R39). -/
def Pad.reset : Pad := { ctrl := 0#32, pullup := 0#2 }

/-- The master engine after reset; `M_PLTC` is "whatever the line unit drives" and stands at 0 here (DESIGN CHOICE, log 3). -/
def Master.reset : Master :=
  { state := .idle, dir := .write, sendStop := false, err := .ok, buf := ByteBuffer.reset, freq := 0, cls := .standard,
    en := false, irqEn := false, ier := 0#7, txq := [], rxq := [], stopFlag := false, nakFlag := false, arbFlag := false,
    ferrFlag := false, pltFlag := false, busy := false, held := false, pltc := false, padPending := Pad.reset,
    padApplied := Pad.reset }

/-- The slave engine after reset. -/
def Slave.reset : Slave :=
  { state := .idle, err := .ok, addr := 0#7, trail := false, rxbuf := ByteBuffer.reset, txbuf := ByteBuffer.reset,
    cbAfterRx := 0, cbBeforeTx := 0, cbAfterTx := 0, listen := false, mode := .none, match0 := 0#7, match1 := 0#7,
    ier := 0#6, irqEn := false, txq := [], rxq := [], amFlag := false, stopFlag := false, rsFlag := false,
    berrFlag := false, asr := 0#7, txreq := false, padPending := Pad.reset, padApplied := Pad.reset, hung := false }

/-- The port right after power-on reset, with the default parameters, no byte of caller memory written, and nothing chosen by
the environment yet. -/
def State.reset : State :=
  { cfg := Config.default, master := Master.reset, slave := Slave.reset, mem := [], res := none, events := [],
    callbacks := [], pending := [] }

end Sys2Proof.Machine
end

