-- ==== Sys2Proof/Machine/Operands.lean ====
section
/-! DEFINITION. Operand forms: the numbers behind the registers' named values (rules R64, R65, R71), the buffer a selector names
(R70), operands narrowed to their widths (R58), pads and pull-ups (R69), the address a buffer's cursor points at (R41), results
(R60), the speed class (R91), the match predicate (R143). -/

namespace Sys2Proof.Machine

/-! ### Encodings of the registers' values -/

/-- The number of an error code (rule R64). -/
def ErrorCode.code (e : ErrorCode) : BitVec 4 :=
  match e with
  | .ok => 0#4
  | .arbitrationLost => 1#4
  | .bufferOverflow => 2#4
  | .bufferUnderflow => 3#4
  | .invalidRequest => 4#4
  | .pinLowTimeout => 5#4
  | .masterNotReady => 6#4
  | .masterFifoError => 7#4
  | .masterFifosNotEmpty => 8#4
  | .addressNak => 9#4
  | .dataNak => 10#4
  | .bitError => 11#4

/-- The number of a master session state (rule R65). -/
def MState.code (m : MState) : BitVec 3 :=
  match m with
  | .starting => 0#3
  | .transferring => 1#3
  | .stopping => 2#3
  | .idle => 3#3
  | .transferComplete => 4#3
  | .stopped => 5#3

/-- "`idle` and beyond": the unsigned test `m_state >= 3` (rules R12, R65). -/
def MState.finished (m : MState) : Bool := decide (3 ≤ m.code.toNat)

/-- The states a transfer's data handlers work in (rules R117, R118). -/
def MState.moving (m : MState) : Bool := m == .starting || m == .transferring

/-- The number of a slave session state (rule R65). -/
def SState.code (s : SState) : BitVec 2 :=
  match s with
  | .idle => 0#2
  | .receiving => 1#2
  | .transmitting => 2#2
  | .aborted => 3#2

/-- The number of a speed class (rule R65). -/
def SpeedClass.code (c : SpeedClass) : BitVec 2 :=
  match c with
  | .standard => 0#2
  | .fast => 1#2
  | .fastModePlus => 2#2

/-- The number of a match mode (rule R65). -/
def MatchMode.code (m : MatchMode) : BitVec 2 :=
  match m with
  | .none => 0#2
  | .single => 1#2
  | .dual => 2#2
  | .range => 3#2

/-- The event code an output carries (rule R71); the result handed to a callback is no event and has no code. -/
def OutEvent.code (e : OutEvent) : Option (BitVec 8) :=
  match e with
  | .afterReceive .. => some 0x38#8
  | .beforeTransmit .. => some 0x39#8
  | .afterTransmit .. => some 0x3A#8
  | .mChannelReset => some 0x60#8
  | .mRecoveryPulses _ => some 0x61#8
  | .sChannelReset => some 0x62#8
  | .callbackResult _ => Option.none

/-- `speed_class(f)` (rule R91). -/
def speedClass (f : Nat) : SpeedClass :=
  if f ≤ fStandardMax then .standard
  else if f < fFastLimit then .fast
  else .fastModePlus

end Sys2Proof.Machine

namespace Sys2Proof

/-! ### Widths (rules R6, R58; log 12) -/

/-- `trunc_PTR_W(x)`: a pointer, an address of caller memory or a callback handle. -/
def Config.ptrBits (c : Config) (x : Nat) : Nat := x % 2 ^ c.ptrW

/-- `trunc_LEN_W(x)`: a length or a cursor. -/
def Config.lenBits (c : Config) (x : Nat) : Nat := x % 2 ^ c.lenW

/-- `trunc_FREQ_W(x)`: a frequency. -/
def Config.freqBits (c : Config) (x : Nat) : Nat := x % 2 ^ c.freqW

/-- Some byte of `[ptr, ptr + len)` lies in a device region (rule R45). -/
def Config.onDevice (c : Config) (ptr len : Nat) : Bool :=
  c.devices.any fun r => decide (max ptr r.base < min (ptr + len) (r.base + r.size))

end Sys2Proof

namespace Sys2Proof.Machine

/-! ### Buffers -/

/-- The buffer a selector names (rule R70). -/
def State.buf (s : State) (sel : BufSel) : ByteBuffer :=
  match sel with
  | .mBuf => s.master.buf
  | .sRxBuf => s.slave.rxbuf
  | .sTxBuf => s.slave.txbuf

/-- Writes the buffer a selector names. -/
def State.setBuf (s : State) (sel : BufSel) (b : ByteBuffer) : State :=
  match sel with
  | .mBuf => { s with master := { s.master with buf := b } }
  | .sRxBuf => { s with slave := { s.slave with rxbuf := b } }
  | .sTxBuf => { s with slave := { s.slave with txbuf := b } }

/-- The byte address the cursor points at, `trunc_PTR_W(ptr + next)` (rule R41). -/
def ByteBuffer.cursor (c : Config) (b : ByteBuffer) : Nat := c.ptrBits (b.ptr + b.next)

/-- A region that does not wrap past the top of the address space: `ptr + len <= 2^PTR_W` (rule R41, U8). -/
def regionFits (c : Config) (ptr len : Nat) : Bool := decide (ptr + len ≤ 2 ^ c.ptrW)

/-- `BB_HAS_DATA` (rule R83). -/
def ByteBuffer.hasData (b : ByteBuffer) : Bool := decide (b.next < b.len)

/-- `BB_NOT_STARTED_READING` (rule R84). -/
def ByteBuffer.notStartedReading (b : ByteBuffer) : Bool := b.next == 0

/-- `BB_NOT_STARTED_WRITING` (rule R85). -/
def ByteBuffer.notStartedWriting (b : ByteBuffer) : Bool := b.next == 0

/-- `BB_FINISHED_READING` (rule R86). -/
def ByteBuffer.finishedReading (b : ByteBuffer) : Bool := b.next == b.len

/-- `BB_FINISHED_WRITING` (rule R87). -/
def ByteBuffer.finishedWriting (b : ByteBuffer) : Bool := b.next == b.len

/-- `BB_CONFIGURED` (rule R88). -/
def ByteBuffer.configured (b : ByteBuffer) : Bool := decide (0 < b.len)

/-- The cursor, a `LEN_W`-bit register, moved on by one byte. -/
def ByteBuffer.advance (c : Config) (b : ByteBuffer) : ByteBuffer := { b with next := c.lenBits (b.next + 1) }

/-- The cursor rewind at the start of a slave frame (rules R151, R156). -/
def ByteBuffer.rewind (b : ByteBuffer) : ByteBuffer := { b with next := 0 }

/-! ### Pads (rules R23, R69) -/

/-- `pad.pad_ctrl <- value`. -/
def Pad.setCtrl (p : Pad) (value : Word) : Pad := { p with ctrl := value }

/-- `pad.pullup <- ARG0[1:0]`. -/
def Pad.setPullup (p : Pad) (arg0 : Word) : Pad := { p with pullup := arg0.extractLsb' 0 2 }

/-! ### Results (rule R60) -/

/-- A one-bit result, zero-extended. -/
def resBit (b : Bool) : Option Nat := some (if b then 1 else 0)

/-- An error code as a result, zero-extended. -/
def resError (e : ErrorCode) : Option Nat := some e.code.toNat

/-- A byte as a result, zero-extended. -/
def resByte (b : Byte) : Option Nat := some b.toNat

/-- A step's state with the step's result in `RES`. -/
def State.withRes (s : State) (r : Option Nat) : State := { s with res := r }

/-- The 7-bit matched address as the callbacks get it, zero-extended to 8 bits (rule R68). -/
def addrByte (a : Addr) : Byte := a.setWidth 8

/-- A receive entry of the slave, `sof ++ data` (rules R63, R177). -/
def rxEntry (sof : Bool) (b : Byte) : BitVec 9 := BitVec.ofBool sof ++ b

/-- `e[8]`, the start-of-frame mark. -/
def entrySof (e : BitVec 9) : Bool := e.getLsbD 8

/-- `e[7:0]`, the data byte. -/
def entryData (e : BitVec 9) : Byte := e.extractLsb' 0 8

/-! ### The match predicate -/

/-- `s_match(addr)` (rule R143). -/
def sMatch (v : Slave) (a : Addr) : Bool :=
  if v.listen = false then false
  else
    match v.mode with
    | .none => false
    | .single => a == v.match0
    | .dual => a == v.match0 || a == v.match1
    | .range => decide (v.match0.toNat ≤ a.toNat) && decide (a.toNat ≤ v.match1.toNat)

end Sys2Proof.Machine
end

