-- ==== Sys2Proof/Machine/Flags.lean ====
section
/-! DEFINITION. Status words, interrupt enables and the two vectors (10_state.md rules R18, R22, R31, R34; 30_encoding.md rules R66,
R67; 60_exceptions.md rules R203, R204), and the clearing of flags (41_master_commands.md rule R104). -/

namespace Sys2Proof.Machine

/-! ### The master status word -/

/-- The bits of `M_SR` (rules R22, R66), which a pass takes a snapshot of at entry (rule R110). -/
structure MStatus where
  tdr : Bool
  rda : Bool
  stop : Bool
  nak : Bool
  arb : Bool
  ferr : Bool
  plt : Bool
  busy : Bool
  held : Bool
  deriving DecidableEq, Repr

/-- `M_TDR`: the transmit FIFO's count is at or below the watermark (rule R22). -/
def mTdr (c : Config) (m : Master) : Bool := decide (m.txq.length ≤ c.mTxWatermark)

/-- `M_RDA`: the receive FIFO's count is above the watermark (rule R22). -/
def mRda (c : Config) (m : Master) : Bool := decide (c.mRxWatermark < m.rxq.length)

/-- `M_SR`, assembled from the FIFOs, flags and levels (rule R22). -/
def mStatus (c : Config) (m : Master) : MStatus :=
  { tdr := mTdr c m, rda := mRda c m, stop := m.stopFlag, nak := m.nakFlag, arb := m.arbFlag, ferr := m.ferrFlag,
    plt := m.pltFlag, busy := m.busy, held := m.held }

/-- `M_SR` as its 9-bit word (rule R66). -/
def MStatus.word (r : MStatus) : BitVec 9 :=
  BitVec.ofBool r.held ++ BitVec.ofBool r.busy ++ BitVec.ofBool r.plt ++ BitVec.ofBool r.ferr ++ BitVec.ofBool r.arb
    ++ BitVec.ofBool r.nak ++ BitVec.ofBool r.stop ++ BitVec.ofBool r.rda ++ BitVec.ofBool r.tdr

/-- Some error flag is in the snapshot (rule R110, group 1). -/
def MStatus.anyError (r : MStatus) : Bool := r.nak || r.arb || r.ferr || r.plt

/-! ### The master enables -/

/-- What `M_BEGIN` writes into `M_IER`: `RDIE`, `SDIE`, `NDIE`, `ALIE`, `PLTIE` (rules R66, R90). -/
def mIerBegin : BitVec 7 := 0x5E#7

/-- `M_IER.TDIE` (bit 0). -/
def mTdie (m : Master) : Bool := m.ier.getLsbD 0

/-- `M_IER.TDIE <- 1`. -/
def setTdie (m : Master) : Master := { m with ier := m.ier ||| 0x01#7 }

/-- `M_IER.TDIE <- 0`. -/
def clearTdie (m : Master) : Master := { m with ier := m.ier &&& 0x7E#7 }

/-- `m_irq` (rule R203): the master vector is pending. -/
def mIrq (s : State) : Bool :=
  s.master.irqEn && (((mStatus s.cfg s.master).word.extractLsb' 0 7 &&& s.master.ier) != 0#7)

/-! ### The master flags -/

/-- `clear_flags()` (rule R104). -/
def clearFlags (m : Master) : Master :=
  { m with stopFlag := false, nakFlag := false, arbFlag := false, ferrFlag := false, pltFlag := false }

/-- `M_<name> <- 1` (rule R173). -/
def setMFlag (f : MFlag) (m : Master) : Master :=
  match f with
  | .stop => { m with stopFlag := true }
  | .nak => { m with nakFlag := true }
  | .arb => { m with arbFlag := true }
  | .ferr => { m with ferrFlag := true }
  | .plt => { m with pltFlag := true }

/-- `M_<name> <- value` (rule R174). -/
def setMLevel (l : MLevel) (v : Bool) (m : Master) : Master :=
  match l with
  | .busy => { m with busy := v }
  | .held => { m with held := v }
  | .pltc => { m with pltc := v }

/-! ### The slave status word, enables and flags -/

/-- The bits of `S_SR` (rules R34, R67). -/
structure SStatus where
  tdr : Bool
  rda : Bool
  am : Bool
  stop : Bool
  rs : Bool
  berr : Bool
  deriving DecidableEq, Repr

/-- `S_TDR`: a transmit request and an empty data register (rule R34). -/
def sTdr (v : Slave) : Bool := v.txreq && v.txq.isEmpty

/-- `S_RDA`: the receive register is occupied (rule R34). -/
def sRda (v : Slave) : Bool := !v.rxq.isEmpty

/-- `S_SR` (rule R34). -/
def sStatus (v : Slave) : SStatus :=
  { tdr := sTdr v, rda := sRda v, am := v.amFlag, stop := v.stopFlag, rs := v.rsFlag, berr := v.berrFlag }

/-- `S_SR` as its 6-bit word (rule R67). -/
def SStatus.word (r : SStatus) : BitVec 6 :=
  BitVec.ofBool r.berr ++ BitVec.ofBool r.rs ++ BitVec.ofBool r.stop ++ BitVec.ofBool r.am ++ BitVec.ofBool r.rda
    ++ BitVec.ofBool r.tdr

/-- What the listen commands write into `S_IER` (rules R67, R130). -/
def sIerListen : BitVec 6 := 0x3F#6

/-- `s_irq` (rule R204): the slave vector is pending. -/
def sIrq (s : State) : Bool := s.slave.irqEn && (((sStatus s.slave).word &&& s.slave.ier) != 0#6)

end Sys2Proof.Machine
end

