-- ==== Sys2Proof/Machine/Ops.lean ====
section
/-! DEFINITION. The named operations the instructions share: caller memory (20_memory.md), the ByteBuffer (40_bytebuffer.md),
recording an error (60_exceptions.md rule R200), output events and upcalls (44_slave_sequencer.md rule R158), the master's
procedures (41_master_commands.md) and `listen_common` (43_slave_commands.md rule R130). -/

namespace Sys2Proof.Machine

/-- The outcome of an operation that hands on a value. -/
abbrev Run (α : Type) := Host.Outcome α Fault Refusal

/-- One operation after another: the first fault or refusal ends the step. -/
def andThen {α β : Type} (x : Run α) (f : α → Run β) : Run β :=
  match x with
  | .next a => f a
  | .fault r => .fault r
  | .refused r => .refused r

/-! ### Caller memory (rules R41, R42) -/

/-- The byte listed at an address, if any: what an unlisted address reads as is no value (log 4). -/
def memLookup (m : Mem) (a : Nat) : Option Byte :=
  match m with
  | [] => none
  | c :: rest => if c.1 = a then some c.2 else memLookup rest a

/-- Stores a byte, keeping the list's addresses strictly rising. -/
def memStore (m : Mem) (a : Nat) (b : Byte) : Mem :=
  match m with
  | [] => [(a, b)]
  | c :: rest => if a < c.1 then (a, b) :: c :: rest else if c.1 = a then (a, b) :: rest else c :: memStore rest a b

/-- The canonical form of caller memory: strictly rising addresses of `w` = `PTR_W` bits. -/
def memWf (w : Nat) (m : Mem) : Bool :=
  match m with
  | [] => true
  | c :: rest =>
    decide (c.1 < 2 ^ w) && (match rest with | [] => true | d :: _ => decide (c.1 < d.1)) && memWf w rest

/-- `MemRead(addr, 1)` (rule R41): the byte stored at `addr`; the free value of the address where nothing was written. -/
def memRead (m : Mem) (addr : Nat) : Byte :=
  match memLookup m addr with
  | some b => b
  | none => Config.unwrittenByte addr

/-- `MemWrite(addr, 1, v)` (rule R42). -/
def memWrite (m : Mem) (addr : Nat) (v : Byte) : Mem := memStore m addr v

/-- `MemWrite` on the state. -/
def State.memWrite (s : State) (addr : Nat) (v : Byte) : State := { s with mem := Machine.memWrite s.mem addr v }

/-! ### ByteBuffer (rules R80 to R82) -/

/-- `BB_INIT(B, pointer, length)` (rule R80), the operands narrowed to their widths; a region that wraps past the top of the
address space (rule R41, U8) or has a byte in a device region (rule R45) is refused (log 10, log 15). -/
def bbInit (sel : BufSel) (ptr len : Nat) (s : State) : Run State :=
  let p := s.cfg.ptrBits ptr
  let n := s.cfg.lenBits len
  if regionFits s.cfg p n = false then .refused .regionWraps
  else if s.cfg.onDevice p n then .refused .deviceRegion
  else .next (s.setBuf sel { ptr := p, len := n, next := 0 })

/-- `BB_WRITE(B, byte)` (rule R81): the result and the state after. -/
def bbWrite (sel : BufSel) (b : Byte) (s : State) : Bool × State :=
  if (s.buf sel).next = (s.buf sel).len then (false, s)
  else (true, (s.memWrite ((s.buf sel).cursor s.cfg) b).setBuf sel ((s.buf sel).advance s.cfg))

/-- `BB_READ(B)` (rule R82): the byte at the cursor and the state after; past the end, fault U1. -/
def bbRead (sel : BufSel) (s : State) : Run (Byte × State) :=
  if (s.buf sel).hasData then .next (memRead s.mem ((s.buf sel).cursor s.cfg), s.setBuf sel ((s.buf sel).advance s.cfg))
  else .fault .readPastEnd

/-! ### Recording an error (rule R200)

The counterpart of taking an exception: one register write, and the rule goes on with its next line. Nothing is saved, so
nothing is restored when a pass ends (rule R209); the snapshot `mStatus` or `sStatus` is all that pass entry does. -/

/-- `raise e` in a master rule. -/
def mRaise (e : ErrorCode) (s : State) : State := { s with master := { s.master with err := e } }

/-- `raise e` in a slave rule. -/
def sRaise (e : ErrorCode) (s : State) : State := { s with slave := { s.slave with err := e } }

/-! ### Output events (rules R8, R175, R182) -/

/-- `emit`: an output event to the environment. -/
def emit (e : OutEvent) (s : State) : State := { s with events := s.events ++ [e] }

/-! ### The master's procedures -/

/-- The master engine changed by a function on its registers. -/
def State.mapMaster (s : State) (f : Master → Master) : State := { s with master := f s.master }

/-- The slave engine changed by a function on its registers. -/
def State.mapSlave (s : State) (f : Slave → Slave) : State := { s with slave := f s.slave }

/-- `finished()` (rule R98): a finished state and, in the refined variant, `M_BUSY` = 0. -/
def finished (c : Config) (m : Master) : Bool := m.state.finished && (!c.finishedChecksBusy || !m.busy)

/-- `tx_push(w)` (rule R103); a full FIFO is fault U4. -/
def txPush (w : BitVec 11) (s : State) : Run State :=
  if s.cfg.mTxDepth ≤ s.master.txq.length then .fault .txFifoFull
  else .next (s.mapMaster fun m => { m with txq := m.txq ++ [w] })

/-- Both master FIFOs emptied. -/
def flushMaster (m : Master) : Master := { m with txq := [], rxq := [] }

/-- `channel_reset()` (rule R105). -/
def channelReset (s : State) : State :=
  emit .mChannelReset (s.mapMaster fun m => clearFlags { flushMaster m with busy := false, held := false })

/-- `abort()` (rule R94). -/
def abort (s : State) : Run State :=
  let s1 := s.mapMaster fun m => flushMaster (clearTdie m)
  if s1.master.held then
    andThen (txPush txwStopWord s1) fun s2 => .next (s2.mapMaster fun m => { m with state := .stopping })
  else .next (s1.mapMaster fun m => { m with state := .idle })

/-- `start(addr, dir)` (rule R93): whether the transaction was started, and the state after. -/
def start (addr : Addr) (dir : Dir) (s : State) : Run (Bool × State) :=
  if finished s.cfg s.master = false then
    andThen (abort s) fun s1 => .next (false, mRaise .masterNotReady s1)
  else
    let s1 := s.mapMaster fun m => { m with dir := dir, err := .ok, state := .starting }
    if s1.master.txq.isEmpty && s1.master.rxq.isEmpty then
      andThen (txPush (txwStartWord addr dir) (s1.mapMaster clearFlags)) fun s2 => .next (true, s2)
    else
      andThen (abort (mRaise .masterFifosNotEmpty s1)) fun s2 => .next (false, s2)

/-- The body of `M_BEGIN frequency` (rule R90), which bus recovery runs too (rule R116). -/
def beginChannel (frequency : Nat) (s : State) : State :=
  let s1 := s.mapMaster fun m => { m with freq := frequency, cls := speedClass frequency }
  (channelReset s1).mapMaster fun m =>
    { m with padApplied := m.padPending, ier := mIerBegin, en := true, irqEn := true, state := .idle }

/-- `recover()` (rule R116): the peripheral disabled, the clock pulses, and `M_BEGIN` with the stored frequency. -/
def recover (s : State) : State :=
  let s1 := s.mapMaster fun m => { m with en := false }
  let s2 := emit (.mRecoveryPulses s1.cfg.recoveryPulses) s1
  beginChannel s2.master.freq s2

/-! ### The slave's procedures -/

/-- The body of `S_STOP_LISTENING` (rule R134). -/
def stopListening (v : Slave) : Slave :=
  { v with ier := 0#6, irqEn := false, listen := false, state := .idle, trail := false }

/-- `listen_common(mode, m0, m1)` (rule R130). -/
def listenCommon (mode : MatchMode) (m0 m1 : Addr) (s : State) : State :=
  emit .sChannelReset (s.mapSlave fun v =>
    { stopListening v with
      padApplied := v.padPending, txq := [], rxq := [], amFlag := false, stopFlag := false, rsFlag := false,
      berrFlag := false, txreq := false, mode := mode, match0 := m0, match1 := m1, ier := sIerListen, listen := true,
      irqEn := true, err := .ok })

/-! ### Upcalls (rule R158) -/

/-- A step of the slave sequencer, of an upcall, or of the slave side of the line unit: there is none while a callback holds the
slave pass (rule R243, U11; log 18). -/
def slaveStep (r : Run State) (s : State) : Run State := if s.slave.hung then .refused .slaveHung else r

/-- What comes next in a slave pass, unless a callback holds it. -/
def andLive (x : Run State) (f : State → Run State) : Run State :=
  andThen x fun s => if s.slave.hung then .next s else f s

/-- The commands permitted from inside an upcall, executed immediately (rule R158); any other is refused (U7). A result goes
to the callback. -/
def permittedCommand (i : Instr) (s : State) : Run State :=
  match i with
  | .sSetRxBuffer p n => bbInit .sRxBuf p n s
  | .sSetTxBuffer p n => bbInit .sTxBuf p n s
  | .sError => .next (emit (.callbackResult s.slave.err.code.toNat) s)
  | .sHasError => .next (emit (.callbackResult (if s.slave.err = .ok then 0 else 1)) s)
  | _ => .refused .notPermittedInUpcall

/-- A host access to the byte of caller memory at an address of `PTR_W` bits; a device region is no caller memory (rule R45,
log 15). -/
def hostAccess (addr : Nat) (f : Nat → State) (s : State) : Run State :=
  if s.cfg.onDevice (s.cfg.ptrBits addr) 1 then .refused .deviceRegion else .next (f (s.cfg.ptrBits addr))

/-- One thing a callback does. -/
def runAct (a : HostAct) (s : State) : Run State :=
  match a with
  | .command c a0 a1 =>
    match decode { fmt := .cmd, word := c, arg0 := a0, arg1 := a1 } with
    | .ok i => permittedCommand i s
    | .error e => .refused (.notAccepted e)
  | .memRead addr => hostAccess addr (fun a => emit (.callbackResult (memRead s.mem a).toNat) s) s
  | .memWrite addr b => hostAccess addr (fun a => s.memWrite a b) s

/-- What a callback does, in order. Where one thing it does is refused (U7, U8, U10: "refuse"), the model refuses the whole
pass or upcall that runs the callback (DESIGN CHOICE, log 20). -/
def runActs (acts : List HostAct) (s : State) : Run State :=
  match acts with
  | [] => .next s
  | a :: rest => andThen (runAct a s) fun s1 => runActs rest s1

/-- A callback that has run: one that does not return holds the slave pass for ever (rule R243, U11; log 18). -/
def afterCallback (returns : Bool) (s : State) : State :=
  if returns then s else s.mapSlave fun v => { v with hung := true }

/-- `upcall name(args)` (rule R158): with a handle other than 0, deliver the event and let the callback run to completion. -/
def upcall (h : Nat) (e : OutEvent) (s : State) : Run State :=
  if h = 0 then .next s
  else
    match s.callbacks with
    | [] => .next (emit e s)
    | c :: rest =>
      andThen (runActs c.acts { emit e s with callbacks := rest }) fun s1 => .next (afterCallback c.returns s1)

/-- `upcall after_receive(s_rxbuf.next, s_addr)` (rules R68, R153). -/
def afterReceive (s : State) : Run State :=
  upcall s.slave.cbAfterRx (.afterReceive s.slave.cbAfterRx s.slave.rxbuf.next (addrByte s.slave.addr)) s

/-- `upcall before_transmit(s_addr)` (rules R68, R156). -/
def beforeTransmit (s : State) : Run State :=
  upcall s.slave.cbBeforeTx (.beforeTransmit s.slave.cbBeforeTx (addrByte s.slave.addr)) s

/-- `upcall after_transmit(s_addr)` (rules R68, R153). -/
def afterTransmit (s : State) : Run State :=
  upcall s.slave.cbAfterTx (.afterTransmit s.slave.cbAfterTx (addrByte s.slave.addr)) s

end Sys2Proof.Machine
end

