-- ==== Sys2Proof/Machine/ByteBufferOps.lean ====
section
/-! DEFINITION. The nine ByteBuffer micro-operations as steps of their own (40_bytebuffer.md), on the buffer their selector names
(30_encoding.md rule R70). Inside the engines' rules the same operations of Machine/Ops.lean and Machine/Operands.lean are used
(log 14). -/

namespace Sys2Proof.Machine

/-- `BB_INIT(B, pointer, length)` (R80). -/
def execBbInit (sel : BufSel) (ptr len : Nat) (s : State) : Run State := bbInit sel ptr len (s.withRes none)

/-- `BB_WRITE(B, byte)` (R81). -/
def execBbWrite (sel : BufSel) (b : Byte) (s : State) : Run State :=
  .next ((bbWrite sel b s).2.withRes (resBit (bbWrite sel b s).1))

/-- `BB_READ(B)` (R82). -/
def execBbRead (sel : BufSel) (s : State) : Run State :=
  andThen (bbRead sel s) fun r => .next (r.2.withRes (resByte r.1))

/-- `BB_HAS_DATA(B)` (R83). -/
def execBbHasData (sel : BufSel) (s : State) : Run State := .next (s.withRes (resBit (s.buf sel).hasData))

/-- `BB_NOT_STARTED_READING(B)` (R84). -/
def execBbNotStartedReading (sel : BufSel) (s : State) : Run State :=
  .next (s.withRes (resBit (s.buf sel).notStartedReading))

/-- `BB_NOT_STARTED_WRITING(B)` (R85). -/
def execBbNotStartedWriting (sel : BufSel) (s : State) : Run State :=
  .next (s.withRes (resBit (s.buf sel).notStartedWriting))

/-- `BB_FINISHED_READING(B)` (R86). -/
def execBbFinishedReading (sel : BufSel) (s : State) : Run State :=
  .next (s.withRes (resBit (s.buf sel).finishedReading))

/-- `BB_FINISHED_WRITING(B)` (R87). -/
def execBbFinishedWriting (sel : BufSel) (s : State) : Run State :=
  .next (s.withRes (resBit (s.buf sel).finishedWriting))

/-- `BB_CONFIGURED(B)` (R88). -/
def execBbConfigured (sel : BufSel) (s : State) : Run State := .next (s.withRes (resBit (s.buf sel).configured))

end Sys2Proof.Machine
end

