-- ==== Sys2Proof/Machine/LineUnit.lean ====
section
/-! DEFINITION. The ten moves of the line unit with their guards (45_line_unit.md), and the four transmit command words (rule R62),
which the line unit executes when it takes them (rule R171). A move whose guard is false is not enabled and is refused, and
so is a slave-side move while a callback holds the slave pass (R243). -/

namespace Sys2Proof.Machine

/-- A guarded move (rule R170: the guards are hard). -/
def guarded (g : Bool) (t : State) : Run State := if g then .next t else .refused .moveNotEnabled

/-- What taking a transmit word does to the flags and levels, by `w[10:8]` (rule R171). -/
def takeEffect (w : BitVec 11) (m : Master) : Master :=
  if txwCmd w = 0b100#3 then { m with held := true, busy := true }
  else if txwCmd w = 0b010#3 then { m with held := false, stopFlag := true }
  else m

/-- The command values rule R62 reserves. -/
def reservedCmd (w : BitVec 11) : Bool :=
  txwCmd w != 0b000#3 && txwCmd w != 0b001#3 && txwCmd w != 0b010#3 && txwCmd w != 0b100#3

/-- The line unit takes the word `w`, the head of the FIFO whose other words are `rest`, and the move returns it. -/
def takeWord (w : BitVec 11) (rest : List (BitVec 11)) (s : State) : State :=
  (s.mapMaster fun m => takeEffect w { m with txq := rest }).withRes (some w.toNat)

/-- `LU_M_TAKE` (R171); a reserved word is fault U6 (R62). -/
def execLuMTake (s : State) : Run State :=
  match s.master.txq with
  | [] => .refused .moveNotEnabled
  | w :: rest =>
    if s.master.en = false then .refused .moveNotEnabled
    else if reservedCmd w then .fault .reservedTxWord
    else .next (takeWord w rest s)

/-- The line unit takes a given word: enabled where `LU_M_TAKE` is and that word is the head of the FIFO (log 13). -/
def takeThis (w : BitVec 11) (s : State) : Run State :=
  match s.master.txq with
  | [] => .refused .moveNotEnabled
  | v :: rest => guarded (s.master.en && v == w) (takeWord w rest s)

/-- `TRANSMIT(data)` (R62, R171). -/
def execTxwTransmit (data : Byte) (s : State) : Run State := takeThis (txwTransmitWord data) s

/-- `RECEIVE(n)` (R62, R171). -/
def execTxwReceive (count : Nat) (s : State) : Run State := takeThis (txwReceiveWord count) s

/-- `STOP` (R62, R171). -/
def execTxwStop (s : State) : Run State := takeThis txwStopWord s

/-- `START(addr, dir)` (R62, R171). -/
def execTxwStart (addr : Addr) (dir : Dir) (s : State) : Run State := takeThis (txwStartWord addr dir) s

/-- `LU_M_RX byte` (R172). -/
def execLuMRx (b : Byte) (s : State) : Run State :=
  guarded (s.master.en && decide (s.master.rxq.length < s.cfg.mRxDepth))
    ((s.mapMaster fun m => { m with rxq := m.rxq ++ [b] }).withRes none)

/-- `LU_M_FLAG name` (R173). -/
def execLuMFlag (f : MFlag) (s : State) : Run State :=
  guarded s.master.en ((s.mapMaster (setMFlag f)).withRes none)

/-- `LU_M_LEVEL name, value` (R174): `PLTC` may change at any time. -/
def execLuMLevel (l : MLevel) (v : Bool) (s : State) : Run State :=
  guarded (s.master.en || l == .pltc) ((s.mapMaster (setMLevel l v)).withRes none)

/-- `LU_S_ADDR addr, rw` (R176). -/
def execLuSAddr (a : Addr) (rw : Dir) (s : State) : Run State :=
  slaveStep (guarded (sMatch s.slave a)
    ((s.mapSlave fun v => { v with amFlag := true, asr := a, txreq := dirBit rw }).withRes none)) s

/-- `LU_S_RX byte, sof` (R177). -/
def execLuSRx (b : Byte) (sof : Bool) (s : State) : Run State :=
  slaveStep (guarded s.slave.rxq.isEmpty ((s.mapSlave fun v => { v with rxq := v.rxq ++ [rxEntry sof b] }).withRes none)) s

/-- `LU_S_TAKE` (R178): the move returns the byte taken. -/
def execLuSTake (s : State) : Run State :=
  match s.slave.txq with
  | [b] => slaveStep (.next ((s.mapSlave fun v => { v with txq := [] }).withRes (resByte b))) s
  | _ => slaveStep (.refused .moveNotEnabled) s

/-- `LU_S_RS` (R179). -/
def execLuSRs (s : State) : Run State :=
  slaveStep (.next ((s.mapSlave fun v => { v with rsFlag := true, txreq := false, txq := [] }).withRes none)) s

/-- `LU_S_STOP` (R180). -/
def execLuSStop (s : State) : Run State :=
  slaveStep (.next ((s.mapSlave fun v => { v with stopFlag := true, txreq := false, txq := [] }).withRes none)) s

/-- `LU_S_BERR` (R181). -/
def execLuSBerr (s : State) : Run State :=
  slaveStep (.next ((s.mapSlave fun v => { v with berrFlag := true }).withRes none)) s

end Sys2Proof.Machine
end

