-- ==== Sys2Proof/Machine/MasterCommands.lean ====
section
/-! DEFINITION. The ten host commands of the master engine (41_master_commands.md). -/

namespace Sys2Proof.Machine

/-- `M_BEGIN frequency` (R90). -/
def execMBegin (frequency : Nat) (s : State) : Run State :=
  .next ((beginChannel (s.cfg.freqBits frequency) s).withRes none)

/-- `M_END` (R92). -/
def execMEnd (s : State) : Run State :=
  .next ((s.mapMaster fun m => { m with en := false, irqEn := false, state := .idle }).withRes none)

/-- The probe of rules R95 and R96: the buffer becomes `(buffer, 0, 0)` and the STOP word follows the START word. -/
def probe (ptr : Nat) (s : State) : Run State := andThen (bbInit .mBuf ptr 0 s) fun s1 => txPush txwStopWord s1

/-- `M_WRITE_ASYNC` after a successful `start` (R95), the length within its width. -/
def armWrite (ptr len : Nat) (sendStop : Bool) (s : State) : Run State :=
  if len = 0 then probe ptr s
  else andThen (bbInit .mBuf ptr len s) fun s1 => .next (s1.mapMaster fun m => setTdie { m with sendStop := sendStop })

/-- `M_WRITE_ASYNC address, buffer, length, send_stop` (R95). -/
def execMWriteAsync (a : Addr) (ptr len : Nat) (sendStop : Bool) (s : State) : Run State :=
  if s.master.en = false then .fault .notBegun
  else
    andThen (start a .write (s.withRes none)) fun r =>
      if r.1 then armWrite ptr (s.cfg.lenBits len) sendStop r.2 else .next r.2

/-- `M_READ_ASYNC` after a successful `start` (R96), the length within its width. -/
def armRead (ptr len : Nat) (sendStop : Bool) (s : State) : Run State :=
  if len = 0 then probe ptr s
  else
    andThen (bbInit .mBuf ptr len s) fun s1 =>
      txPush (txwReceiveWord len) (s1.mapMaster fun m => { m with sendStop := sendStop })

/-- `M_READ_ASYNC address, buffer, length, send_stop` (R96). -/
def execMReadAsync (a : Addr) (ptr len : Nat) (sendStop : Bool) (s : State) : Run State :=
  if s.master.en = false then .fault .notBegun
  else if maxMasterRead < s.cfg.lenBits len then .next (mRaise .invalidRequest (s.withRes none))
  else
    andThen (start a .read (s.withRes none)) fun r =>
      if r.1 then armRead ptr (s.cfg.lenBits len) sendStop r.2 else .next r.2

/-- `M_FINISHED` (R98). -/
def execMFinished (s : State) : Run State := .next (s.withRes (resBit (finished s.cfg s.master)))

/-- `M_GET_BYTES_TRANSFERRED` (R99): the master buffer's cursor. -/
def execMGetBytesTransferred (s : State) : Run State := .next (s.withRes (some s.master.buf.next))

/-- `M_ERROR` (R100). -/
def execMError (s : State) : Run State := .next (s.withRes (resError s.master.err))

/-- `M_HAS_ERROR` (R101). -/
def execMHasError (s : State) : Run State := .next (s.withRes (resBit (s.master.err != .ok)))

/-- `M_SET_PAD_CONTROL value` (R102). -/
def execMSetPadControl (value : Word) (s : State) : Run State :=
  .next ((s.mapMaster fun m => { m with padPending := m.padPending.setCtrl value }).withRes none)

/-- `M_SET_PULLUPS selection` (R106). -/
def execMSetPullups (arg0 : Word) (s : State) : Run State :=
  .next ((s.mapMaster fun m => { m with padPending := m.padPending.setPullup arg0 }).withRes none)

end Sys2Proof.Machine
end

