-- ==== Sys2Proof/Machine/MasterPass.lean ====
section
/-! DEFINITION. The master interrupt-service pass and its handlers (42_master_sequencer.md). -/

namespace Sys2Proof.Machine

/-- Runs a handler when its flag is in the snapshot. -/
def whenFlag (b : Bool) (h : State → Run State) (s : State) : Run State := if b then h s else .next s

/-- `handle_nak()` (R111). -/
def handleNak (s : State) : State :=
  mRaise (if s.master.state = .starting then .addressNak else .dataNak)
    (s.mapMaster fun m => { m with nakFlag := false })

/-- `handle_arb()` (R112). -/
def handleArb (s : State) : State := mRaise .arbitrationLost (s.mapMaster fun m => { m with arbFlag := false })

/-- `handle_ferr()` (R113): the weakest of the four. -/
def handleFerr (s : State) : State :=
  let s1 := s.mapMaster fun m => { m with ferrFlag := false }
  if s1.master.err = .ok then mRaise .masterFifoError s1 else s1

/-- `handle_plt()` (R114). -/
def handlePlt (s : State) : State := mRaise .pinLowTimeout (s.mapMaster fun m => { m with pltFlag := false })

/-- The four error handlers in their order (R110), each where its flag is in the snapshot. -/
def recordErrors (r : MStatus) (s : State) : State :=
  let s1 := if r.nak then handleNak s else s
  let s2 := if r.arb then handleArb s1 else s1
  let s3 := if r.ferr then handleFerr s2 else s2
  if r.plt then handlePlt s3 else s3

/-- Group 1 of the pass (R110, R116): record the errors, abort, and recover the bus from a persistent pin-low timeout. -/
def handleErrors (r : MStatus) (s : State) : Run State :=
  andThen (abort (recordErrors r s)) fun s1 => .next (if r.plt && s1.master.pltc then recover s1 else s1)

/-- The drain loop of R117: every entry of `m_rxq` into the buffer, a byte that does not fit dropped with
`buffer_overflow`. -/
def drainRx (q : List Byte) (s : State) : State :=
  match q with
  | [] => s
  | b :: rest =>
    let r := bbWrite .mBuf b s
    drainRx rest (if r.1 then r.2 else mRaise .bufferOverflow r.2)

/-- The end of a transfer (R117, R118): "either issues STOP (if requested) moving to `stopping`, or marks
`transfer_complete`". -/
def completeTransfer (s : State) : Run State :=
  if s.master.sendStop then
    andThen (txPush txwStopWord s) fun s1 => .next (s1.mapMaster fun m => { m with state := .stopping })
  else .next (s.mapMaster fun m => { m with state := .transferComplete })

/-- The first data-service event of a transaction acknowledges its address (R121). -/
def enterTransferring (s : State) : State :=
  s.mapMaster fun m => { m with state := if m.state = .starting then .transferring else m.state }

/-- A read in progress that can take data (R117). -/
def readInProgress (m : Master) : Bool := m.dir == .read && m.state.moving && m.buf.configured

/-- `handle_rda()` (R117). -/
def handleRda (s : State) : Run State :=
  if readInProgress s.master then
    let s1 := enterTransferring s
    let s2 := drainRx s1.master.rxq (s1.mapMaster fun m => { m with rxq := [] })
    if s2.master.buf.finishedWriting then completeTransfer s2 else .next s2
  else .next (s.mapMaster fun m => { m with rxq := [] })

/-- The fill loop of R118: bytes of the buffer into the transmit FIFO while there is data and space. -/
def fillTx (space : Nat) (s : State) : Run State :=
  match space with
  | 0 => .next s
  | k + 1 =>
    if s.master.buf.hasData then
      andThen (bbRead .mBuf s) fun r => andThen (txPush (txwTransmitWord r.1) r.2) fun s1 => fillTx k s1
    else .next s

/-- A write in progress whose transmit interrupt is enabled (R118), tested on the live state. -/
def writeInProgress (m : Master) : Bool := mTdie m && m.dir == .write && m.state.moving

/-- `handle_tdr()` (R118). -/
def handleTdr (s : State) : Run State :=
  if writeInProgress s.master then
    let s1 := enterTransferring s
    andThen (fillTx (s1.cfg.mTxDepth - s1.master.txq.length) s1) fun s2 =>
      if s2.master.buf.finishedReading && s2.master.txq.isEmpty then completeTransfer (s2.mapMaster clearTdie)
      else .next s2
  else .next s

/-- `handle_stop()` (R119). -/
def handleStop (s : State) : Run State :=
  .next (s.mapMaster fun m => { clearTdie m with stopFlag := false, state := .stopped })

/-- The handler groups in their fixed order on the snapshot `r` (R110). -/
def masterPass (r : MStatus) (s : State) : Run State :=
  andThen (whenFlag r.anyError (handleErrors r) s) fun s1 =>
    andThen (whenFlag r.rda handleRda s1) fun s2 =>
      andThen (whenFlag r.tdr handleTdr s2) fun s3 => whenFlag r.stop handleStop s3

/-- `M_ISR` (R110): enabled while the master vector is pending (R203, R205); the snapshot is taken at entry. -/
def execMIsr (s : State) : Run State :=
  if mIrq s then masterPass (mStatus s.cfg s.master) (s.withRes none) else .refused .vectorNotPending

end Sys2Proof.Machine
end

