-- ==== Sys2Proof/Machine/Outputs.lean ====
section
/-! DEFINITION. The upcalls (44_slave_sequencer.md rule R158) and the output events (45_line_unit.md rules R175, R182) as steps of
their own: what the block's own rules do when they make an upcall or emit an event (log 14). -/

namespace Sys2Proof.Machine

/-- `UP_AFTER_RECEIVE` (R158) with the arguments of R153. -/
def execUpAfterReceive (s : State) : Run State := slaveStep (afterReceive (s.withRes none)) s

/-- `UP_BEFORE_TRANSMIT` (R158) with the argument of R156. -/
def execUpBeforeTransmit (s : State) : Run State :=
  slaveStep (beforeTransmit (s.withRes none)) s

/-- `UP_AFTER_TRANSMIT` (R158) with the argument of R153. -/
def execUpAfterTransmit (s : State) : Run State := slaveStep (afterTransmit (s.withRes none)) s

/-- `M_CHANNEL_RESET`: the channel reset of R105, which is what the block does when it emits this event: the FIFOs emptied, the
flags and levels cleared, the event emitted (R175: no change "beyond what the emitting rule says"). -/
def execMChannelReset (s : State) : Run State := .next (channelReset (s.withRes none))

/-- `M_RECOVERY_PULSES(RECOVERY_PULSES)`: the event of R116, with the number of pulses; what R116 does around it is
`recover`. -/
def execMRecoveryPulses (s : State) : Run State := .next (emit (.mRecoveryPulses s.cfg.recoveryPulses) (s.withRes none))

/-- `S_CHANNEL_RESET`: the event of R130; what R130 does before it is `listenCommon`. -/
def execSChannelReset (s : State) : Run State := .next (emit .sChannelReset (s.withRes none))

end Sys2Proof.Machine
end

