-- ==== Sys2Proof/Machine/SlaveCommands.lean ====
section
/-! DEFINITION. The thirteen host commands of the slave engine (43_slave_commands.md). -/

namespace Sys2Proof.Machine

/-- `S_LISTEN address` (R131): match one address. -/
def execSListen (a : Addr) (s : State) : Run State := .next ((listenCommon .single a a s).withRes none)

/-- `S_LISTEN2 address1, address2` (R132): match exactly two addresses. -/
def execSListen2 (a b : Addr) (s : State) : Run State := .next ((listenCommon .dual a b s).withRes none)

/-- `S_LISTEN_RANGE first, last` (R133): match an inclusive contiguous range. -/
def execSListenRange (first last : Addr) (s : State) : Run State :=
  .next ((listenCommon .range first last s).withRes none)

/-- `S_STOP_LISTENING` (R134). -/
def execSStopListening (s : State) : Run State := .next ((s.mapSlave stopListening).withRes none)

/-- `S_SET_RX_BUFFER buffer, size` (R135). -/
def execSSetRxBuffer (ptr size : Nat) (s : State) : Run State := bbInit .sRxBuf ptr size (s.withRes none)

/-- `S_SET_TX_BUFFER buffer, size` (R136). -/
def execSSetTxBuffer (ptr size : Nat) (s : State) : Run State := bbInit .sTxBuf ptr size (s.withRes none)

/-- `S_AFTER_RECEIVE handle` (R137). -/
def execSAfterReceive (h : Nat) (s : State) : Run State :=
  .next ((s.mapSlave fun v => { v with cbAfterRx := s.cfg.ptrBits h }).withRes none)

/-- `S_BEFORE_TRANSMIT handle` (R138). -/
def execSBeforeTransmit (h : Nat) (s : State) : Run State :=
  .next ((s.mapSlave fun v => { v with cbBeforeTx := s.cfg.ptrBits h }).withRes none)

/-- `S_AFTER_TRANSMIT handle` (R139). -/
def execSAfterTransmit (h : Nat) (s : State) : Run State :=
  .next ((s.mapSlave fun v => { v with cbAfterTx := s.cfg.ptrBits h }).withRes none)

/-- `S_ERROR` (R140). -/
def execSError (s : State) : Run State := .next (s.withRes (resError s.slave.err))

/-- `S_HAS_ERROR` (R141). -/
def execSHasError (s : State) : Run State := .next (s.withRes (resBit (s.slave.err != .ok)))

/-- `S_SET_PAD_CONTROL value` (R142). -/
def execSSetPadControl (value : Word) (s : State) : Run State :=
  .next ((s.mapSlave fun v => { v with padPending := v.padPending.setCtrl value }).withRes none)

/-- `S_SET_PULLUPS selection` (R144). -/
def execSSetPullups (arg0 : Word) (s : State) : Run State :=
  .next ((s.mapSlave fun v => { v with padPending := v.padPending.setPullup arg0 }).withRes none)

end Sys2Proof.Machine
end

