-- ==== Sys2Proof/Machine/SlavePass.lean ====
section
/-! DEFINITION. The slave interrupt-service pass and its handlers (44_slave_sequencer.md). -/

namespace Sys2Proof.Machine

/-- A start-of-frame byte puts the session into `receiving` and rewinds the receive cursor (R151). -/
def startFrame (sof : Bool) (s : State) : State :=
  if sof then s.mapSlave fun v => { v with state := .receiving, rxbuf := v.rxbuf.rewind } else s

/-- `store_or_discard(b)` (R152). -/
def storeOrDiscard (b : Byte) (s : State) : State :=
  if s.slave.state = .receiving then
    if s.slave.rxbuf.configured then
      let r := bbWrite .sRxBuf b s
      if r.1 then r.2 else sRaise .bufferOverflow r.2
    else sRaise .bufferOverflow s
  else s

/-- `handle_rx()` (R151): the head of `s_rxq` is taken; the pass runs this only when there is one. -/
def handleRx (s : State) : Run State :=
  match s.slave.rxq with
  | [] => .next s
  | e :: rest =>
    .next (storeOrDiscard (entryData e) (startFrame (entrySof e) (s.mapSlave fun v => { v with rxq := rest })))

/-- The end-of-frame flags of the snapshot are cleared (R153). -/
def clearEof (r : SStatus) (v : Slave) : Slave :=
  { v with rsFlag := v.rsFlag && !r.rs, stopFlag := v.stopFlag && !r.stop }

/-- `s_state <- x`. -/
def setSState (x : SState) (s : State) : State := s.mapSlave fun v => { v with state := x }

/-- `s_trail <- 0`. -/
def clearTrail (s : State) : State := s.mapSlave fun v => { v with trail := false }

/-- `handle_eof(sr)` (R153): the upcall is made before the state becomes `idle`, which it never does if the callback holds the
pass. -/
def handleEof (r : SStatus) (s : State) : Run State :=
  let s1 := s.mapSlave (clearEof r)
  match s1.slave.state with
  | .receiving => andLive (afterReceive s1) fun s2 => .next (setSState .idle s2)
  | .transmitting => andLive (afterTransmit (clearTrail s1)) fun s2 => .next (setSState .idle s2)
  | .aborted => .next (setSState .idle (clearTrail s1))
  | .idle => .next s1

/-- `handle_berr()` (R154). -/
def handleBerr (s : State) : Run State :=
  .next ((sRaise .bitError (s.mapSlave fun v => { v with berrFlag := false })).mapSlave fun v =>
    { v with state := .aborted, txq := [] })

/-- `handle_am()` (R155). -/
def handleAm (s : State) : Run State :=
  let s1 := s.mapSlave fun v => { v with amFlag := false, addr := v.asr }
  .next (if s1.slave.state = .aborted then clearTrail (setSState .idle s1) else s1)

/-- `push(s_txq, b)`. -/
def sPush (b : Byte) (s : State) : State := s.mapSlave fun v => { v with txq := v.txq ++ [b] }

/-- `supply_byte()` (R157). -/
def supplyByte (s : State) : Run State :=
  if s.slave.txbuf.configured then
    if s.slave.txbuf.hasData then andThen (bbRead .sTxBuf s) fun r => .next (sPush r.1 r.2)
    else if s.slave.trail then .next (sRaise .bufferUnderflow (sPush dummyByte s))
    else .next ((sPush dummyByte s).mapSlave fun v => { v with trail := true })
  else .next (sRaise .bufferUnderflow (sPush dummyByte s))

/-- The first transmit request of a frame (R156): the upcall, then the cursor rewind, then `transmitting`. -/
def startTransmit (s : State) : Run State :=
  if s.slave.state = .transmitting then .next s
  else
    andLive (beforeTransmit s) fun s1 =>
      .next (s1.mapSlave fun v => { v with txbuf := v.txbuf.rewind, state := .transmitting })

/-- `handle_tx()` (R156). -/
def handleTx (s : State) : Run State :=
  if s.slave.state = .aborted then .next (sPush dummyByte s) else andLive (startTransmit s) supplyByte

/-- The five handlers in their fixed order on the snapshot `r` (R150), up to an upcall whose callback holds the pass. -/
def slavePass (r : SStatus) (s : State) : Run State :=
  andThen (whenFlag r.rda handleRx s) fun s1 =>
    andLive (whenFlag (r.rs || r.stop) (handleEof r) s1) fun s2 =>
      andThen (whenFlag r.berr handleBerr s2) fun s3 =>
        andThen (whenFlag r.am handleAm s3) fun s4 => whenFlag r.tdr handleTx s4

/-- `S_ISR` (R150): enabled while the slave vector is pending (R204, R205) and no earlier pass is held; the snapshot is taken at
entry. -/
def execSIsr (s : State) : Run State :=
  slaveStep (if sIrq s then slavePass (sStatus s.slave) (s.withRes none) else .refused .vectorNotPending) s

end Sys2Proof.Machine
end

