-- ==== Sys2Proof/Machine/Dispatch.lean ====
section
/-! DEFINITION. What each instruction does: one arm per row of spec/opcode_table.json, in the table's order. -/

namespace Sys2Proof.Machine

def exec (i : Instr) (s : State) : Host.Outcome State Fault Refusal :=
  match i with
  | .mBegin frequency => Sys2Proof.Machine.execMBegin frequency s
  | .mEnd => Sys2Proof.Machine.execMEnd s
  | .mWriteAsync a ptr len stop => Sys2Proof.Machine.execMWriteAsync a ptr len stop s
  | .mReadAsync a ptr len stop => Sys2Proof.Machine.execMReadAsync a ptr len stop s
  | .mFinished => Sys2Proof.Machine.execMFinished s
  | .mGetBytesTransferred => Sys2Proof.Machine.execMGetBytesTransferred s
  | .mError => Sys2Proof.Machine.execMError s
  | .mHasError => Sys2Proof.Machine.execMHasError s
  | .mSetPadControl value => Sys2Proof.Machine.execMSetPadControl value s
  | .mSetPullups arg0 => Sys2Proof.Machine.execMSetPullups arg0 s
  | .sListen a => Sys2Proof.Machine.execSListen a s
  | .sListen2 a b => Sys2Proof.Machine.execSListen2 a b s
  | .sListenRange first last => Sys2Proof.Machine.execSListenRange first last s
  | .sStopListening => Sys2Proof.Machine.execSStopListening s
  | .sSetRxBuffer ptr size => Sys2Proof.Machine.execSSetRxBuffer ptr size s
  | .sSetTxBuffer ptr size => Sys2Proof.Machine.execSSetTxBuffer ptr size s
  | .sAfterReceive handle => Sys2Proof.Machine.execSAfterReceive handle s
  | .sBeforeTransmit handle => Sys2Proof.Machine.execSBeforeTransmit handle s
  | .sAfterTransmit handle => Sys2Proof.Machine.execSAfterTransmit handle s
  | .sError => Sys2Proof.Machine.execSError s
  | .sHasError => Sys2Proof.Machine.execSHasError s
  | .sSetPadControl value => Sys2Proof.Machine.execSSetPadControl value s
  | .sSetPullups arg0 => Sys2Proof.Machine.execSSetPullups arg0 s
  | .txwTransmit data => Sys2Proof.Machine.execTxwTransmit data s
  | .txwReceive count => Sys2Proof.Machine.execTxwReceive count s
  | .txwStop => Sys2Proof.Machine.execTxwStop s
  | .txwStart addr dir => Sys2Proof.Machine.execTxwStart addr dir s
  | .bbInit sel ptr len => Sys2Proof.Machine.execBbInit sel ptr len s
  | .bbWrite sel byte => Sys2Proof.Machine.execBbWrite sel byte s
  | .bbRead sel => Sys2Proof.Machine.execBbRead sel s
  | .bbHasData sel => Sys2Proof.Machine.execBbHasData sel s
  | .bbNotStartedReading sel => Sys2Proof.Machine.execBbNotStartedReading sel s
  | .bbNotStartedWriting sel => Sys2Proof.Machine.execBbNotStartedWriting sel s
  | .bbFinishedReading sel => Sys2Proof.Machine.execBbFinishedReading sel s
  | .bbFinishedWriting sel => Sys2Proof.Machine.execBbFinishedWriting sel s
  | .bbConfigured sel => Sys2Proof.Machine.execBbConfigured sel s
  | .mIsr => Sys2Proof.Machine.execMIsr s
  | .sIsr => Sys2Proof.Machine.execSIsr s
  | .upAfterReceive => Sys2Proof.Machine.execUpAfterReceive s
  | .upBeforeTransmit => Sys2Proof.Machine.execUpBeforeTransmit s
  | .upAfterTransmit => Sys2Proof.Machine.execUpAfterTransmit s
  | .luMTake => Sys2Proof.Machine.execLuMTake s
  | .luMRx byte => Sys2Proof.Machine.execLuMRx byte s
  | .luMFlag name => Sys2Proof.Machine.execLuMFlag name s
  | .luMLevel name value => Sys2Proof.Machine.execLuMLevel name value s
  | .luSAddr addr rw => Sys2Proof.Machine.execLuSAddr addr rw s
  | .luSRx byte sof => Sys2Proof.Machine.execLuSRx byte sof s
  | .luSTake => Sys2Proof.Machine.execLuSTake s
  | .luSRs => Sys2Proof.Machine.execLuSRs s
  | .luSStop => Sys2Proof.Machine.execLuSStop s
  | .luSBerr => Sys2Proof.Machine.execLuSBerr s
  | .mChannelReset => Sys2Proof.Machine.execMChannelReset s
  | .mRecoveryPulses => Sys2Proof.Machine.execMRecoveryPulses s
  | .sChannelReset => Sys2Proof.Machine.execSChannelReset s

end Sys2Proof.Machine
end

