-- ==== Sys2Proof/Machine/Inputs.lean ====
section
/-! DEFINITION. What a step runs: an instruction the environment has chosen, a host access to caller memory (20_memory.md rule R47,
70_reset_and_hazards.md rule R241), the reset input (rule R230), or, with nothing chosen, a pending vector (60_exceptions.md
rule R205). -/

namespace Sys2Proof.Machine

/-- Decodes and executes an encoded instruction; what decodes to nothing is refused and changes nothing (R59). -/
def runCode (c : Code) (s : State) : Run State :=
  match decode c with
  | .ok i => exec i s
  | .error e => .refused (.notAccepted e)

/-- The reset input (rules R230, R231): every register takes its reset value; caller memory, `M_PLTC`, the parameters and the
environment's data are not reset (log 19). -/
def applyReset (s : State) : State :=
  { s with master := { Master.reset with pltc := s.master.pltc }, slave := Slave.reset, res := none }

/-- The host reads a byte of caller memory (rule R241: it "sees the bytes stored so far"; log 11). -/
def hostRead (addr : Nat) (s : State) : State := s.withRes (resByte (memRead s.mem addr))

/-- The host writes a byte of caller memory (rule R241; log 11). -/
def hostWrite (addr : Nat) (b : Byte) (s : State) : State := (s.memWrite addr b).withRes none

/-- One step the environment has chosen. -/
def runInput (i : Input) (s : State) : Run State :=
  match i with
  | .code c => runCode c s
  | .memRead addr => hostAccess addr (fun a => hostRead a s) s
  | .memWrite addr b => hostAccess addr (fun a => hostWrite a b s) s
  | .rst => .next (applyReset s)

/-- With nothing chosen: a master pass if `m_irq`, else a slave pass if `s_irq` and no slave pass is held (R205, R243), else
nothing happens (R230). -/
def serve (s : State) : Run State :=
  if mIrq s then exec .mIsr s else if sIrq s && !s.slave.hung then exec .sIsr s else .next s

/-- A table row's word placed where the next step takes its instruction from (log 1, log 13): the environment's next choice and,
for a transmit word, also the head of `m_txq` of an enabled channel, since that is where the line unit takes it from. -/
def placeWord (s : State) (nbits w : Nat) : State :=
  let c := tableCode nbits w
  let s1 := { s with pending := .code c :: s.pending }
  match c.fmt with
  | .txw => s1.mapMaster fun m => { m with en := true, txq := c.word.setWidth 11 :: m.txq }
  | .cmd => s1
  | .uop => s1
  | .ev => s1

end Sys2Proof.Machine
end

