-- ==== Sys2Proof/Machine/Step.lean ====
section
/-! DEFINITION. One step of the machine (00_scope.md rule R5: one whole host command, pass or line-unit move), and where the next
instruction stands. -/

namespace Sys2Proof.Machine

/-- One step: the next one the environment has chosen, or, with none chosen, what `serve` says. -/
def step (s : State) : Host.Outcome State Fault Refusal :=
  match s.pending with
  | [] => serve s
  | i :: rest => runInput i { s with pending := rest }

/-- `s` with a table row's word where the next step takes its instruction from. -/
def State.withFetchWord (s : State) (nbits w : Nat) : State := placeWord s nbits w

end Sys2Proof.Machine
end

