-- ==== Sys2Proof/Safety.lean ====
section
/-! DEFINITION. What counts as a sound state (10_state.md rule R38) and which engine an instruction belongs to (rule R10), in the
terms the statements use. -/

namespace Sys2Proof

/-- The engine an instruction belongs to (rule R10). -/
inductive Engine where
  | master
  | slave
  deriving DecidableEq, Repr

/-- The engine a buffer belongs to. -/
def BufSel.engine (sel : BufSel) : Engine :=
  match sel with
  | .mBuf => .master
  | .sRxBuf => .slave
  | .sTxBuf => .slave

/-- The engine an instruction belongs to: the names beginning `M_` the master's, those beginning `S_` the slave's (rule R10);
transmit words the master's, upcalls the slave's, a micro-operation its buffer's. -/
def Instr.engine (i : Instr) : Engine :=
  match i with
  | .mBegin _ | .mEnd | .mWriteAsync .. | .mReadAsync .. | .mFinished | .mGetBytesTransferred | .mError | .mHasError => .master
  | .mSetPadControl _ | .mSetPullups _ => .master
  | .sListen _ | .sListen2 _ _ | .sListenRange _ _ | .sStopListening | .sSetRxBuffer _ _ | .sSetTxBuffer _ _ => .slave
  | .sAfterReceive _ | .sBeforeTransmit _ | .sAfterTransmit _ | .sError | .sHasError | .sSetPadControl _ | .sSetPullups _ => .slave
  | .txwTransmit _ | .txwReceive _ | .txwStop | .txwStart _ _ => .master
  | .bbInit sel _ _ => sel.engine
  | .bbWrite sel _ => sel.engine
  | .bbRead sel => sel.engine
  | .bbHasData sel => sel.engine
  | .bbNotStartedReading sel => sel.engine
  | .bbNotStartedWriting sel => sel.engine
  | .bbFinishedReading sel => sel.engine
  | .bbFinishedWriting sel => sel.engine
  | .bbConfigured sel => sel.engine
  | .mIsr => .master
  | .sIsr => .slave
  | .upAfterReceive | .upBeforeTransmit | .upAfterTransmit => .slave
  | .luMTake | .luMRx _ | .luMFlag _ | .luMLevel _ _ => .master
  | .luSAddr _ _ | .luSRx _ _ | .luSTake | .luSRs | .luSStop | .luSBerr => .slave
  | .mChannelReset | .mRecoveryPulses => .master
  | .sChannelReset => .slave

/-- The instructions that can store to caller memory: `BB_WRITE`, the two passes (through `BB_WRITE`, rule R42), and an upcall,
whose callback may. -/
def Instr.mayStore (i : Instr) : Bool :=
  match i with
  | .bbWrite _ _ | .mIsr | .sIsr | .upAfterReceive | .upBeforeTransmit | .upAfterTransmit => true
  | _ => false

end Sys2Proof

namespace Sys2Proof.Machine

/-- A ByteBuffer whose registers are as wide as rule R11 says, whose cursor is within its length (rules R11, R38 item 1), and
whose region neither wraps past the top of the address space (rule R41, U8) nor reaches into a device region (rule R45). -/
structure ByteBuffer.Ok (c : Config) (b : ByteBuffer) : Prop where
  ptr : b.ptr < 2 ^ c.ptrW
  len : b.len < 2 ^ c.lenW
  cursor : b.next ≤ b.len
  inSpace : b.ptr + b.len ≤ 2 ^ c.ptrW
  offDevice : c.onDevice b.ptr b.len = false

/-- The invariants of rule R38, items 1, 2, 4, 6 and 7 (item 3 holds by the types), with the legal ranges of the parameters
(R6), the registers as wide as the parameters say (R11, R16, R29), the speed class derived from the frequency (R16), the
canonical form of caller memory, and the command values of queued transmit words (R62). -/
structure Inv (s : State) : Prop where
  cfgLegal : s.cfg.legal = true
  mBuf : s.master.buf.Ok s.cfg
  sRxBuf : s.slave.rxbuf.Ok s.cfg
  sTxBuf : s.slave.txbuf.Ok s.cfg
  mTxFits : s.master.txq.length ≤ s.cfg.mTxDepth
  mRxFits : s.master.rxq.length ≤ s.cfg.mRxDepth
  sTxFits : s.slave.txq.length ≤ 1
  sRxFits : s.slave.rxq.length ≤ 1
  mFeie : s.master.ier.getLsbD 5 = false
  mFreq : s.master.freq < 2 ^ s.cfg.freqW
  cbAfterRx : s.slave.cbAfterRx < 2 ^ s.cfg.ptrW
  cbBeforeTx : s.slave.cbBeforeTx < 2 ^ s.cfg.ptrW
  cbAfterTx : s.slave.cbAfterTx < 2 ^ s.cfg.ptrW
  mClass : s.master.cls = speedClass s.master.freq
  mIrqEn : s.master.irqEn = s.master.en
  sIrqEn : s.slave.irqEn = s.slave.listen
  sIer : s.slave.ier = if s.slave.listen then 0x3F#6 else 0#6
  memCanonical : memWf s.cfg.ptrW s.mem = true
  txWords : ∀ w ∈ s.master.txq, reservedCmd w = false

/-- Rule R38 item 5: while the channel is enabled, `TDIE` is set only during a write of length above 0 that is starting or
transferring. -/
def TdieInv (s : State) : Prop :=
  s.master.en = true → mTdie s.master = true →
    s.master.dir = .write ∧ s.master.buf.len ≠ 0 ∧ s.master.state.moving = true

/-- While a read is starting or transferring, at most its START word and one word more are queued (rule R96). -/
def ReadQueueInv (s : State) : Prop :=
  s.master.dir = .read → s.master.state.moving = true → s.master.txq.length ≤ 2

/-- The callbacks to come write no byte of caller memory themselves. -/
def quietCallbacks (s : State) : Prop := ∀ c ∈ s.callbacks, ∀ a b, HostAct.memWrite a b ∉ c.acts

/-- An outcome with its next state, if it is one, changed by a function. -/
def mapNext (f : State → State) (o : Host.Outcome State Fault Refusal) : Host.Outcome State Fault Refusal :=
  match o with
  | .next t => .next (f t)
  | .fault r => .fault r
  | .refused r => .refused r

/-- The bytes between a buffer's cursor and its end. -/
def ByteBuffer.room (b : ByteBuffer) : Nat := b.len - b.next

/-- The transmit words of the `k` bytes from an address on, in ascending order (rules R43, R118). -/
def transmitWords (m : Mem) (addr k : Nat) : List (BitVec 11) :=
  (List.range k).map fun j => txwTransmitWord (memRead m (addr + j))

/-- Some error flag of the master is set (rule R110, group 1). -/
def mErrorFlag (m : Master) : Bool := m.nakFlag || m.arbFlag || m.ferrFlag || m.pltFlag

/-- An address inside the region of a buffer, `[ptr, ptr + len)` (rule R42). -/
def inRegion (b : ByteBuffer) (a : Nat) : Prop := b.ptr ≤ a ∧ a < b.ptr + b.len

/-! ### The groups of a slave pass (rule R150), one by one -/

/-- What a pass has done once the received byte, if one is waiting, is served (rules R151, R152). -/
def ByteServed (s t : State) : Prop :=
  (s.slave.rxq = [] ∧ t = { s with res := none }) ∨
  ∃ (sof : Bool) (x : Byte) (st : SState) (nx : Nat), s.slave.rxq = [(if sof then 1#1 else 0#1) ++ x] ∧
    st = (if sof then .receiving else s.slave.state) ∧ nx = (if sof then 0 else s.slave.rxbuf.next) ∧
    ((st = .receiving ∧ s.slave.rxbuf.len ≠ 0 ∧ nx ≠ s.slave.rxbuf.len ∧ t = {
      s with
      mem := memWrite s.mem ((s.slave.rxbuf.ptr + nx) % 2 ^ s.cfg.ptrW) x,
      slave := { s.slave with
        rxq := [], state := .receiving, rxbuf := { s.slave.rxbuf with next := (nx + 1) % 2 ^ s.cfg.lenW } },
      res := none }) ∨
    (st = .receiving ∧ (s.slave.rxbuf.len = 0 ∨ nx = s.slave.rxbuf.len) ∧ t = {
      s with
      slave := { s.slave with
        rxq := [], state := .receiving, rxbuf := { s.slave.rxbuf with next := nx }, err := .bufferOverflow },
      res := none }) ∨
    (st ≠ .receiving ∧ t = { s with slave := { s.slave with rxq := [] }, res := none }))

/-- The end-of-frame flags cleared (rule R153). -/
def eofCleared (s : State) : State := { s with slave := { s.slave with rsFlag := false, stopFlag := false } }

/-- The upcall an end of frame makes, before the state becomes `idle` (rule R153). -/
def ClosingUpcall (s : State) (o : Host.Outcome State Fault Refusal) : Prop :=
  (s.slave.rsFlag = true ∨ s.slave.stopFlag = true) ∧
    ((s.slave.state = .receiving ∧ afterReceive (eofCleared s) = o) ∨
      (s.slave.state = .transmitting ∧
        afterTransmit { eofCleared s with slave := { (eofCleared s).slave with trail := false } } = o))

/-- What a pass has done once the end of frame, if one is flagged, is served and its upcall is over (rule R153). -/
def FrameEnded (s t : State) : Prop :=
  (s.slave.rsFlag = false ∧ s.slave.stopFlag = false ∧ t = s) ∨
  ((s.slave.rsFlag = true ∨ s.slave.stopFlag = true) ∧ s.slave.state = .idle ∧ t = eofCleared s) ∨
  ((s.slave.rsFlag = true ∨ s.slave.stopFlag = true) ∧ s.slave.state = .aborted ∧
    t = { eofCleared s with slave := { (eofCleared s).slave with state := .idle, trail := false } }) ∨
  ∃ u : State, ClosingUpcall s (.next u) ∧ u.slave.hung = false ∧ t = { u with slave := { u.slave with state := .idle } }

/-- A bit error served (rule R154). -/
def bitErrorServed (s : State) : State :=
  { s with slave := { s.slave with berrFlag := false, err := .bitError, state := .aborted, txq := [] } }

/-- An address match served (rule R155). -/
def matchServed (s : State) : State :=
  { s with slave := { s.slave with
      amFlag := false, addr := s.slave.asr, state := if s.slave.state = .aborted then .idle else s.slave.state,
      trail := if s.slave.state = .aborted then false else s.slave.trail } }

/-- The outcome of serving a transmit request in `s`, where `s_txq` is empty (rules R156, R157): `aborted`; within a frame, the
four cases of the buffer's edge; and the first request of a frame, where the upcall comes before the cursor's rewind, so that a
buffer the callback binds is the one the first byte is read from. A callback that never returns holds the pass there (R243, log
18), and one that is refused something refuses it (log 20). -/
def TransmitServed (s : State) (o : Host.Outcome State Fault Refusal) : Prop :=
  (s.slave.state = .aborted → o = .next { s with slave := { s.slave with txq := [0#8] } }) ∧
  (s.slave.state = .transmitting → s.slave.txbuf.len = 0 →
    o = .next { s with slave := { s.slave with txq := [0#8], err := .bufferUnderflow } }) ∧
  (s.slave.state = .transmitting → s.slave.txbuf.next < s.slave.txbuf.len →
    o = .next {
      s with
      slave := { s.slave with
        txq := [memRead s.mem ((s.slave.txbuf.ptr + s.slave.txbuf.next) % 2 ^ s.cfg.ptrW)],
        txbuf := { s.slave.txbuf with next := (s.slave.txbuf.next + 1) % 2 ^ s.cfg.lenW } } }) ∧
  (s.slave.state = .transmitting → s.slave.txbuf.len ≠ 0 → s.slave.txbuf.len ≤ s.slave.txbuf.next → s.slave.trail = false →
    o = .next { s with slave := { s.slave with txq := [0#8], trail := true } }) ∧
  (s.slave.state = .transmitting → s.slave.txbuf.len ≠ 0 → s.slave.txbuf.len ≤ s.slave.txbuf.next → s.slave.trail = true →
    o = .next { s with slave := { s.slave with txq := [0#8], err := .bufferUnderflow } }) ∧
  (s.slave.state = .idle ∨ s.slave.state = .receiving →
    (∀ u : State, beforeTransmit s = .next u → u.slave.hung = true → o = .next u) ∧
    (∀ u : State, beforeTransmit s = .next u → u.slave.hung = false → u.slave.txbuf.len ≠ 0 →
      o = .next {
        u with
        slave := { u.slave with
          state := .transmitting, txq := [memRead u.mem (u.slave.txbuf.ptr % 2 ^ s.cfg.ptrW)],
          txbuf := { u.slave.txbuf with next := 1 % 2 ^ s.cfg.lenW } } }) ∧
    (∀ u : State, beforeTransmit s = .next u → u.slave.hung = false → u.slave.txbuf.len = 0 →
      o = .next {
        u with
        slave := { u.slave with
          state := .transmitting, txq := [0#8], txbuf := { u.slave.txbuf with next := 0 }, err := .bufferUnderflow } }) ∧
    (∀ r : Refusal, beforeTransmit s = .refused r → o = .refused r))

end Sys2Proof.Machine
end

