-- ==== Sys2Proof/Certificates/Slice0/Obligations.lean ====
section
/-! DEFINITION. What is to be proved about the model: one definition per statement, each with the rule of spec/ it follows. -/

section

open Sys2Proof Sys2Proof.Machine

/-! ### Steps, decoding and encoding -/

/-- Tier 1. When the environment's next choice decodes to an instruction (which the decoder gives only well formed), the step
is that instruction's meaning, on the state without that choice; nothing else is done around it (R5, R55). -/
def Obligations.StepRunsTheDecodedInstruction : Prop :=
  ∀ (s : State) (c : Code) (rest : List Input) (i : Instr), s.pending = .code c :: rest → decode c = .ok i →
    step s = exec i { s with pending := rest }

/-- Tier 1. Every other step: a code that decodes to nothing is refused (R59); the host reads or writes a byte of caller
memory (R241; that such an access is always executed, also of memory a transfer owns, is the model's choice, log 11, as are
the refusal of a device region, log 15, and the narrowing of an address of more than `PTR_W` bits, log 12); the reset input
resets every register (R230, R231; that it also empties `RES` and leaves the outputs, the callbacks and the choices of the
environment is the model's, log 19); with nothing chosen the vectors are served, the master's first (R205), the slave's unless
a callback holds its pass (log 18), or nothing happens. That a step comes from a list of choices is the model's own (log
1). -/
def Obligations.StepOnEveryOtherInput : Prop :=
  (∀ (s : State) (c : Code) (rest : List Input) (e : DecodeError), s.pending = .code c :: rest → decode c = .error e →
    step s = .refused (.notAccepted e)) ∧
  (∀ (s : State) (a x : Nat) (rest : List Input), x = a % 2 ^ s.cfg.ptrW → s.pending = .memRead a :: rest →
    (s.cfg.onDevice x 1 = false → step s = .next { s with pending := rest, res := some (memRead s.mem x).toNat }) ∧
    (s.cfg.onDevice x 1 = true → step s = .refused .deviceRegion)) ∧
  (∀ (s : State) (a x : Nat) (b : Byte) (rest : List Input), x = a % 2 ^ s.cfg.ptrW → s.pending = .memWrite a b :: rest →
    (s.cfg.onDevice x 1 = false → step s = .next { s with pending := rest, mem := memWrite s.mem x b, res := none }) ∧
    (s.cfg.onDevice x 1 = true → step s = .refused .deviceRegion)) ∧
  (∀ (s : State) (rest : List Input), s.pending = .rst :: rest →
    step s = .next { s with
                            pending := rest, master := { Master.reset with pltc := s.master.pltc }, slave := Slave.reset,
                            res := none }) ∧
  (∀ s : State, s.pending = [] → mIrq s = true → step s = exec .mIsr s) ∧
  (∀ s : State, s.pending = [] → mIrq s = false → sIrq s = true → s.slave.hung = false → step s = exec .sIsr s) ∧
  (∀ s : State, s.pending = [] → mIrq s = false → sIrq s = false ∨ s.slave.hung = true → step s = .next s)

/-- Tier 1. Words written out from the encodings of R56, R57, R62, R70 and R71 decode to what they stand for. -/
def Obligations.DecodeOfSpecWords : Prop :=
  decode ⟨.cmd, 0x00000010#32, 0x000186A0, 0⟩ = .ok (.mBegin 100000) ∧
  decode ⟨.cmd, 0x0000A212#32, 0x00001000, 3⟩ = .ok (.mWriteAsync 0x22#7 0x1000 3 true) ∧
  decode ⟨.cmd, 0x00002213#32, 0x00002000, 2⟩ = .ok (.mReadAsync 0x22#7 0x2000 2 false) ∧
  decode ⟨.cmd, 0x00482221#32, 0, 0⟩ = .ok (.sListen2 0x22#7 0x48#7) ∧
  decode ⟨.cmd, 0x00272022#32, 0, 0⟩ = .ok (.sListenRange 0x20#7 0x27#7) ∧
  decode ⟨.cmd, 0x00000024#32, 0x00003000, 4⟩ = .ok (.sSetRxBuffer 0x3000 4) ∧
  decode ⟨.txw, 0x0AA#32, 0, 0⟩ = .ok (.txwTransmit 0xAA#8) ∧
  decode ⟨.txw, 0x1FF#32, 0, 0⟩ = .ok (.txwReceive 256) ∧
  decode ⟨.txw, 0x4A0#32, 0, 0⟩ = .ok (.txwStart 0x50#7 .write) ∧
  decode ⟨.uop, 0x12#32, 0, 0⟩ = .ok (.bbRead .sRxBuf) ∧
  decode ⟨.ev, 0x54#32, 0, 0⟩ = .ok .luSStop

/-- Tier 3. For every well-formed instruction, decoding its encoded form gives it back: no operand bit is dropped (R56, R57,
R62, R70, R71). The places of the operands of events and micro-operations are the model's own (log 9). -/
def Obligations.DecodeEncodeAgree : Prop := ∀ i : Instr, i.wellFormed = true → decode (encode i) = .ok i

/-- Tier 2. What the decoder reads is well formed, and its encoded word is the word that was read: each word has one
meaning. -/
def Obligations.EncodeDecodeAgree : Prop :=
  ∀ (c : Code) (i : Instr), decode c = .ok i →
    i.wellFormed = true ∧ (encode i).fmt = c.fmt ∧ (encode i).word = c.word ∧ decode (encode i) = decode c

/-- Tier 2. A command is accepted exactly when its word is an instance of a row of the opcode map and, for a pull-up command,
`ARG0[31:2]` is zero; the instruction read is of a row the word is an instance of, and no two rows share an instance (R56,
R57, R59). -/
def Obligations.CommandWordIsInstanceOfARow : Prop :=
  (∀ (w : Word) (a0 a1 : Nat), (∃ i, decode ⟨.cmd, w, a0, a1⟩ = .ok i) ↔
    ∃ r ∈ commandRows, w &&& r.mask = r.pat ∧ (r.pat = 0x19#32 ∨ r.pat = 0x2C#32 → a0 % 2 ^ 32 < 4)) ∧
  (∀ (w : Word) (a0 a1 : Nat) (i : Instr), decode ⟨.cmd, w, a0, a1⟩ = .ok i →
    rowOf i ∈ commandRows ∧ w &&& (rowOf i).mask = (rowOf i).pat) ∧
  commandRows.Pairwise (fun r q => r.overlaps q = false)

/-- Tier 2. R59: a command word with an opcode outside the map, or that is an instance of no row, or a pull-up command with
`ARG0[31:2]` nonzero, is refused, which changes no state and gives no result. -/
def Obligations.RefusedCommandChangesNothing : Prop :=
  (∀ (s : State) (rest : List Input) (w : Word) (a0 a1 : Nat), s.pending = .code ⟨.cmd, w, a0, a1⟩ :: rest →
    ((w.extractLsb' 0 8).toNat < 0x10 ∨ (0x1A ≤ (w.extractLsb' 0 8).toNat ∧ (w.extractLsb' 0 8).toNat < 0x20) ∨
      0x2D ≤ (w.extractLsb' 0 8).toNat) → ∃ e, step s = .refused (.notAccepted e)) ∧
  (∀ (s : State) (rest : List Input) (w : Word) (a0 a1 : Nat), s.pending = .code ⟨.cmd, w, a0, a1⟩ :: rest →
    (∀ r ∈ commandRows, w &&& r.mask ≠ r.pat) → ∃ e, step s = .refused (.notAccepted e)) ∧
  (∀ (s : State) (rest : List Input) (w : Word) (a0 a1 : Nat), s.pending = .code ⟨.cmd, w, a0, a1⟩ :: rest →
    (w = 0x19#32 ∨ w = 0x2C#32) → 4 ≤ a0 % 2 ^ 32 → ∃ e, step s = .refused (.notAccepted e))

/-- Tier 2. Reserved codes are refused by name: the reserved transmit commands and a STOP with data (R62), the reserved buffer
selector and micro-operation codes (R70), the event codes R71 does not list. -/
def Obligations.ReservedCodesRefused : Prop :=
  (∀ w : BitVec 11, w.extractLsb' 8 3 = 3#3 ∨ w.extractLsb' 8 3 = 5#3 ∨ w.extractLsb' 8 3 = 6#3 ∨ w.extractLsb' 8 3 = 7#3 →
    decode ⟨.txw, w.setWidth 32, 0, 0⟩ = .error .reservedTxWord) ∧
  (∀ w : BitVec 11, w.extractLsb' 8 3 = 2#3 → w.extractLsb' 0 8 ≠ 0#8 →
    decode ⟨.txw, w.setWidth 32, 0, 0⟩ = .error .reservedTxWord) ∧
  (∀ (u : BitVec 4) (a0 a1 : Nat), decode ⟨.uop, (3#2 ++ u).setWidth 32, a0, a1⟩ = .error .reservedSelector) ∧
  (∀ (sel : BitVec 2) (u : BitVec 4) (a0 a1 : Nat), sel ≠ 3#2 → 9 ≤ u.toNat →
    decode ⟨.uop, (sel ++ u).setWidth 32, a0, a1⟩ = .error .reservedMicroOp) ∧
  (∀ (w : Word) (a0 a1 : Nat), w.toNat ∉ [0x30, 0x31, 0x38, 0x39, 0x3A, 0x40, 0x41, 0x42, 0x43, 0x50, 0x51, 0x52, 0x53,
      0x54, 0x55, 0x60, 0x61, 0x62] → decode ⟨.ev, w, a0, a1⟩ = .error .unknownEvent)

/-- Tier 2. R62: the transmit words as numbers. -/
def Obligations.TransmitWordNumbers : Prop :=
  (∀ d : Byte, txwTransmitWord d = 0x000#11 ||| d.setWidth 11) ∧
  (∀ n : Nat, 1 ≤ n → n ≤ 256 → (txwReceiveWord n).toNat = 0x100 + (n - 1)) ∧
  txwStopWord = 0x200#11 ∧
  (∀ a : Addr, txwStartWord a .write = 0x400#11 ||| (a.setWidth 11 <<< 1)) ∧
  (∀ a : Addr, txwStartWord a .read = 0x400#11 ||| (a.setWidth 11 <<< 1) ||| 1#11)

/-- Tier 1. The numbers of the error codes (R64), of the states, classes and modes (R65), and the enables the arming commands
write (R66, R67). -/
def Obligations.RegisterEncodings : Prop :=
  ([ErrorCode.ok, .arbitrationLost, .bufferOverflow, .bufferUnderflow, .invalidRequest, .pinLowTimeout, .masterNotReady,
      .masterFifoError, .masterFifosNotEmpty, .addressNak, .dataNak, .bitError].map ErrorCode.code).map BitVec.toNat
    = List.range 12 ∧
  ([MState.starting, .transferring, .stopping, .idle, .transferComplete, .stopped].map MState.code).map BitVec.toNat
    = List.range 6 ∧
  ([SState.idle, .receiving, .transmitting, .aborted].map SState.code).map BitVec.toNat = List.range 4 ∧
  ([SpeedClass.standard, .fast, .fastModePlus].map SpeedClass.code).map BitVec.toNat = List.range 3 ∧
  ([MatchMode.none, .single, .dual, .range].map MatchMode.code).map BitVec.toNat = List.range 4 ∧
  mIerBegin = 0x5E#7 ∧ sIerListen = 0x3F#6

/-! ### Reset and the machine as a whole -/

/-- Tier 1. R39: the power-on values of every register; caller memory is not specified. `M_PLTC` is what the line unit drives:
the model's 0 for it is log 3 and not stated here, nor is the model's own mark of a held slave pass (log 18). -/
def Obligations.ResetRegisterValues : Prop :=
  State.reset.master = {
    state := .idle, dir := .write, sendStop := false, err := .ok, buf := ⟨0, 0, 0⟩,
    freq := 0, cls := .standard, en := false, irqEn := false, ier := 0#7, txq := [], rxq := [], stopFlag := false,
    nakFlag := false, arbFlag := false, ferrFlag := false, pltFlag := false, busy := false, held := false,
    pltc := State.reset.master.pltc, padPending := ⟨0#32, 0#2⟩, padApplied := ⟨0#32, 0#2⟩ } ∧
  State.reset.slave = {
    state := .idle, err := .ok, addr := 0#7, trail := false, rxbuf := ⟨0, 0, 0⟩,
    txbuf := ⟨0, 0, 0⟩, cbAfterRx := 0, cbBeforeTx := 0, cbAfterTx := 0, listen := false, mode := .none,
    match0 := 0#7, match1 := 0#7, ier := 0#6, irqEn := false, txq := [], rxq := [], amFlag := false, stopFlag := false,
    rsFlag := false, berrFlag := false, asr := 0#7, txreq := false, padPending := ⟨0#32, 0#2⟩, padApplied := ⟨0#32, 0#2⟩,
    hung := State.reset.slave.hung } ∧
  ∀ a : Nat, memRead State.reset.mem a = Config.unwrittenByte a

/-- Tier 1. R230: after reset no vector is pending, no pass runs, no address matches, `M_FINISHED` returns 1, the errors read
0, with nothing chosen the block does nothing, and no master-side move can happen but `LU_M_LEVEL PLTC`, which R170 always
allows. -/
def Obligations.QuietAfterReset : Prop :=
  mIrq State.reset = false ∧ sIrq State.reset = false ∧
  exec .mIsr State.reset = .refused .vectorNotPending ∧ exec .sIsr State.reset = .refused .vectorNotPending ∧
  exec .luMTake State.reset = .refused .moveNotEnabled ∧
  (∀ b, exec (.luMRx b) State.reset = .refused .moveNotEnabled) ∧
  (∀ f, exec (.luMFlag f) State.reset = .refused .moveNotEnabled) ∧
  (∀ v, exec (.luMLevel .busy v) State.reset = .refused .moveNotEnabled) ∧
  (∀ v, exec (.luMLevel .held v) State.reset = .refused .moveNotEnabled) ∧
  (∀ v, exec (.luMLevel .pltc v) State.reset =
    .next { State.reset with master := { State.reset.master with pltc := v } }) ∧
  (∀ a, sMatch State.reset.slave a = false) ∧
  exec .mFinished State.reset = .next { State.reset with res := some 1 } ∧
  exec .mError State.reset = .next { State.reset with res := some 0 } ∧
  exec .sError State.reset = .next { State.reset with res := some 0 } ∧
  step State.reset = .next State.reset

/-- Tier 1. The invariants hold at reset. -/
def Obligations.ResetMeetsInvariants : Prop := Inv State.reset ∧ TdieInv State.reset ∧ ReadQueueInv State.reset

/-- Tier 3. Every step keeps the invariants of R38 (items 1, 2, 4, 6, 7), the widths of the registers (R6, R11, R16, R29), the
class derived from the frequency, the canonical form of memory and the command values of the queued words. -/
def Obligations.StepKeepsInv : Prop := ∀ s t : State, Inv s → step s = .next t → Inv t

/-- Tier 2. R38 item 5, and the bound on the words queued during a read: kept by every step but a `BB_INIT` of `m_buf` as a
step of its own, which the block itself never makes (R36, R80, R242; log 14). -/
def Obligations.StepKeepsTransferRules : Prop :=
  ∀ s t : State, Inv s → TdieInv s → ReadQueueInv s →
    (∀ (c : Code) (rest : List Input) (p n : Nat), s.pending = .code c :: rest → decode c ≠ .ok (.bbInit .mBuf p n)) →
    step s = .next t → TdieInv t ∧ ReadQueueInv t

/-- Tier 2. No step changes the parameters (R6) or the device regions; a step uses up one choice of the environment, and the
outputs it makes come after the earlier ones (logs 1, 6, 8); and once a callback holds the slave pass for ever (R243), only
the reset input ends that (log 18). -/
def Obligations.ParametersNeverChange : Prop :=
  ∀ s t : State, step s = .next t →
    t.cfg = s.cfg ∧ t.pending = s.pending.tail ∧ (∃ l, t.events = s.events ++ l) ∧ (∃ l, s.callbacks = l ++ t.callbacks) ∧
    (s.slave.hung = true → s.pending.head? ≠ some .rst → t.slave.hung = true)

/-- Tier 3. R10: an instruction of one engine neither reads nor writes a register of the other: put other registers in the
other engine's place, and the outcome is the same with those registers in place. -/
def Obligations.EnginesAreIndependent : Prop :=
  (∀ (i : Instr) (s : State) (v : Slave), i.engine = .master →
    exec i { s with slave := v } = mapNext (fun t => { t with slave := v }) (exec i s)) ∧
  (∀ (i : Instr) (s : State) (m : Master), i.engine = .slave →
    exec i { s with master := m } = mapNext (fun t => { t with master := m }) (exec i s))

/-! ### Host commands of the master engine -/

/-- Tier 1. R90: `M_BEGIN` completes in every state, with the registers it writes and all others as they were. That an operand
of more than `FREQ_W` bits is narrowed, not refused, is the model's inference (log 12). -/
def Obligations.MBeginArmsTheChannel : Prop :=
  ∀ (s : State) (f g : Nat), g = f % 2 ^ s.cfg.freqW → exec (.mBegin f) s = .next {
    s with
    master := { s.master with
      freq := g, cls := speedClass g, txq := [], rxq := [], busy := false, held := false,
      stopFlag := false, nakFlag := false, arbFlag := false, ferrFlag := false, pltFlag := false,
      padApplied := s.master.padPending, ier := 0x5E#7, en := true, irqEn := true, state := .idle },
    res := none, events := s.events ++ [.mChannelReset] }

/-- Tier 1. R91: the thresholds of the speed classes, in hertz. -/
def Obligations.SpeedClassThresholds : Prop :=
  ∀ f : Nat, (f ≤ 100000 → speedClass f = .standard) ∧
    (100000 < f → f < 1000000 → speedClass f = .fast) ∧ (1000000 ≤ f → speedClass f = .fastModePlus)

/-- Tier 1. R92: `M_END` completes in every state, writes three registers, and a second one changes nothing. -/
def Obligations.MEndDisables : Prop :=
  (∀ s : State, exec .mEnd s = .next {
    s with
    master := { s.master with en := false, irqEn := false, state := .idle }, res := none }) ∧
  ∀ s t : State, exec .mEnd s = .next t → exec .mEnd t = .next t

/-- Tier 2. R95, R93: a write of length above 0 on an enabled, finished channel with empty FIFOs is armed. That a pointer or a
length of more bits than its width is narrowed, not refused, is the model's inference (log 12). -/
def Obligations.WriteArms : Prop :=
  ∀ (s : State) (a : Addr) (p n q k : Nat) (st : Bool), q = p % 2 ^ s.cfg.ptrW → k = n % 2 ^ s.cfg.lenW →
    s.master.en = true → finished s.cfg s.master = true → s.master.txq = [] → s.master.rxq = [] → 0 < s.cfg.mTxDepth →
    k ≠ 0 → q + k ≤ 2 ^ s.cfg.ptrW → s.cfg.onDevice q k = false →
    exec (.mWriteAsync a p n st) s = .next {
      s with
      master := { s.master with
        state := .starting, dir := .write, err := .ok, sendStop := st, buf := ⟨q, k, 0⟩,
        ier := s.master.ier ||| 0x01#7, txq := [txwStartWord a .write], stopFlag := false, nakFlag := false,
        arbFlag := false, ferrFlag := false, pltFlag := false },
      res := none }

/-- Tier 2. R96, R93: a read of 1 to 256 bytes on an enabled, finished channel with empty FIFOs is armed. That a pointer or a
length of more bits than its width is narrowed, not refused, is the model's inference (log 12). -/
def Obligations.ReadArms : Prop :=
  ∀ (s : State) (a : Addr) (p n q k : Nat) (st : Bool), q = p % 2 ^ s.cfg.ptrW → k = n % 2 ^ s.cfg.lenW →
    s.master.en = true → finished s.cfg s.master = true → s.master.txq = [] → s.master.rxq = [] → 1 < s.cfg.mTxDepth →
    k ≠ 0 → k ≤ 256 → q + k ≤ 2 ^ s.cfg.ptrW → s.cfg.onDevice q k = false →
    exec (.mReadAsync a p n st) s = .next {
      s with
      master := { s.master with
        state := .starting, dir := .read, err := .ok, sendStop := st, buf := ⟨q, k, 0⟩,
        txq := [txwStartWord a .read, txwReceiveWord k], stopFlag := false, nakFlag := false, arbFlag := false,
        ferrFlag := false, pltFlag := false },
      res := none }

/-- Tier 2. R95, R96: a length of 0 is a probe: the START and the STOP word, whatever `send_stop` says; `m_stop` and `TDIE`
stay as they were. That a pointer or a length of more bits than its width is narrowed is the model's inference (log 12). -/
def Obligations.ProbeArms : Prop :=
  ∀ (s : State) (a : Addr) (p n q : Nat) (st : Bool), q = p % 2 ^ s.cfg.ptrW → n % 2 ^ s.cfg.lenW = 0 →
    s.master.en = true → finished s.cfg s.master = true → s.master.txq = [] → s.master.rxq = [] → 1 < s.cfg.mTxDepth →
    exec (.mWriteAsync a p n st) s = .next {
      s with
      master := { s.master with
        state := .starting, dir := .write, err := .ok, buf := ⟨q, 0, 0⟩,
        txq := [txwStartWord a .write, 0x200#11], stopFlag := false, nakFlag := false, arbFlag := false, ferrFlag := false,
        pltFlag := false },
      res := none } ∧
    exec (.mReadAsync a p n st) s = .next {
      s with
      master := { s.master with
        state := .starting, dir := .read, err := .ok, buf := ⟨q, 0, 0⟩,
        txq := [txwStartWord a .read, 0x200#11], stopFlag := false, nakFlag := false, arbFlag := false, ferrFlag := false,
        pltFlag := false },
      res := none }

/-- Tier 1. R96, R97 (2): a read of more than 256 bytes records `invalid_request` and does nothing else, in any state of the
engine. That a length of more than `LEN_W` bits is narrowed is the model's inference (log 12). -/
def Obligations.OversizedReadRejected : Prop :=
  ∀ (s : State) (a : Addr) (p n : Nat) (st : Bool), s.master.en = true → 256 < n % 2 ^ s.cfg.lenW →
    exec (.mReadAsync a p n st) s = .next { s with master := { s.master with err := .invalidRequest }, res := none }

/-- Tier 2. R93, R94, R97 (3): a transfer command on an engine that is not finished aborts the transaction in flight, records
`master_not_ready` and drops the request: `m_buf`, `m_dir` and `m_stop` stay (a length of more than `LEN_W` bits narrowed: log
12). -/
def Obligations.BusyTransferRejected : Prop :=
  ∀ (s : State) (a : Addr) (p n : Nat) (st : Bool) (i : Instr),
    i = .mWriteAsync a p n st ∨ (i = .mReadAsync a p n st ∧ n % 2 ^ s.cfg.lenW ≤ 256) →
    s.master.en = true → finished s.cfg s.master = false → 0 < s.cfg.mTxDepth →
    exec i s = .next {
      s with
      master := { s.master with
        state := if s.master.held then .stopping else .idle, err := .masterNotReady,
        ier := s.master.ier &&& 0x7E#7, txq := if s.master.held then [0x200#11] else [], rxq := [] },
      res := none }

/-- Tier 2. R93, R94, R97 (4): a transfer command on a finished engine with an entry in a FIFO flushes the FIFOs, records
`master_fifos_not_empty` and drops the request; `m_dir` is the new direction, `m_buf` stays (a length of more than `LEN_W`
bits is narrowed: log 12). -/
def Obligations.StaleFifoRejected : Prop :=
  ∀ (s : State) (a : Addr) (p n : Nat) (st : Bool) (d : Dir) (i : Instr),
    (d = .write ∧ i = .mWriteAsync a p n st) ∨ (d = .read ∧ i = .mReadAsync a p n st ∧ n % 2 ^ s.cfg.lenW ≤ 256) →
    s.master.en = true → finished s.cfg s.master = true → (s.master.txq ≠ [] ∨ s.master.rxq ≠ []) → 0 < s.cfg.mTxDepth →
    exec i s = .next {
      s with
      master := { s.master with
        state := if s.master.held then .stopping else .idle, dir := d, err := .masterFifosNotEmpty,
        ier := s.master.ier &&& 0x7E#7, txq := if s.master.held then [0x200#11] else [], rxq := [] },
      res := none }

/-- Tier 1. Where a transfer command or the binding of a buffer stops: before `M_BEGIN` (R95, R96, U5), on a region that wraps
past the top of the address space (R41, U8; log 10), and on one that has a byte in a device region (R45; log 15). That a
pointer or a length of more bits than its width is narrowed first is the model's inference (log 12). -/
def Obligations.TransferAndBindingStops : Prop :=
  (∀ (s : State) (a : Addr) (p n : Nat) (st : Bool), s.master.en = false →
    exec (.mWriteAsync a p n st) s = .fault .notBegun ∧ exec (.mReadAsync a p n st) s = .fault .notBegun) ∧
  (∀ (s : State) (a : Addr) (p n q k : Nat) (st : Bool) (i : Instr), q = p % 2 ^ s.cfg.ptrW → k = n % 2 ^ s.cfg.lenW →
    i = .mWriteAsync a p n st ∨ (i = .mReadAsync a p n st ∧ k ≤ 256) →
    s.master.en = true → finished s.cfg s.master = true → s.master.txq = [] → s.master.rxq = [] → 0 < s.cfg.mTxDepth →
    (2 ^ s.cfg.ptrW < q + k → exec i s = .refused .regionWraps) ∧
    (q + k ≤ 2 ^ s.cfg.ptrW → s.cfg.onDevice q k = true → exec i s = .refused .deviceRegion)) ∧
  (∀ (s : State) (p n q k : Nat) (sel : BufSel) (i : Instr), q = p % 2 ^ s.cfg.ptrW → k = n % 2 ^ s.cfg.lenW →
    i = .sSetRxBuffer p n ∨ i = .sSetTxBuffer p n ∨ i = .bbInit sel p n →
    (2 ^ s.cfg.ptrW < q + k → exec i s = .refused .regionWraps) ∧
    (q + k ≤ 2 ^ s.cfg.ptrW → s.cfg.onDevice q k = true → exec i s = .refused .deviceRegion)) ∧
  (∀ (c : Config) (q k : Nat), c.onDevice q k = true ↔
    ∃ r ∈ c.devices, ∃ a, q ≤ a ∧ a < q + k ∧ r.base ≤ a ∧ a < r.base + r.size)

/-- Tier 1. R98 to R102, R106: the four queries write nothing but the result, and the two knobs write only the pending pad
registers. -/
def Obligations.MasterQueriesAndPads : Prop :=
  (∀ (c : Config) (m : Master), finished c m = true ↔
    (m.state = .idle ∨ m.state = .transferComplete ∨ m.state = .stopped) ∧ (c.finishedChecksBusy = true → m.busy = false)) ∧
  (∀ s : State, exec .mFinished s = .next { s with res := some (if finished s.cfg s.master then 1 else 0) }) ∧
  (∀ s : State, exec .mGetBytesTransferred s = .next { s with res := some s.master.buf.next }) ∧
  (∀ s : State, exec .mError s = .next { s with res := some s.master.err.code.toNat }) ∧
  (∀ s : State, exec .mHasError s = .next { s with res := some (if s.master.err = .ok then 0 else 1) }) ∧
  (∀ (s : State) (v : Word), exec (.mSetPadControl v) s = .next {
    s with
    master := { s.master with padPending := ⟨v, s.master.padPending.pullup⟩ }, res := none }) ∧
  (∀ (s : State) (v : Word), exec (.mSetPullups v) s = .next {
    s with
    master := { s.master with padPending := ⟨s.master.padPending.ctrl, v.extractLsb' 0 2⟩ }, res := none })

/-! ### Host commands of the slave engine -/

/-- Tier 1. R130 to R133: the three listen commands complete in every state; buffers, callbacks and `s_addr` stay. -/
def Obligations.ListenArms : Prop :=
  ∀ (s : State) (a b : Addr) (i : Instr) (mode : MatchMode) (m1 : Addr),
    (i = .sListen a ∧ mode = .single ∧ m1 = a) ∨ (i = .sListen2 a b ∧ mode = .dual ∧ m1 = b) ∨
      (i = .sListenRange a b ∧ mode = .range ∧ m1 = b) →
    exec i s = .next {
      s with
      slave := { s.slave with
        state := .idle, err := .ok, trail := false, listen := true, mode := mode, match0 := a,
        match1 := m1, ier := 0x3F#6, irqEn := true, txq := [], rxq := [], amFlag := false, stopFlag := false,
        rsFlag := false, berrFlag := false, txreq := false, padApplied := s.slave.padPending },
      res := none, events := s.events ++ [.sChannelReset] }

/-- Tier 1. R134: `S_STOP_LISTENING` completes in every state and writes five registers; a second one changes nothing. -/
def Obligations.StopListeningDisables : Prop :=
  (∀ s : State, exec .sStopListening s = .next {
    s with
    slave := { s.slave with ier := 0#6, irqEn := false, listen := false, state := .idle, trail := false }, res := none }) ∧
  ∀ s t : State, exec .sStopListening s = .next t → exec .sStopListening t = .next t

/-- Tier 1. R135 to R142, R144: the buffers, the callback handles, the two queries and the two knobs of the slave. That a
pointer, a length or a handle of more bits than its width is narrowed is the model's inference (log 12). -/
def Obligations.SlaveConfiguration : Prop :=
  (∀ (s : State) (p n q k : Nat), q = p % 2 ^ s.cfg.ptrW → k = n % 2 ^ s.cfg.lenW → q + k ≤ 2 ^ s.cfg.ptrW →
    s.cfg.onDevice q k = false →
    exec (.sSetRxBuffer p n) s = .next { s with slave := { s.slave with rxbuf := ⟨q, k, 0⟩ }, res := none } ∧
    exec (.sSetTxBuffer p n) s = .next { s with slave := { s.slave with txbuf := ⟨q, k, 0⟩ }, res := none }) ∧
  (∀ (s : State) (h x : Nat), x = h % 2 ^ s.cfg.ptrW →
    exec (.sAfterReceive h) s = .next { s with slave := { s.slave with cbAfterRx := x }, res := none } ∧
    exec (.sBeforeTransmit h) s = .next { s with slave := { s.slave with cbBeforeTx := x }, res := none } ∧
    exec (.sAfterTransmit h) s = .next { s with slave := { s.slave with cbAfterTx := x }, res := none }) ∧
  (∀ s : State, exec .sError s = .next { s with res := some s.slave.err.code.toNat }) ∧
  (∀ s : State, exec .sHasError s = .next { s with res := some (if s.slave.err = .ok then 0 else 1) }) ∧
  (∀ (s : State) (v : Word), exec (.sSetPadControl v) s = .next {
    s with
    slave := { s.slave with padPending := ⟨v, s.slave.padPending.pullup⟩ }, res := none }) ∧
  (∀ (s : State) (v : Word), exec (.sSetPullups v) s = .next {
    s with
    slave := { s.slave with padPending := ⟨s.slave.padPending.ctrl, v.extractLsb' 0 2⟩ }, res := none })

/-- Tier 2. R143: what the match register matches. -/
def Obligations.MatchPredicate : Prop :=
  ∀ (v : Slave) (a : Addr), sMatch v a = true ↔ v.listen = true ∧
    ((v.mode = .single ∧ a = v.match0) ∨ (v.mode = .dual ∧ (a = v.match0 ∨ a = v.match1)) ∨
      (v.mode = .range ∧ v.match0.toNat ≤ a.toNat ∧ a.toNat ≤ v.match1.toNat))

/-! ### The line unit's moves -/

/-- Tier 2. R171, R62: the line unit takes the head of the transmit FIFO, and what each of the four words does; the move
returns the word. As an instruction of its own a transmit word is the taking of that word (log 13). -/
def Obligations.LineUnitTakesTheHead : Prop :=
  (∀ (s : State) (d : Byte) (rest : List (BitVec 11)) (i : Instr), i = .luMTake ∨ i = .txwTransmit d →
    s.master.en = true → s.master.txq = txwTransmitWord d :: rest →
    exec i s = .next {
      s with
      master := { s.master with txq := rest }, res := some (txwTransmitWord d).toNat }) ∧
  (∀ (s : State) (n : Nat) (rest : List (BitVec 11)) (i : Instr), i = .luMTake ∨ i = .txwReceive n →
    s.master.en = true → s.master.txq = txwReceiveWord n :: rest →
    exec i s = .next {
      s with
      master := { s.master with txq := rest }, res := some (txwReceiveWord n).toNat }) ∧
  (∀ (s : State) (rest : List (BitVec 11)) (i : Instr), i = .luMTake ∨ i = .txwStop →
    s.master.en = true → s.master.txq = txwStopWord :: rest →
    exec i s = .next {
      s with
      master := { s.master with txq := rest, held := false, stopFlag := true }, res := some 0x200 }) ∧
  (∀ (s : State) (a : Addr) (d : Dir) (rest : List (BitVec 11)) (i : Instr), i = .luMTake ∨ i = .txwStart a d →
    s.master.en = true → s.master.txq = txwStartWord a d :: rest →
    exec i s = .next {
      s with
      master := { s.master with txq := rest, held := true, busy := true }, res := some (txwStartWord a d).toNat })

/-- Tier 1. R172 to R174: the other moves of the master side, where their guards hold. -/
def Obligations.MasterLineMoves : Prop :=
  (∀ (s : State) (b : Byte), s.master.en = true → s.master.rxq.length < s.cfg.mRxDepth →
    exec (.luMRx b) s = .next { s with master := { s.master with rxq := s.master.rxq ++ [b] }, res := none }) ∧
  (∀ s : State, s.master.en = true →
    exec (.luMFlag .stop) s = .next { s with master := { s.master with stopFlag := true }, res := none } ∧
    exec (.luMFlag .nak) s = .next { s with master := { s.master with nakFlag := true }, res := none } ∧
    exec (.luMFlag .arb) s = .next { s with master := { s.master with arbFlag := true }, res := none } ∧
    exec (.luMFlag .ferr) s = .next { s with master := { s.master with ferrFlag := true }, res := none } ∧
    exec (.luMFlag .plt) s = .next { s with master := { s.master with pltFlag := true }, res := none }) ∧
  (∀ (s : State) (v : Bool), s.master.en = true →
    exec (.luMLevel .busy v) s = .next { s with master := { s.master with busy := v }, res := none } ∧
    exec (.luMLevel .held v) s = .next { s with master := { s.master with held := v }, res := none }) ∧
  (∀ (s : State) (v : Bool),
    exec (.luMLevel .pltc v) s = .next { s with master := { s.master with pltc := v }, res := none })

/-- Tier 1. R176 to R181: the moves of the slave side, where their guards hold and no callback holds the slave pass. -/
def Obligations.SlaveLineMoves : Prop :=
  (∀ (s : State) (a : Addr), s.slave.hung = false → sMatch s.slave a = true →
    exec (.luSAddr a .write) s = .next {
      s with
      slave := { s.slave with amFlag := true, asr := a, txreq := false }, res := none } ∧
    exec (.luSAddr a .read) s = .next {
      s with
      slave := { s.slave with amFlag := true, asr := a, txreq := true }, res := none }) ∧
  (∀ (s : State) (b : Byte), s.slave.hung = false → s.slave.rxq = [] →
    exec (.luSRx b true) s = .next { s with slave := { s.slave with rxq := [1#1 ++ b] }, res := none } ∧
    exec (.luSRx b false) s = .next { s with slave := { s.slave with rxq := [0#1 ++ b] }, res := none }) ∧
  (∀ (s : State) (b : Byte), s.slave.hung = false → s.slave.txq = [b] →
    exec .luSTake s = .next { s with slave := { s.slave with txq := [] }, res := some b.toNat }) ∧
  (∀ s : State, s.slave.hung = false → exec .luSRs s = .next {
    s with
    slave := { s.slave with rsFlag := true, txreq := false, txq := [] }, res := none }) ∧
  (∀ s : State, s.slave.hung = false → exec .luSStop s = .next {
    s with
    slave := { s.slave with stopFlag := true, txreq := false, txq := [] }, res := none }) ∧
  (∀ s : State, s.slave.hung = false →
    exec .luSBerr s = .next { s with slave := { s.slave with berrFlag := true }, res := none })

/-- Tier 2. R170 to R178: the guards are hard: where one is false the move is refused. A transmit word as an instruction of
its own is refused where it is not the head of the FIFO of an enabled channel (log 13); a reserved word found there is fault
U6. While a callback holds the slave pass (R243, U11) the slave engine and the slave side of the line unit make no step (log
18). -/
def Obligations.GuardsAreHard : Prop :=
  (∀ (s : State) (i : Instr), s.master.en = false →
    (i = .luMTake ∨ (∃ b, i = .luMRx b) ∨ (∃ f, i = .luMFlag f) ∨ (∃ v, i = .luMLevel .busy v) ∨
      (∃ v, i = .luMLevel .held v) ∨ (∃ d, i = .txwTransmit d) ∨ (∃ n, i = .txwReceive n) ∨ i = .txwStop ∨
      ∃ a d, i = .txwStart a d) →
    exec i s = .refused .moveNotEnabled) ∧
  (∀ s : State, s.master.txq = [] → exec .luMTake s = .refused .moveNotEnabled) ∧
  (∀ (s : State) (w : BitVec 11) (rest : List (BitVec 11)), s.master.en = true → s.master.txq = w :: rest →
    w.extractLsb' 8 3 = 3#3 ∨ w.extractLsb' 8 3 = 5#3 ∨ w.extractLsb' 8 3 = 6#3 ∨ w.extractLsb' 8 3 = 7#3 →
    exec .luMTake s = .fault .reservedTxWord) ∧
  (∀ (s : State) (w : BitVec 11) (i : Instr), s.master.txq.head? ≠ some w →
    ((∃ d, i = .txwTransmit d ∧ w = txwTransmitWord d) ∨ (∃ n, i = .txwReceive n ∧ w = txwReceiveWord n) ∨
      (i = .txwStop ∧ w = txwStopWord) ∨ ∃ a d, i = .txwStart a d ∧ w = txwStartWord a d) →
    exec i s = .refused .moveNotEnabled) ∧
  (∀ (s : State) (b : Byte), s.cfg.mRxDepth ≤ s.master.rxq.length → exec (.luMRx b) s = .refused .moveNotEnabled) ∧
  (∀ (s : State) (a : Addr) (rw : Dir), s.slave.hung = false → sMatch s.slave a = false →
    exec (.luSAddr a rw) s = .refused .moveNotEnabled) ∧
  (∀ (s : State) (b : Byte) (sof : Bool), s.slave.hung = false → s.slave.rxq ≠ [] →
    exec (.luSRx b sof) s = .refused .moveNotEnabled) ∧
  (∀ s : State, s.slave.hung = false → s.slave.txq.length ≠ 1 → exec .luSTake s = .refused .moveNotEnabled) ∧
  (∀ (s : State) (i : Instr), s.slave.hung = true →
    i = .sIsr ∨ i = .upAfterReceive ∨ i = .upBeforeTransmit ∨ i = .upAfterTransmit ∨ (∃ a rw, i = .luSAddr a rw) ∨
      (∃ b sof, i = .luSRx b sof) ∨ i = .luSTake ∨ i = .luSRs ∨ i = .luSStop ∨ i = .luSBerr →
    exec i s = .refused .slaveHung)

/-! ### ByteBuffer micro-operations -/

/-- Tier 1. R80, R83 to R88: binding a buffer, and the six queries, which write nothing but the result. That a pointer or a
length of more bits than its width is narrowed is the model's inference (log 12). -/
def Obligations.BufferInitAndQueries : Prop :=
  (∀ (s : State) (p n q k : Nat), q = p % 2 ^ s.cfg.ptrW → k = n % 2 ^ s.cfg.lenW → q + k ≤ 2 ^ s.cfg.ptrW →
    s.cfg.onDevice q k = false →
    exec (.bbInit .mBuf p n) s = .next { s with master := { s.master with buf := ⟨q, k, 0⟩ }, res := none } ∧
    exec (.bbInit .sRxBuf p n) s = .next { s with slave := { s.slave with rxbuf := ⟨q, k, 0⟩ }, res := none } ∧
    exec (.bbInit .sTxBuf p n) s = .next { s with slave := { s.slave with txbuf := ⟨q, k, 0⟩ }, res := none }) ∧
  (∀ (s : State) (sel : BufSel) (b : ByteBuffer),
    (sel = .mBuf ∧ b = s.master.buf) ∨ (sel = .sRxBuf ∧ b = s.slave.rxbuf) ∨ (sel = .sTxBuf ∧ b = s.slave.txbuf) →
    exec (.bbHasData sel) s = .next { s with res := some (if b.next < b.len then 1 else 0) } ∧
    exec (.bbNotStartedReading sel) s = .next { s with res := some (if b.next = 0 then 1 else 0) } ∧
    exec (.bbNotStartedWriting sel) s = .next { s with res := some (if b.next = 0 then 1 else 0) } ∧
    exec (.bbFinishedReading sel) s = .next { s with res := some (if b.next = b.len then 1 else 0) } ∧
    exec (.bbFinishedWriting sel) s = .next { s with res := some (if b.next = b.len then 1 else 0) } ∧
    exec (.bbConfigured sel) s = .next { s with res := some (if b.len = 0 then 0 else 1) })

/-- Tier 2. R81: `BB_WRITE` on a buffer that is not full stores one byte at `ptr + next` and moves the cursor on; on a full
one it returns 0 and changes nothing. -/
def Obligations.BufferWrite : Prop :=
  (∀ (s : State) (sel : BufSel) (x : Byte), (s.buf sel).next ≠ (s.buf sel).len →
    ∃ mem' : Mem, exec (.bbWrite sel x) s = .next {
      s.setBuf sel { s.buf sel with next := ((s.buf sel).next + 1) % 2 ^ s.cfg.lenW } with
      mem := mem', res := some 1 } ∧
      ∀ a : Nat, memRead mem' a =
        if a = ((s.buf sel).ptr + (s.buf sel).next) % 2 ^ s.cfg.ptrW then x else memRead s.mem a) ∧
  (∀ (s : State) (sel : BufSel) (x : Byte), (s.buf sel).next = (s.buf sel).len →
    exec (.bbWrite sel x) s = .next { s with res := some 0 })

/-- Tier 2. R82: `BB_READ` below the length returns the byte at `ptr + next` and moves the cursor on; past the end its
precondition is violated: fault U1. -/
def Obligations.BufferRead : Prop :=
  (∀ (s : State) (sel : BufSel), (s.buf sel).next < (s.buf sel).len →
    exec (.bbRead sel) s = .next {
      s.setBuf sel { s.buf sel with next := ((s.buf sel).next + 1) % 2 ^ s.cfg.lenW } with
      res := some (memRead s.mem (((s.buf sel).ptr + (s.buf sel).next) % 2 ^ s.cfg.ptrW)).toNat }) ∧
  (∀ (s : State) (sel : BufSel), (s.buf sel).len ≤ (s.buf sel).next →
    exec (.bbRead sel) s = .fault .readPastEnd)

/-! ### The two vectors -/

/-- Tier 2. R203, R204 with R22, R34, R66, R67: when each vector is pending, bit by bit; R205: a pass whose vector is not
pending does not run. -/
def Obligations.VectorsPending : Prop :=
  (∀ s : State, mIrq s = true ↔ s.master.irqEn = true ∧
    ((s.master.ier.getLsbD 0 = true ∧ s.master.txq.length ≤ s.cfg.mTxWatermark) ∨
      (s.master.ier.getLsbD 1 = true ∧ s.cfg.mRxWatermark < s.master.rxq.length) ∨
      (s.master.ier.getLsbD 2 = true ∧ s.master.stopFlag = true) ∨
      (s.master.ier.getLsbD 3 = true ∧ s.master.nakFlag = true) ∨
      (s.master.ier.getLsbD 4 = true ∧ s.master.arbFlag = true) ∨
      (s.master.ier.getLsbD 5 = true ∧ s.master.ferrFlag = true) ∨
      (s.master.ier.getLsbD 6 = true ∧ s.master.pltFlag = true))) ∧
  (∀ s : State, sIrq s = true ↔ s.slave.irqEn = true ∧
    ((s.slave.ier.getLsbD 0 = true ∧ s.slave.txreq = true ∧ s.slave.txq = []) ∨
      (s.slave.ier.getLsbD 1 = true ∧ s.slave.rxq ≠ []) ∨
      (s.slave.ier.getLsbD 2 = true ∧ s.slave.amFlag = true) ∨
      (s.slave.ier.getLsbD 3 = true ∧ s.slave.stopFlag = true) ∨
      (s.slave.ier.getLsbD 4 = true ∧ s.slave.rsFlag = true) ∨
      (s.slave.ier.getLsbD 5 = true ∧ s.slave.berrFlag = true))) ∧
  (∀ s : State, mIrq s = false → exec .mIsr s = .refused .vectorNotPending) ∧
  (∀ s : State, s.slave.hung = false → sIrq s = false → exec .sIsr s = .refused .vectorNotPending)

/-! ### The master pass -/

/-- Tier 2. R110 to R116 without recovery: a pass with an error flag records the error by the precedence of R115, clears the
flags, aborts, and forces `stopped` if the STOP flag is set too. -/
def Obligations.MasterErrorPass : Prop :=
  ∀ s : State, mIrq s = true → mErrorFlag s.master = true → (s.master.pltFlag && s.master.pltc) = false →
    0 < s.cfg.mTxDepth →
    exec .mIsr s = .next {
      s with
      master := {
        s.master with
        state := if s.master.stopFlag then .stopped else if s.master.held then .stopping else .idle,
        err := if s.master.pltFlag then .pinLowTimeout
          else if s.master.arbFlag then .arbitrationLost
          else if s.master.nakFlag then (if s.master.state = .starting then .addressNak else .dataNak)
          else if s.master.err = .ok then .masterFifoError else s.master.err,
        ier := s.master.ier &&& 0x7E#7, txq := if s.master.held then [0x200#11] else [], rxq := [], stopFlag := false,
        nakFlag := false, arbFlag := false, ferrFlag := false, pltFlag := false },
      res := none }

/-- Tier 2. R116: a pin-low timeout with the pin still low recovers the bus: the clock pulses, then `M_BEGIN` with the stored
frequency; `m_err` stays `pin_low_timeout`. -/
def Obligations.RecoveryPass : Prop :=
  ∀ s : State, mIrq s = true → s.master.pltFlag = true → s.master.pltc = true → 0 < s.cfg.mTxDepth →
    exec .mIsr s = .next {
      s with
      master := { s.master with
        state := if s.master.stopFlag then .stopped else .idle, err := .pinLowTimeout,
        cls := speedClass s.master.freq, en := true, irqEn := true, ier := 0x5E#7, txq := [], rxq := [], stopFlag := false,
        nakFlag := false, arbFlag := false, ferrFlag := false, pltFlag := false, busy := false, held := false,
        padApplied := s.master.padPending },
      res := none, events := s.events ++ [.mRecoveryPulses s.cfg.recoveryPulses, .mChannelReset] }

/-- Tier 2. R117: a read in progress: the pass moves every entry of the receive FIFO that fits into the buffer, in order,
drops the others with `buffer_overflow`, and when the buffer is full issues STOP or marks `transfer_complete`. -/
def Obligations.MasterReceivePass : Prop :=
  ∀ s : State, mIrq s = true → mErrorFlag s.master = false → s.cfg.mRxWatermark < s.master.rxq.length →
    s.master.dir = .read → (s.master.state = .starting ∨ s.master.state = .transferring) → s.master.buf.len ≠ 0 →
    s.master.buf.Ok s.cfg → s.master.txq.length < s.cfg.mTxDepth →
    ∃ mem' : Mem, exec .mIsr s = .next {
      s with
      mem := mem',
      master := {
        s.master with
        state := if s.master.stopFlag then .stopped
          else if s.master.buf.room ≤ s.master.rxq.length then
            (if s.master.sendStop then .stopping else .transferComplete)
          else .transferring,
        err := if s.master.buf.room < s.master.rxq.length then .bufferOverflow else s.master.err,
        buf := {
          s.master.buf with
          next := s.master.buf.next + min s.master.rxq.length s.master.buf.room },
        ier := if s.master.stopFlag then s.master.ier &&& 0x7E#7 else s.master.ier,
        txq := if s.master.buf.room ≤ s.master.rxq.length ∧ s.master.sendStop = true then s.master.txq ++ [0x200#11]
          else s.master.txq,
        rxq := [], stopFlag := false },
      res := none } ∧
      ∀ a : Nat, memRead mem' a =
        if s.master.buf.ptr + s.master.buf.next ≤ a ∧
            a < s.master.buf.ptr + s.master.buf.next + min s.master.rxq.length s.master.buf.room then
          s.master.rxq.getD (a - (s.master.buf.ptr + s.master.buf.next)) 0#8
        else memRead s.mem a

/-- Tier 2. R117, else branch: receive data while no read of length above 0 is in progress is discarded, and nothing else
happens, but for a STOP flag in the same snapshot, which forces `stopped` as ever (R119); the pass has no error and no
transmit request to serve. -/
def Obligations.UnexpectedDataDiscarded : Prop :=
  ∀ s : State, mIrq s = true → mErrorFlag s.master = false → s.cfg.mRxWatermark < s.master.rxq.length →
    (s.master.dir = .write ∨ (s.master.state ≠ .starting ∧ s.master.state ≠ .transferring) ∨ s.master.buf.len = 0) →
    (s.master.ier.getLsbD 0 = false ∨ s.cfg.mTxWatermark < s.master.txq.length) →
    exec .mIsr s = .next {
      s with
      master := { s.master with
        state := if s.master.stopFlag then .stopped else s.master.state,
        ier := if s.master.stopFlag then s.master.ier &&& 0x7E#7 else s.master.ier, rxq := [], stopFlag := false },
      res := none }

/-- Tier 2. R118: a write in progress: the pass moves bytes of the buffer into the transmit FIFO while there is data and room;
with the buffer exhausted and the FIFO empty it issues STOP or marks `transfer_complete` and clears `TDIE`. A STOP flag in the
same snapshot forces `stopped`; receive data is discarded. -/
def Obligations.MasterTransmitPass : Prop :=
  ∀ (s : State) (q : List Byte), mIrq s = true → mErrorFlag s.master = false → s.master.ier.getLsbD 0 = true →
    s.master.txq.length ≤ s.cfg.mTxWatermark → s.master.dir = .write →
    (s.master.state = .starting ∨ s.master.state = .transferring) →
    s.master.buf.Ok s.cfg → s.master.txq.length < s.cfg.mTxDepth →
    q = (if s.cfg.mRxWatermark < s.master.rxq.length then [] else s.master.rxq) →
    (s.master.buf.next ≠ s.master.buf.len → exec .mIsr s = .next {
      s with
      master := {
        s.master with
        state := if s.master.stopFlag then .stopped else .transferring,
        buf := { s.master.buf with
          next := s.master.buf.next + min (s.cfg.mTxDepth - s.master.txq.length) s.master.buf.room },
        ier := if s.master.stopFlag then s.master.ier &&& 0x7E#7 else s.master.ier,
        txq := s.master.txq ++ transmitWords s.mem (s.master.buf.ptr + s.master.buf.next)
          (min (s.cfg.mTxDepth - s.master.txq.length) s.master.buf.room),
        rxq := q, stopFlag := false },
      res := none }) ∧
    (s.master.buf.next = s.master.buf.len → s.master.txq ≠ [] → exec .mIsr s = .next {
      s with
      master := { s.master with
        state := if s.master.stopFlag then .stopped else .transferring,
        ier := if s.master.stopFlag then s.master.ier &&& 0x7E#7 else s.master.ier, rxq := q, stopFlag := false },
      res := none }) ∧
    (s.master.buf.next = s.master.buf.len → s.master.txq = [] → exec .mIsr s = .next {
      s with
      master := {
        s.master with
        state := if s.master.stopFlag then .stopped else if s.master.sendStop then .stopping else .transferComplete,
        ier := s.master.ier &&& 0x7E#7, txq := if s.master.sendStop then [0x200#11] else [], rxq := q, stopFlag := false },
      res := none })

/-- Tier 2. R119: a STOP flag in the snapshot always forces `stopped` and clears `TDIE`, whatever else the pass did; with
nothing else to serve, that is all it does (what a snapshot with receive data or a transmit request gives beside it is stated
with those). -/
def Obligations.StopForcesStopped : Prop :=
  (∀ s t : State, s.master.stopFlag = true → exec .mIsr s = .next t →
    t.master.state = .stopped ∧ t.master.stopFlag = false ∧ t.master.ier.getLsbD 0 = false) ∧
  (∀ s : State, mIrq s = true → s.master.stopFlag = true → mErrorFlag s.master = false →
    s.master.rxq.length ≤ s.cfg.mRxWatermark →
    (s.master.ier.getLsbD 0 = false ∨ s.cfg.mTxWatermark < s.master.txq.length) →
    exec .mIsr s = .next {
      s with
      master := { s.master with state := .stopped, stopFlag := false, ier := s.master.ier &&& 0x7E#7 }, res := none })

/-- Tier 2. R123: what a master pass never does. -/
def Obligations.MasterPassNever : Prop :=
  ∀ s t : State, exec .mIsr s = .next t →
    (t.master.err = .ok → s.master.err = .ok) ∧ t.master.dir = s.master.dir ∧ t.master.sendStop = s.master.sendStop ∧
    t.master.buf.ptr = s.master.buf.ptr ∧ t.master.buf.len = s.master.buf.len ∧ t.master.freq = s.master.freq ∧
    (t.master.cls = s.master.cls ∨ t.master.cls = speedClass s.master.freq) ∧
    (s.master.cls = speedClass s.master.freq → t.master.cls = s.master.cls) ∧ t.slave = s.slave

/-- Tier 2. R82, R103: a pending master pass completes wherever the invariants hold and the transmit FIFO holds three words or
more; and no pass of any state reads past the end of a buffer. (With `M_TX_DEPTH` = 2 a line unit that breaks its contract can
make the pass push into a full FIFO, fault U4.) -/
def Obligations.MasterPassCompletes : Prop :=
  (∀ s : State, Inv s → ReadQueueInv s → 3 ≤ s.cfg.mTxDepth → mIrq s = true → ∃ t, exec .mIsr s = .next t) ∧
  (∀ s : State, exec .mIsr s ≠ .fault .readPastEnd)

/-- Tier 2. R122: passes do not repeat for ever without a line-unit move: with the default transmit watermark, after one pass
the master vector is not pending, whatever was in the snapshot. -/
def Obligations.MasterPassQuiesces : Prop :=
  ∀ s t : State, Inv s → TdieInv s → s.cfg.mTxWatermark = 0 → exec .mIsr s = .next t → mIrq t = false

/-! ### The slave pass -/

/-- Tier 2. R151, R152: a pass that has only a received byte to serve. A start-of-frame byte makes the session `receiving` and
rewinds the cursor; in `receiving` the byte is stored, or dropped with `buffer_overflow` where there is no buffer or no room;
in any other state it is dropped. -/
def Obligations.SlaveReceivePass : Prop :=
  ∀ (s : State) (sof : Bool) (x : Byte) (st : SState) (nx : Nat), s.slave.hung = false → sIrq s = true →
    s.slave.rxq = [(if sof then 1#1 else 0#1) ++ x] →
    s.slave.amFlag = false → s.slave.stopFlag = false → s.slave.rsFlag = false → s.slave.berrFlag = false →
    (s.slave.txreq = false ∨ s.slave.txq ≠ []) →
    st = (if sof then .receiving else s.slave.state) → nx = (if sof then 0 else s.slave.rxbuf.next) →
    (st = .receiving → s.slave.rxbuf.len ≠ 0 → nx ≠ s.slave.rxbuf.len →
      exec .sIsr s = .next {
        s with
        mem := memWrite s.mem ((s.slave.rxbuf.ptr + nx) % 2 ^ s.cfg.ptrW) x,
        slave := { s.slave with
          rxq := [], state := .receiving, rxbuf := { s.slave.rxbuf with next := (nx + 1) % 2 ^ s.cfg.lenW } },
        res := none }) ∧
    (st = .receiving → (s.slave.rxbuf.len = 0 ∨ nx = s.slave.rxbuf.len) →
      exec .sIsr s = .next {
        s with
        slave := { s.slave with
          rxq := [], state := .receiving, rxbuf := { s.slave.rxbuf with next := nx },
          err := .bufferOverflow },
        res := none }) ∧
    (st ≠ .receiving → exec .sIsr s = .next { s with slave := { s.slave with rxq := [] }, res := none })

/-- Tier 2. R153: a pass that has only an end of frame to serve. The upcall is made before the state becomes `idle`, with the
address of the frame that ends. In `receiving` and in `transmitting` the first clause is for an empty list of callbacks, where
the callback does nothing and returns, which is the model's choice (log 7), and the second for any callback; one that never
returns holds the pass there (R243; log 18). -/
def Obligations.SlaveEndOfFrame : Prop :=
  ∀ (s s1 : State), s.slave.hung = false → sIrq s = true → s.slave.rxq = [] →
    (s.slave.rsFlag = true ∨ s.slave.stopFlag = true) →
    s.slave.berrFlag = false → s.slave.amFlag = false → (s.slave.txreq = false ∨ s.slave.txq ≠ []) →
    s1 = { s with slave := { s.slave with rsFlag := false, stopFlag := false }, res := none } →
    (s.slave.state = .receiving → s.callbacks = [] →
      exec .sIsr s = .next { s1 with
        slave := { s1.slave with state := .idle },
        events := if s.slave.cbAfterRx = 0 then s.events
          else s.events ++ [.afterReceive s.slave.cbAfterRx s.slave.rxbuf.next (s.slave.addr.setWidth 8)] }) ∧
    (∀ u : State, s.slave.state = .receiving → afterReceive s1 = .next u →
      exec .sIsr s = .next (if u.slave.hung then u else { u with slave := { u.slave with state := .idle } })) ∧
    (s.slave.state = .transmitting → s.callbacks = [] →
      exec .sIsr s = .next { s1 with
        slave := { s1.slave with state := .idle, trail := false },
        events := if s.slave.cbAfterTx = 0 then s.events
          else s.events ++ [.afterTransmit s.slave.cbAfterTx (s.slave.addr.setWidth 8)] }) ∧
    (∀ u : State, s.slave.state = .transmitting →
      afterTransmit { s1 with slave := { s1.slave with trail := false } } = .next u →
      exec .sIsr s = .next (if u.slave.hung then u else { u with slave := { u.slave with state := .idle } })) ∧
    (s.slave.state = .aborted →
      exec .sIsr s = .next { s1 with slave := { s1.slave with state := .idle, trail := false } }) ∧
    (s.slave.state = .idle → exec .sIsr s = .next s1)

/-- Tier 2. R154, R155: a pass that has a bit error, an address match, or both to serve: the frame is given up and a waiting
byte withdrawn; the matched address is recorded and ends the aborted condition. -/
def Obligations.SlaveBitErrorAndMatch : Prop :=
  ∀ s : State, s.slave.hung = false → sIrq s = true → s.slave.rxq = [] → s.slave.rsFlag = false →
    s.slave.stopFlag = false →
    (s.slave.txreq = false ∨ s.slave.txq ≠ []) →
    (s.slave.berrFlag = true → s.slave.amFlag = false →
      exec .sIsr s = .next {
        s with
        slave := { s.slave with berrFlag := false, err := .bitError, state := .aborted, txq := [] }, res := none }) ∧
    (s.slave.berrFlag = false → s.slave.amFlag = true →
      exec .sIsr s = .next {
        s with
        slave := { s.slave with
          amFlag := false, addr := s.slave.asr,
          state := if s.slave.state = .aborted then .idle else s.slave.state,
          trail := if s.slave.state = .aborted then false else s.slave.trail },
        res := none }) ∧
    (s.slave.berrFlag = true → s.slave.amFlag = true →
      exec .sIsr s = .next {
        s with
        slave := { s.slave with
          berrFlag := false, err := .bitError, txq := [], amFlag := false, addr := s.slave.asr,
          state := .idle, trail := false },
        res := none })

/-- Tier 2. R155, R156, R157: a pass that has a transmit request to serve, alone or with the address match that comes with the
first request of a read frame (R176): the match is recorded first, so that `before_transmit` gets the new address and an
`aborted` frame is over; then `TransmitServed`: `aborted`; within a frame, the four cases of the buffer's edge; and the first
request of a frame, with the upcall before the cursor's rewind, so that a buffer the callback binds is the one the first byte
is read from (a callback that never returns: R243, log 18; one that is refused something: log 20). The last clause spells out
the first request for an empty list of callbacks, where the callback does nothing and returns, which is the model's choice
(log 7). -/
def Obligations.SlaveTransmitPass : Prop :=
  ∀ s s1 : State, s.slave.hung = false → sIrq s = true → s.slave.rxq = [] → s.slave.stopFlag = false →
    s.slave.rsFlag = false → s.slave.berrFlag = false → s.slave.txreq = true → s.slave.txq = [] →
    s1 = (if s.slave.amFlag then matchServed { s with res := none } else { s with res := none }) →
    TransmitServed s1 (exec .sIsr s) ∧
    (s1.slave.state = .idle ∨ s1.slave.state = .receiving → s.callbacks = [] → s.slave.cbBeforeTx ≠ 0 →
      s.slave.txbuf.len ≠ 0 →
      exec .sIsr s = .next {
        s with
        slave := { s.slave with
          amFlag := false, addr := if s.slave.amFlag then s.slave.asr else s.slave.addr, state := .transmitting,
          trail := s1.slave.trail, txq := [memRead s.mem (s.slave.txbuf.ptr % 2 ^ s.cfg.ptrW)],
          txbuf := { s.slave.txbuf with next := 1 % 2 ^ s.cfg.lenW } },
        res := none,
        events := s.events ++ [.beforeTransmit s.slave.cbBeforeTx
          ((if s.slave.amFlag then s.slave.asr else s.slave.addr).setWidth 8)] })

/-- Tier 2. R150: `S_ISR` on any snapshot is its five groups in their order, the repeated START's snapshot among them. `s1` is
the state once the received byte is served, if one waits (R151, R152: stored, dropped where there is no buffer or no room, or
in no frame); `s2` once the end of frame is, if one is flagged (R153: the old frame is closed with its count and its address);
`s3` once a bit error is (R154); `s4` once an address match is (R155: the new address); then the transmit request, if the
snapshot has one (R156, R157: the new frame's first byte, from the buffer bound by then). An upcall whose callback never
returns holds the pass there (R243; log 18), and one whose callback is refused something refuses the pass (log 20). The last
clause spells out the snapshot of a repeated START, or of a STOP and a new START, after a write, for an empty list of
callbacks, where each callback does nothing and returns, which is the model's choice (log 7). -/
def Obligations.RepeatedStartSnapshot : Prop :=
  ∀ s s1 : State, s.slave.hung = false → sIrq s = true → ByteServed s s1 →
    (∀ u : State, ClosingUpcall s1 (.next u) → u.slave.hung = true → exec .sIsr s = .next u) ∧
    (∀ r : Refusal, ClosingUpcall s1 (.refused r) → exec .sIsr s = .refused r) ∧
    (∀ s2 s3 s4 : State, FrameEnded s1 s2 → s3 = (if s.slave.berrFlag then bitErrorServed s2 else s2) →
      s4 = (if s.slave.amFlag then matchServed s3 else s3) →
      (s.slave.txreq = false ∨ s.slave.txq ≠ [] → exec .sIsr s = .next s4) ∧
      (s.slave.txreq = true → s.slave.txq = [] → TransmitServed s4 (exec .sIsr s))) ∧
    (s1.slave.state = .receiving → s.slave.rsFlag = true ∨ s.slave.stopFlag = true → s.slave.berrFlag = false →
      s.slave.amFlag = true → s.slave.txreq = true → s.slave.txq = [] → s.slave.txbuf.len ≠ 0 →
      s.slave.cbAfterRx ≠ 0 → s.slave.cbBeforeTx ≠ 0 → s.callbacks = [] →
      exec .sIsr s = .next {
        s1 with
        slave := { s1.slave with
          rsFlag := false, stopFlag := false, amFlag := false, addr := s.slave.asr, state := .transmitting,
          txbuf := { s.slave.txbuf with next := 1 % 2 ^ s.cfg.lenW },
          txq := [memRead s1.mem (s.slave.txbuf.ptr % 2 ^ s.cfg.ptrW)] },
        events := s.events ++
          [.afterReceive s.slave.cbAfterRx s1.slave.rxbuf.next (s.slave.addr.setWidth 8),
           .beforeTransmit s.slave.cbBeforeTx (s.slave.asr.setWidth 8)] })

/-- Tier 2. R161: what a slave pass never does, its bounds, and that it never reads past the end of a buffer (R82). -/
def Obligations.SlavePassNever : Prop :=
  (∀ s t : State, exec .sIsr s = .next t →
    (t.slave.err = .ok → s.slave.err = .ok) ∧ t.slave.listen = s.slave.listen ∧ t.slave.mode = s.slave.mode ∧
    t.slave.match0 = s.slave.match0 ∧ t.slave.match1 = s.slave.match1 ∧ t.slave.ier = s.slave.ier ∧
    t.slave.irqEn = s.slave.irqEn ∧ t.slave.cbAfterRx = s.slave.cbAfterRx ∧ t.slave.cbBeforeTx = s.slave.cbBeforeTx ∧
    t.slave.cbAfterTx = s.slave.cbAfterTx ∧ t.master = s.master ∧ s.slave.rxq.length ≤ t.slave.rxq.length + 1 ∧
    t.slave.txq.length ≤ s.slave.txq.length + 1 ∧ s.callbacks.length ≤ t.callbacks.length + 2) ∧
  (∀ s t : State, exec .sIsr s = .next t → (∀ c ∈ s.callbacks, c.acts = []) →
    t.slave.rxbuf.ptr = s.slave.rxbuf.ptr ∧ t.slave.rxbuf.len = s.slave.rxbuf.len ∧
    t.slave.txbuf.ptr = s.slave.txbuf.ptr ∧ t.slave.txbuf.len = s.slave.txbuf.len) ∧
  (∀ s : State, exec .sIsr s ≠ .fault .readPastEnd)

/-! ### Upcalls and output events -/

/-- Tier 2. R158, R68: an upcall with the null handle does nothing; with another handle the event is delivered with the handle
and the arguments, and the callback runs to completion; one that does not return holds the slave pass for ever (R243, U11: the
model's `hung`, log 18). That with no callback listed nothing more happens is the model's own (log 7). -/
def Obligations.UpcallSteps : Prop :=
  ∀ (s : State) (i : Instr) (h : Nat) (e : OutEvent), s.slave.hung = false →
    (i = .upAfterReceive ∧ h = s.slave.cbAfterRx ∧ e = .afterReceive h s.slave.rxbuf.next (s.slave.addr.setWidth 8)) ∨
      (i = .upBeforeTransmit ∧ h = s.slave.cbBeforeTx ∧ e = .beforeTransmit h (s.slave.addr.setWidth 8)) ∨
      (i = .upAfterTransmit ∧ h = s.slave.cbAfterTx ∧ e = .afterTransmit h (s.slave.addr.setWidth 8)) →
    (h = 0 → exec i s = .next { s with res := none }) ∧
    (h ≠ 0 → s.callbacks = [] → exec i s = .next { s with res := none, events := s.events ++ [e] }) ∧
    (∀ (c : Callback) (rest : List Callback) (u : State), h ≠ 0 → s.callbacks = c :: rest →
      runActs c.acts { s with res := none, events := s.events ++ [e], callbacks := rest } = .next u →
      (c.returns = true → exec i s = .next u) ∧
      (c.returns = false → exec i s = .next { u with slave := { u.slave with hung := true } }))

/-- Tier 2. R158, R48, R241: what a callback does. The four commands permitted inside an upcall execute immediately; any other
is refused (U7), as is a word that is no command (U10), and a buffer whose region wraps (U8; one that wraps and is over a
device has this name, log 10) or has a byte in a device region (R45; log 15). A callback reads and writes caller memory byte
by byte (that this is always executed: log 11), but not in a device region (log 15). The model's choices: the result of
`S_ERROR`, of `S_HAS_ERROR` and of a read is handed to the callback as an output, not in `RES` (log 8); a pointer, length or
address with more bits than its width is narrowed (log 12); what a callback is refused refuses the whole step that runs it
(log 20). -/
def Obligations.PermittedInUpcall : Prop :=
  (∀ (s : State) (w : Word) (a0 a1 p n q k : Nat) (sel : BufSel), q = p % 2 ^ s.cfg.ptrW → k = n % 2 ^ s.cfg.lenW →
    (sel = .sRxBuf ∧ decode ⟨.cmd, w, a0, a1⟩ = .ok (.sSetRxBuffer p n)) ∨
      (sel = .sTxBuf ∧ decode ⟨.cmd, w, a0, a1⟩ = .ok (.sSetTxBuffer p n)) →
    (q + k ≤ 2 ^ s.cfg.ptrW → s.cfg.onDevice q k = false →
      runAct (.command w a0 a1) s = .next (s.setBuf sel ⟨q, k, 0⟩)) ∧
    (2 ^ s.cfg.ptrW < q + k → runAct (.command w a0 a1) s = .refused .regionWraps) ∧
    (q + k ≤ 2 ^ s.cfg.ptrW → s.cfg.onDevice q k = true → runAct (.command w a0 a1) s = .refused .deviceRegion)) ∧
  (∀ (s : State) (w : Word) (a0 a1 : Nat), decode ⟨.cmd, w, a0, a1⟩ = .ok .sError →
    runAct (.command w a0 a1) s = .next { s with events := s.events ++ [.callbackResult s.slave.err.code.toNat] }) ∧
  (∀ (s : State) (w : Word) (a0 a1 : Nat), decode ⟨.cmd, w, a0, a1⟩ = .ok .sHasError →
    runAct (.command w a0 a1) s = .next {
      s with
      events := s.events ++ [.callbackResult (if s.slave.err = .ok then 0 else 1)] }) ∧
  (∀ (s : State) (w : Word) (a0 a1 : Nat) (i : Instr), decode ⟨.cmd, w, a0, a1⟩ = .ok i →
    (∀ p n, i ≠ .sSetRxBuffer p n ∧ i ≠ .sSetTxBuffer p n) → i ≠ .sError → i ≠ .sHasError →
    runAct (.command w a0 a1) s = .refused .notPermittedInUpcall) ∧
  (∀ (s : State) (w : Word) (a0 a1 : Nat) (e : DecodeError), decode ⟨.cmd, w, a0, a1⟩ = .error e →
    runAct (.command w a0 a1) s = .refused (.notAccepted e)) ∧
  (∀ (s : State) (a x : Nat), x = a % 2 ^ s.cfg.ptrW →
    (s.cfg.onDevice x 1 = false →
      runAct (.memRead a) s = .next { s with events := s.events ++ [.callbackResult (memRead s.mem x).toNat] }) ∧
    (s.cfg.onDevice x 1 = true → runAct (.memRead a) s = .refused .deviceRegion)) ∧
  (∀ (s : State) (a x : Nat) (b : Byte), x = a % 2 ^ s.cfg.ptrW →
    (s.cfg.onDevice x 1 = false → runAct (.memWrite a b) s = .next { s with mem := memWrite s.mem x b }) ∧
    (s.cfg.onDevice x 1 = true → runAct (.memWrite a b) s = .refused .deviceRegion)) ∧
  (∀ (s t : State) (a : HostAct) (rest : List HostAct), runAct a s = .next t → runActs (a :: rest) s = runActs rest t) ∧
  (∀ (s : State) (a : HostAct) (rest : List HostAct) (r : Refusal), runAct a s = .refused r →
    runActs (a :: rest) s = .refused r)

/-- Tier 1. R105, R116, R130, R175, R182: the three output events as steps of their own (log 14). -/
def Obligations.OutputEvents : Prop :=
  (∀ s : State, exec .mChannelReset s = .next {
    s with
    master := { s.master with
      txq := [], rxq := [], busy := false, held := false, stopFlag := false, nakFlag := false,
      arbFlag := false, ferrFlag := false, pltFlag := false },
    res := none, events := s.events ++ [.mChannelReset] }) ∧
  (∀ s : State, exec .mRecoveryPulses s = .next {
    s with
    res := none, events := s.events ++ [.mRecoveryPulses s.cfg.recoveryPulses] }) ∧
  (∀ s : State, exec .sChannelReset s = .next { s with res := none, events := s.events ++ [.sChannelReset] })

/-! ### Memory and errors over all instructions -/

/-- Tier 2. R42: caller memory changes only at addresses inside the region of the buffer a `BB_WRITE` writes: its own
buffer's, `m_buf`'s in a master pass, `s_rxbuf`'s in a slave pass whose callbacks write nothing themselves; no other
instruction changes a byte. -/
def Obligations.MemoryWrittenOnlyInsideBoundRegion : Prop :=
  (∀ (s t : State) (sel : BufSel) (x : Byte) (a : Nat), (s.buf sel).Ok s.cfg → exec (.bbWrite sel x) s = .next t →
    ¬ inRegion (s.buf sel) a → memRead t.mem a = memRead s.mem a) ∧
  (∀ (s t : State) (a : Nat), s.master.buf.Ok s.cfg → exec .mIsr s = .next t → ¬ inRegion s.master.buf a →
    memRead t.mem a = memRead s.mem a) ∧
  (∀ (s t : State) (a : Nat), s.slave.rxbuf.Ok s.cfg → quietCallbacks s → exec .sIsr s = .next t →
    ¬ inRegion s.slave.rxbuf a → memRead t.mem a = memRead s.mem a) ∧
  (∀ (s t : State) (i : Instr), i = .upAfterReceive ∨ i = .upBeforeTransmit ∨ i = .upAfterTransmit → quietCallbacks s →
    exec i s = .next t → t.mem = s.mem) ∧
  (∀ (s t : State) (i : Instr), i.mayStore = false → exec i s = .next t → t.mem = s.mem)

/-- Tier 2. R218: of all instructions only a transfer command that passes its readiness test clears the master's error, and
only a listen command the slave's. -/
def Obligations.ErrorClearedOnlyByStartOrListen : Prop :=
  ∀ (i : Instr) (s t : State), exec i s = .next t →
    (s.master.err ≠ .ok → t.master.err = .ok →
      finished s.cfg s.master = true ∧ ∃ a p n st, i = .mWriteAsync a p n st ∨ i = .mReadAsync a p n st) ∧
    (s.slave.err ≠ .ok → t.slave.err = .ok → ∃ a b, i = .sListen a ∨ i = .sListen2 a b ∨ i = .sListenRange a b)

end
end

