-- ==== Sys2Proof/Laws/Encoding.lean ====
section
/-! SUPPORT. The fields of encoded words, read back (30_encoding.md rules R56, R62), and which rows they are instances of. -/

namespace Sys2Proof

/-! ### Command headers (R56) -/

@[simp] theorem cmdOp_cmdWord (op : BitVec 8) (a : Addr) (s : Bool) (b : Addr) : cmdOp (cmdWord op a s b) = op := by
  unfold cmdOp cmdWord
  ext i hi
  interval_cases i <;> simp

@[simp] theorem cmdA_cmdWord (op : BitVec 8) (a : Addr) (s : Bool) (b : Addr) : cmdA (cmdWord op a s b) = a := by
  unfold cmdA cmdWord
  ext i hi
  interval_cases i <;> simp

@[simp] theorem cmdS_cmdWord (op : BitVec 8) (a : Addr) (s : Bool) (b : Addr) : cmdS (cmdWord op a s b) = s := by
  unfold cmdS cmdWord
  simp

@[simp] theorem cmdB_cmdWord (op : BitVec 8) (a : Addr) (s : Bool) (b : Addr) : cmdB (cmdWord op a s b) = b := by
  unfold cmdB cmdWord
  ext i hi
  interval_cases i <;> simp

/-- A header whose bits 31:23 are zero is the one its fields make. -/
theorem cmdWord_fields (w : Word) (h : w &&& 0xFF800000#32 = 0#32) :
    cmdWord (cmdOp w) (cmdA w) (cmdS w) (cmdB w) = w := by
  unfold cmdWord cmdOp cmdA cmdS cmdB
  ext i hi
  have hh := congrArg (fun x => x.getLsbD i) h
  simp at hh
  interval_cases i <;> simp_all

theorem cmdWord_maskH (op : BitVec 8) : cmdWord op 0#7 false 0#7 &&& maskH = op.setWidth 32 := by
  unfold cmdWord maskH
  ext i hi
  interval_cases i <;> simp

theorem cmdWord_maskHA (op : BitVec 8) (a : Addr) : cmdWord op a false 0#7 &&& maskHA = op.setWidth 32 := by
  unfold cmdWord maskHA
  ext i hi
  interval_cases i <;> simp

theorem cmdWord_maskHAB (op : BitVec 8) (a b : Addr) : cmdWord op a false b &&& maskHAB = op.setWidth 32 := by
  unfold cmdWord maskHAB
  ext i hi
  interval_cases i <;> simp

theorem cmdWord_maskHASPL (op : BitVec 8) (a : Addr) (s : Bool) : cmdWord op a s 0#7 &&& maskHASPL = op.setWidth 32 := by
  unfold cmdWord maskHASPL
  ext i hi
  interval_cases i <;> simp

/-! ### Transmit words (R62) -/

theorem txwTransmit_mask (d : Byte) : (txwTransmitWord d).setWidth 32 &&& 0x700#32 = 0x000#32 := by
  have h : ∀ d : Byte, (txwTransmitWord d).setWidth 32 &&& 0x700#32 = 0x000#32 := by decide
  exact h d

theorem txwReceive_mask (n : Nat) : (txwReceiveWord n).setWidth 32 &&& 0x700#32 = 0x100#32 := by
  have h : ∀ d : Byte, (0b001#3 ++ d).setWidth 32 &&& 0x700#32 = 0x100#32 := by decide
  exact h _

theorem txwStart_mask (a : Addr) (d : Dir) : (txwStartWord a d).setWidth 32 &&& 0x700#32 = 0x400#32 := by
  have h : ∀ (a : Addr) (b : Bool), (((0b100#3 ++ a) ++ BitVec.ofBool b : BitVec 11)).setWidth 32 &&& 0x700#32 = 0x400#32 := by
    decide
  exact h a _

@[simp] theorem txwData_transmit (d : Byte) : txwData (txwTransmitWord d) = d := by
  unfold txwData txwTransmitWord
  exact BitVec.extractLsb'_append_eq_right

@[simp] theorem txwData_receive (n : Nat) : txwData (txwReceiveWord n) = BitVec.ofNat 8 (n - 1) := by
  unfold txwData txwReceiveWord
  exact BitVec.extractLsb'_append_eq_right

/-- The address and the direction of a START word. -/
theorem txwData_start (a : Addr) (d : Dir) : (txwData (txwStartWord a d)).extractLsb' 1 7 = a ∧
    (txwData (txwStartWord a d)).getLsbD 0 = dirBit d := by
  have h : ∀ (a : Addr) (b : Bool), (txwData ((0b100#3 ++ a) ++ BitVec.ofBool b)).extractLsb' 1 7 = a ∧
      (txwData ((0b100#3 ++ a) ++ BitVec.ofBool b)).getLsbD 0 = b := by decide
  exact h a (dirBit d)

/-! ### Operand words (log 9), read back -/

@[simp] theorem byteOperand_toNat (b : Byte) : byteOperand b.toNat = .ok b := by
  simp [byteOperand, b.isLt]

@[simp] theorem addrOperand_toNat (a : Addr) : addrOperand a.toNat = .ok a := by
  simp [addrOperand, a.isLt]

@[simp] theorem bitOperand_bitWord (b : Bool) : bitOperand (bitWord b) = .ok b := by cases b <;> rfl

@[simp] theorem flagOperand_flagWord (f : MFlag) : flagOperand (flagWord f) = .ok f := by cases f <;> rfl

@[simp] theorem levelOperand_levelWord (l : MLevel) : levelOperand (levelWord l) = .ok l := by cases l <;> rfl

@[simp] theorem dirOfBit_dirBit (d : Dir) : dirOfBit (dirBit d) = d := by cases d <;> rfl

@[simp] theorem dirBit_dirOfBit (b : Bool) : dirBit (dirOfBit b) = b := by cases b <;> rfl

@[simp] theorem decodeSel_selBits (sel : BufSel) : decodeSel (selBits sel).toNat = .ok sel := by cases sel <;> rfl

/-! ### The decoder on each kind of word -/

/-- A transmit word within its 11 bits. -/
@[simp] theorem decode_encodeTx (w : BitVec 11) : decode (encodeTx w) = decodeTxw w := by
  have h1 : (w.setWidth 32 : Word).toNat < 2048 := by
    rw [BitVec.toNat_setWidth]
    exact lt_of_le_of_lt (Nat.mod_le _ _) w.isLt
  have h2 : (w.setWidth 32 : Word).setWidth 11 = w := by
    rw [BitVec.setWidth_setWidth_of_le _ (by omega), BitVec.setWidth_eq]
  simp only [decode, encodeTx, h1, h2, if_true]

/-- A micro-operation's two fields. -/
theorem decode_uop (b : BitVec 2) (u : BitVec 4) (a0 a1 : Nat) : decode ⟨.uop, (b ++ u).setWidth 32, a0, a1⟩ =
    match decodeSel b.toNat with
    | .ok sel => decodeUopOn u.toNat sel a0 a1
    | .error e => .error e := by
  have h : ∀ (b : BitVec 2) (u : BitVec 4), ((b ++ u).setWidth 32 : Word).toNat < 64 ∧
      ((b ++ u).setWidth 32 : Word).extractLsb' 4 2 = b ∧ ((b ++ u).setWidth 32 : Word).extractLsb' 0 4 = u := by decide
  obtain ⟨h1, h2, h3⟩ := h b u
  cases hs : decodeSel b.toNat <;> simp only [decode, decodeUop, h1, h2, h3, hs, if_true]

@[simp] theorem decode_encodeUop (u : BitVec 4) (sel : BufSel) (a0 a1 : Nat) :
    decode (encodeUop u sel a0 a1) = decodeUopOn u.toNat sel a0 a1 := by
  rw [encodeUop, decode_uop, decodeSel_selBits]

/-! ### Micro-operations (R70) -/

theorem uop_mask (sel : BufSel) (u : BitVec 4) : (selBits sel ++ u).setWidth 32 &&& 0x0F#32 = u.setWidth 32 := by
  have h : ∀ (b : BitVec 2) (u : BitVec 4), (b ++ u).setWidth 32 &&& 0x0F#32 = u.setWidth 32 := by decide
  exact h _ u

/-! ### Events (R71) -/

/-- The mask of an event compares its whole code. -/
theorem ev_mask (ev : Byte) : ev.setWidth 32 &&& 0xFF#32 = ev.setWidth 32 := by
  have h : ∀ ev : Byte, ev.setWidth 32 &&& 0xFF#32 = ev.setWidth 32 := by decide
  exact h ev

end Sys2Proof
end

