-- ==== Sys2Proof/Laws/Memory.lean ====
section
/-! SUPPORT. The laws of caller memory (20_memory.md rules R41, R42): a read after a write, the other addresses, and the canonical
form of the list. -/

namespace Sys2Proof.Machine

/-- The byte just stored is the byte listed. -/
@[simp] theorem memLookup_memStore_same (m : Mem) (a : Nat) (b : Byte) : memLookup (memStore m a b) a = some b := by
  induction m with
  | nil => simp [memStore, memLookup]
  | cons c rest ih =>
    by_cases h1 : a < c.1
    · simp [memStore, memLookup, h1]
    · by_cases h2 : c.1 = a
      · simp [memStore, memLookup, h2]
      · simp [memStore, memLookup, h1, h2, ih]

/-- A store leaves every other address alone. -/
theorem memLookup_memStore_ne (m : Mem) (a x : Nat) (b : Byte) (h : x ≠ a) :
    memLookup (memStore m a b) x = memLookup m x := by
  induction m with
  | nil => simp [memStore, memLookup, h.symm]
  | cons c rest ih =>
    by_cases h1 : a < c.1
    · simp [memStore, memLookup, h1, h.symm]
    · by_cases h2 : c.1 = a
      · simp [memStore, memLookup, h2, h.symm]
      · simp [memStore, memLookup, h1, h2, ih]

/-- What a read gives after a write of one byte. -/
theorem memRead_memWrite (m : Mem) (a x : Nat) (v : Byte) :
    memRead (memWrite m a v) x = if x = a then v else memRead m x := by
  by_cases h : x = a
  · simp [h, memRead, memWrite]
  · simp [h, memRead, memWrite, memLookup_memStore_ne m a x v h]

/-- A byte nothing has written reads as the free value of its address. -/
@[simp] theorem memRead_nil (x : Nat) : memRead [] x = Config.unwrittenByte x := rfl

/-- The canonical form of a list with a first entry. -/
theorem memWf_cons (w : Nat) (c : Host.Cell) (rest : Mem) :
    memWf w (c :: rest) = true ↔
      c.1 < 2 ^ w ∧ (∀ d ∈ rest.head?, c.1 < d.1) ∧ memWf w rest = true := by
  cases rest with
  | nil => simp [memWf]
  | cons d r => simp [memWf, and_assoc]

/-- The first entry after a store is the stored one or the old first one. -/
theorem head?_memStore (m : Mem) (a : Nat) (b : Byte) (d : Host.Cell) (h : d ∈ (memStore m a b).head?) :
    d.1 = a ∨ d ∈ m.head? := by
  cases m with
  | nil => simp [memStore] at h; simp [← h]
  | cons c rest =>
    simp only [memStore] at h
    split at h
    · simp at h; simp [← h]
    · split at h <;> simp at h <;> simp [← h]

/-- A store keeps the canonical form. -/
theorem memWf_memStore {w : Nat} (m : Mem) (a : Nat) (b : Byte) (ha : a < 2 ^ w) (hm : memWf w m = true) :
    memWf w (memStore m a b) = true := by
  induction m with
  | nil => simpa [memStore, memWf] using ha
  | cons c rest ih =>
    have hc := (memWf_cons w c rest).mp hm
    by_cases h1 : a < c.1
    · simp only [memStore, h1, if_true]
      exact (memWf_cons _ _ _).mpr ⟨ha, by simpa using h1, hm⟩
    · by_cases h2 : c.1 = a
      · subst h2
        simp only [memStore, h1, if_true, if_false]
        exact (memWf_cons _ _ _).mpr ⟨ha, hc.2.1, hc.2.2⟩
      · simp only [memStore, h1, h2, if_false]
        refine (memWf_cons _ _ _).mpr ⟨hc.1, fun d hd => ?_, ih hc.2.2⟩
        rcases head?_memStore rest a b d hd with e | e
        · omega
        · exact hc.2.1 d e

/-- A write of one byte keeps the canonical form. -/
theorem memWf_memWrite {w : Nat} (m : Mem) (a : Nat) (v : Byte) (ha : a < 2 ^ w) (hm : memWf w m = true) :
    memWf w (memWrite m a v) = true :=
  memWf_memStore m a v ha hm

/-- The empty memory of reset is canonical. -/
theorem memWf_nil (w : Nat) : memWf w [] = true := rfl

end Sys2Proof.Machine
end

