-- ==== Sys2Proof/Laws/State.lean ====
section
/-! SUPPORT. One lemma per field per update of the state, true by unfolding the update, so that no later proof unfolds a record
update. -/

namespace Sys2Proof.Machine

/-! ### Updates of the whole state -/

@[simp] theorem State.mapMaster_cfg (s : State) (f : Master → Master) : (s.mapMaster f).cfg = s.cfg := rfl
@[simp] theorem State.mapMaster_master (s : State) (f : Master → Master) : (s.mapMaster f).master = f s.master := rfl
@[simp] theorem State.mapMaster_slave (s : State) (f : Master → Master) : (s.mapMaster f).slave = s.slave := rfl
@[simp] theorem State.mapMaster_mem (s : State) (f : Master → Master) : (s.mapMaster f).mem = s.mem := rfl
@[simp] theorem State.mapMaster_res (s : State) (f : Master → Master) : (s.mapMaster f).res = s.res := rfl
@[simp] theorem State.mapMaster_events (s : State) (f : Master → Master) : (s.mapMaster f).events = s.events := rfl
@[simp] theorem State.mapMaster_callbacks (s : State) (f : Master → Master) : (s.mapMaster f).callbacks = s.callbacks := rfl
@[simp] theorem State.mapMaster_pending (s : State) (f : Master → Master) : (s.mapMaster f).pending = s.pending := rfl

@[simp] theorem State.mapSlave_cfg (s : State) (f : Slave → Slave) : (s.mapSlave f).cfg = s.cfg := rfl
@[simp] theorem State.mapSlave_master (s : State) (f : Slave → Slave) : (s.mapSlave f).master = s.master := rfl
@[simp] theorem State.mapSlave_slave (s : State) (f : Slave → Slave) : (s.mapSlave f).slave = f s.slave := rfl
@[simp] theorem State.mapSlave_mem (s : State) (f : Slave → Slave) : (s.mapSlave f).mem = s.mem := rfl
@[simp] theorem State.mapSlave_res (s : State) (f : Slave → Slave) : (s.mapSlave f).res = s.res := rfl
@[simp] theorem State.mapSlave_events (s : State) (f : Slave → Slave) : (s.mapSlave f).events = s.events := rfl
@[simp] theorem State.mapSlave_callbacks (s : State) (f : Slave → Slave) : (s.mapSlave f).callbacks = s.callbacks := rfl
@[simp] theorem State.mapSlave_pending (s : State) (f : Slave → Slave) : (s.mapSlave f).pending = s.pending := rfl

@[simp] theorem State.withRes_cfg (s : State) (r : Option Nat) : (s.withRes r).cfg = s.cfg := rfl
@[simp] theorem State.withRes_master (s : State) (r : Option Nat) : (s.withRes r).master = s.master := rfl
@[simp] theorem State.withRes_slave (s : State) (r : Option Nat) : (s.withRes r).slave = s.slave := rfl
@[simp] theorem State.withRes_mem (s : State) (r : Option Nat) : (s.withRes r).mem = s.mem := rfl
@[simp] theorem State.withRes_res (s : State) (r : Option Nat) : (s.withRes r).res = r := rfl
@[simp] theorem State.withRes_events (s : State) (r : Option Nat) : (s.withRes r).events = s.events := rfl
@[simp] theorem State.withRes_callbacks (s : State) (r : Option Nat) : (s.withRes r).callbacks = s.callbacks := rfl
@[simp] theorem State.withRes_pending (s : State) (r : Option Nat) : (s.withRes r).pending = s.pending := rfl

@[simp] theorem State.memWrite_cfg (s : State) (a : Nat) (v : Byte) : (s.memWrite a v).cfg = s.cfg := rfl
@[simp] theorem State.memWrite_master (s : State) (a : Nat) (v : Byte) : (s.memWrite a v).master = s.master := rfl
@[simp] theorem State.memWrite_slave (s : State) (a : Nat) (v : Byte) : (s.memWrite a v).slave = s.slave := rfl
@[simp] theorem State.memWrite_mem (s : State) (a : Nat) (v : Byte) : (s.memWrite a v).mem = Machine.memWrite s.mem a v := rfl
@[simp] theorem State.memWrite_res (s : State) (a : Nat) (v : Byte) : (s.memWrite a v).res = s.res := rfl
@[simp] theorem State.memWrite_events (s : State) (a : Nat) (v : Byte) : (s.memWrite a v).events = s.events := rfl
@[simp] theorem State.memWrite_callbacks (s : State) (a : Nat) (v : Byte) : (s.memWrite a v).callbacks = s.callbacks := rfl
@[simp] theorem State.memWrite_pending (s : State) (a : Nat) (v : Byte) : (s.memWrite a v).pending = s.pending := rfl

@[simp] theorem emit_cfg (e : OutEvent) (s : State) : (emit e s).cfg = s.cfg := rfl
@[simp] theorem emit_master (e : OutEvent) (s : State) : (emit e s).master = s.master := rfl
@[simp] theorem emit_slave (e : OutEvent) (s : State) : (emit e s).slave = s.slave := rfl
@[simp] theorem emit_mem (e : OutEvent) (s : State) : (emit e s).mem = s.mem := rfl
@[simp] theorem emit_res (e : OutEvent) (s : State) : (emit e s).res = s.res := rfl
@[simp] theorem emit_events (e : OutEvent) (s : State) : (emit e s).events = s.events ++ [e] := rfl
@[simp] theorem emit_callbacks (e : OutEvent) (s : State) : (emit e s).callbacks = s.callbacks := rfl
@[simp] theorem emit_pending (e : OutEvent) (s : State) : (emit e s).pending = s.pending := rfl

@[simp] theorem mRaise_cfg (e : ErrorCode) (s : State) : (mRaise e s).cfg = s.cfg := rfl
@[simp] theorem mRaise_master (e : ErrorCode) (s : State) : (mRaise e s).master = { s.master with err := e } := rfl
@[simp] theorem mRaise_slave (e : ErrorCode) (s : State) : (mRaise e s).slave = s.slave := rfl
@[simp] theorem mRaise_mem (e : ErrorCode) (s : State) : (mRaise e s).mem = s.mem := rfl
@[simp] theorem mRaise_res (e : ErrorCode) (s : State) : (mRaise e s).res = s.res := rfl
@[simp] theorem mRaise_events (e : ErrorCode) (s : State) : (mRaise e s).events = s.events := rfl
@[simp] theorem mRaise_callbacks (e : ErrorCode) (s : State) : (mRaise e s).callbacks = s.callbacks := rfl
@[simp] theorem mRaise_pending (e : ErrorCode) (s : State) : (mRaise e s).pending = s.pending := rfl

@[simp] theorem sRaise_cfg (e : ErrorCode) (s : State) : (sRaise e s).cfg = s.cfg := rfl
@[simp] theorem sRaise_master (e : ErrorCode) (s : State) : (sRaise e s).master = s.master := rfl
@[simp] theorem sRaise_slave (e : ErrorCode) (s : State) : (sRaise e s).slave = { s.slave with err := e } := rfl
@[simp] theorem sRaise_mem (e : ErrorCode) (s : State) : (sRaise e s).mem = s.mem := rfl
@[simp] theorem sRaise_res (e : ErrorCode) (s : State) : (sRaise e s).res = s.res := rfl
@[simp] theorem sRaise_events (e : ErrorCode) (s : State) : (sRaise e s).events = s.events := rfl
@[simp] theorem sRaise_callbacks (e : ErrorCode) (s : State) : (sRaise e s).callbacks = s.callbacks := rfl
@[simp] theorem sRaise_pending (e : ErrorCode) (s : State) : (sRaise e s).pending = s.pending := rfl

/-! ### Updates of a buffer -/

@[simp] theorem State.setBuf_cfg (s : State) (sel : BufSel) (b : ByteBuffer) : (s.setBuf sel b).cfg = s.cfg := by
  cases sel <;> rfl
@[simp] theorem State.setBuf_mem (s : State) (sel : BufSel) (b : ByteBuffer) : (s.setBuf sel b).mem = s.mem := by
  cases sel <;> rfl
@[simp] theorem State.setBuf_res (s : State) (sel : BufSel) (b : ByteBuffer) : (s.setBuf sel b).res = s.res := by
  cases sel <;> rfl
@[simp] theorem State.setBuf_events (s : State) (sel : BufSel) (b : ByteBuffer) : (s.setBuf sel b).events = s.events := by
  cases sel <;> rfl
@[simp] theorem State.setBuf_callbacks (s : State) (sel : BufSel) (b : ByteBuffer) : (s.setBuf sel b).callbacks = s.callbacks := by
  cases sel <;> rfl
@[simp] theorem State.setBuf_pending (s : State) (sel : BufSel) (b : ByteBuffer) : (s.setBuf sel b).pending = s.pending := by
  cases sel <;> rfl

@[simp] theorem State.setBuf_buf (s : State) (sel : BufSel) (b : ByteBuffer) : (s.setBuf sel b).buf sel = b := by
  cases sel <;> rfl

theorem State.setBuf_buf_ne (s : State) (sel sel' : BufSel) (b : ByteBuffer) (h : sel' ≠ sel) :
    (s.setBuf sel b).buf sel' = s.buf sel' := by
  cases sel <;> cases sel' <;> first | rfl | exact absurd rfl h

@[simp] theorem State.buf_withRes (s : State) (r : Option Nat) (sel : BufSel) : (s.withRes r).buf sel = s.buf sel := by
  cases sel <;> rfl

@[simp] theorem State.buf_memWrite (s : State) (a : Nat) (v : Byte) (sel : BufSel) :
    (s.memWrite a v).buf sel = s.buf sel := by
  cases sel <;> rfl

@[simp] theorem State.buf_mBuf (s : State) : s.buf .mBuf = s.master.buf := rfl

@[simp] theorem State.buf_sRxBuf (s : State) : s.buf .sRxBuf = s.slave.rxbuf := rfl

@[simp] theorem State.buf_sTxBuf (s : State) : s.buf .sTxBuf = s.slave.txbuf := rfl

/-! ### Updates of the master engine -/

@[simp] theorem clearTdie_state (m : Master) : (clearTdie m).state = m.state := rfl
@[simp] theorem clearTdie_dir (m : Master) : (clearTdie m).dir = m.dir := rfl
@[simp] theorem clearTdie_sendStop (m : Master) : (clearTdie m).sendStop = m.sendStop := rfl
@[simp] theorem clearTdie_err (m : Master) : (clearTdie m).err = m.err := rfl
@[simp] theorem clearTdie_buf (m : Master) : (clearTdie m).buf = m.buf := rfl
@[simp] theorem clearTdie_freq (m : Master) : (clearTdie m).freq = m.freq := rfl
@[simp] theorem clearTdie_cls (m : Master) : (clearTdie m).cls = m.cls := rfl
@[simp] theorem clearTdie_en (m : Master) : (clearTdie m).en = m.en := rfl
@[simp] theorem clearTdie_irqEn (m : Master) : (clearTdie m).irqEn = m.irqEn := rfl
@[simp] theorem clearTdie_ier (m : Master) : (clearTdie m).ier = m.ier &&& 0x7E#7 := rfl
@[simp] theorem clearTdie_txq (m : Master) : (clearTdie m).txq = m.txq := rfl
@[simp] theorem clearTdie_rxq (m : Master) : (clearTdie m).rxq = m.rxq := rfl
@[simp] theorem clearTdie_stopFlag (m : Master) : (clearTdie m).stopFlag = m.stopFlag := rfl
@[simp] theorem clearTdie_nakFlag (m : Master) : (clearTdie m).nakFlag = m.nakFlag := rfl
@[simp] theorem clearTdie_arbFlag (m : Master) : (clearTdie m).arbFlag = m.arbFlag := rfl
@[simp] theorem clearTdie_ferrFlag (m : Master) : (clearTdie m).ferrFlag = m.ferrFlag := rfl
@[simp] theorem clearTdie_pltFlag (m : Master) : (clearTdie m).pltFlag = m.pltFlag := rfl
@[simp] theorem clearTdie_busy (m : Master) : (clearTdie m).busy = m.busy := rfl
@[simp] theorem clearTdie_held (m : Master) : (clearTdie m).held = m.held := rfl
@[simp] theorem clearTdie_pltc (m : Master) : (clearTdie m).pltc = m.pltc := rfl
@[simp] theorem clearTdie_padPending (m : Master) : (clearTdie m).padPending = m.padPending := rfl
@[simp] theorem clearTdie_padApplied (m : Master) : (clearTdie m).padApplied = m.padApplied := rfl

@[simp] theorem setTdie_state (m : Master) : (setTdie m).state = m.state := rfl
@[simp] theorem setTdie_dir (m : Master) : (setTdie m).dir = m.dir := rfl
@[simp] theorem setTdie_sendStop (m : Master) : (setTdie m).sendStop = m.sendStop := rfl
@[simp] theorem setTdie_err (m : Master) : (setTdie m).err = m.err := rfl
@[simp] theorem setTdie_buf (m : Master) : (setTdie m).buf = m.buf := rfl
@[simp] theorem setTdie_freq (m : Master) : (setTdie m).freq = m.freq := rfl
@[simp] theorem setTdie_cls (m : Master) : (setTdie m).cls = m.cls := rfl
@[simp] theorem setTdie_en (m : Master) : (setTdie m).en = m.en := rfl
@[simp] theorem setTdie_irqEn (m : Master) : (setTdie m).irqEn = m.irqEn := rfl
@[simp] theorem setTdie_ier (m : Master) : (setTdie m).ier = m.ier ||| 0x01#7 := rfl
@[simp] theorem setTdie_txq (m : Master) : (setTdie m).txq = m.txq := rfl
@[simp] theorem setTdie_rxq (m : Master) : (setTdie m).rxq = m.rxq := rfl
@[simp] theorem setTdie_stopFlag (m : Master) : (setTdie m).stopFlag = m.stopFlag := rfl
@[simp] theorem setTdie_nakFlag (m : Master) : (setTdie m).nakFlag = m.nakFlag := rfl
@[simp] theorem setTdie_arbFlag (m : Master) : (setTdie m).arbFlag = m.arbFlag := rfl
@[simp] theorem setTdie_ferrFlag (m : Master) : (setTdie m).ferrFlag = m.ferrFlag := rfl
@[simp] theorem setTdie_pltFlag (m : Master) : (setTdie m).pltFlag = m.pltFlag := rfl
@[simp] theorem setTdie_busy (m : Master) : (setTdie m).busy = m.busy := rfl
@[simp] theorem setTdie_held (m : Master) : (setTdie m).held = m.held := rfl
@[simp] theorem setTdie_pltc (m : Master) : (setTdie m).pltc = m.pltc := rfl
@[simp] theorem setTdie_padPending (m : Master) : (setTdie m).padPending = m.padPending := rfl
@[simp] theorem setTdie_padApplied (m : Master) : (setTdie m).padApplied = m.padApplied := rfl

@[simp] theorem clearFlags_state (m : Master) : (clearFlags m).state = m.state := rfl
@[simp] theorem clearFlags_dir (m : Master) : (clearFlags m).dir = m.dir := rfl
@[simp] theorem clearFlags_sendStop (m : Master) : (clearFlags m).sendStop = m.sendStop := rfl
@[simp] theorem clearFlags_err (m : Master) : (clearFlags m).err = m.err := rfl
@[simp] theorem clearFlags_buf (m : Master) : (clearFlags m).buf = m.buf := rfl
@[simp] theorem clearFlags_freq (m : Master) : (clearFlags m).freq = m.freq := rfl
@[simp] theorem clearFlags_cls (m : Master) : (clearFlags m).cls = m.cls := rfl
@[simp] theorem clearFlags_en (m : Master) : (clearFlags m).en = m.en := rfl
@[simp] theorem clearFlags_irqEn (m : Master) : (clearFlags m).irqEn = m.irqEn := rfl
@[simp] theorem clearFlags_ier (m : Master) : (clearFlags m).ier = m.ier := rfl
@[simp] theorem clearFlags_txq (m : Master) : (clearFlags m).txq = m.txq := rfl
@[simp] theorem clearFlags_rxq (m : Master) : (clearFlags m).rxq = m.rxq := rfl
@[simp] theorem clearFlags_stopFlag (m : Master) : (clearFlags m).stopFlag = false := rfl
@[simp] theorem clearFlags_nakFlag (m : Master) : (clearFlags m).nakFlag = false := rfl
@[simp] theorem clearFlags_arbFlag (m : Master) : (clearFlags m).arbFlag = false := rfl
@[simp] theorem clearFlags_ferrFlag (m : Master) : (clearFlags m).ferrFlag = false := rfl
@[simp] theorem clearFlags_pltFlag (m : Master) : (clearFlags m).pltFlag = false := rfl
@[simp] theorem clearFlags_busy (m : Master) : (clearFlags m).busy = m.busy := rfl
@[simp] theorem clearFlags_held (m : Master) : (clearFlags m).held = m.held := rfl
@[simp] theorem clearFlags_pltc (m : Master) : (clearFlags m).pltc = m.pltc := rfl
@[simp] theorem clearFlags_padPending (m : Master) : (clearFlags m).padPending = m.padPending := rfl
@[simp] theorem clearFlags_padApplied (m : Master) : (clearFlags m).padApplied = m.padApplied := rfl

@[simp] theorem flushMaster_state (m : Master) : (flushMaster m).state = m.state := rfl
@[simp] theorem flushMaster_dir (m : Master) : (flushMaster m).dir = m.dir := rfl
@[simp] theorem flushMaster_sendStop (m : Master) : (flushMaster m).sendStop = m.sendStop := rfl
@[simp] theorem flushMaster_err (m : Master) : (flushMaster m).err = m.err := rfl
@[simp] theorem flushMaster_buf (m : Master) : (flushMaster m).buf = m.buf := rfl
@[simp] theorem flushMaster_freq (m : Master) : (flushMaster m).freq = m.freq := rfl
@[simp] theorem flushMaster_cls (m : Master) : (flushMaster m).cls = m.cls := rfl
@[simp] theorem flushMaster_en (m : Master) : (flushMaster m).en = m.en := rfl
@[simp] theorem flushMaster_irqEn (m : Master) : (flushMaster m).irqEn = m.irqEn := rfl
@[simp] theorem flushMaster_ier (m : Master) : (flushMaster m).ier = m.ier := rfl
@[simp] theorem flushMaster_txq (m : Master) : (flushMaster m).txq = [] := rfl
@[simp] theorem flushMaster_rxq (m : Master) : (flushMaster m).rxq = [] := rfl
@[simp] theorem flushMaster_stopFlag (m : Master) : (flushMaster m).stopFlag = m.stopFlag := rfl
@[simp] theorem flushMaster_nakFlag (m : Master) : (flushMaster m).nakFlag = m.nakFlag := rfl
@[simp] theorem flushMaster_arbFlag (m : Master) : (flushMaster m).arbFlag = m.arbFlag := rfl
@[simp] theorem flushMaster_ferrFlag (m : Master) : (flushMaster m).ferrFlag = m.ferrFlag := rfl
@[simp] theorem flushMaster_pltFlag (m : Master) : (flushMaster m).pltFlag = m.pltFlag := rfl
@[simp] theorem flushMaster_busy (m : Master) : (flushMaster m).busy = m.busy := rfl
@[simp] theorem flushMaster_held (m : Master) : (flushMaster m).held = m.held := rfl
@[simp] theorem flushMaster_pltc (m : Master) : (flushMaster m).pltc = m.pltc := rfl
@[simp] theorem flushMaster_padPending (m : Master) : (flushMaster m).padPending = m.padPending := rfl
@[simp] theorem flushMaster_padApplied (m : Master) : (flushMaster m).padApplied = m.padApplied := rfl

@[simp] theorem setMFlag_state (f : MFlag) (m : Master) : (setMFlag f m).state = m.state := by
  cases f <;> rfl
@[simp] theorem setMFlag_dir (f : MFlag) (m : Master) : (setMFlag f m).dir = m.dir := by
  cases f <;> rfl
@[simp] theorem setMFlag_sendStop (f : MFlag) (m : Master) : (setMFlag f m).sendStop = m.sendStop := by
  cases f <;> rfl
@[simp] theorem setMFlag_err (f : MFlag) (m : Master) : (setMFlag f m).err = m.err := by
  cases f <;> rfl
@[simp] theorem setMFlag_buf (f : MFlag) (m : Master) : (setMFlag f m).buf = m.buf := by
  cases f <;> rfl
@[simp] theorem setMFlag_freq (f : MFlag) (m : Master) : (setMFlag f m).freq = m.freq := by
  cases f <;> rfl
@[simp] theorem setMFlag_cls (f : MFlag) (m : Master) : (setMFlag f m).cls = m.cls := by
  cases f <;> rfl
@[simp] theorem setMFlag_en (f : MFlag) (m : Master) : (setMFlag f m).en = m.en := by
  cases f <;> rfl
@[simp] theorem setMFlag_irqEn (f : MFlag) (m : Master) : (setMFlag f m).irqEn = m.irqEn := by
  cases f <;> rfl
@[simp] theorem setMFlag_ier (f : MFlag) (m : Master) : (setMFlag f m).ier = m.ier := by
  cases f <;> rfl
@[simp] theorem setMFlag_txq (f : MFlag) (m : Master) : (setMFlag f m).txq = m.txq := by
  cases f <;> rfl
@[simp] theorem setMFlag_rxq (f : MFlag) (m : Master) : (setMFlag f m).rxq = m.rxq := by
  cases f <;> rfl
@[simp] theorem setMFlag_busy (f : MFlag) (m : Master) : (setMFlag f m).busy = m.busy := by
  cases f <;> rfl
@[simp] theorem setMFlag_held (f : MFlag) (m : Master) : (setMFlag f m).held = m.held := by
  cases f <;> rfl
@[simp] theorem setMFlag_pltc (f : MFlag) (m : Master) : (setMFlag f m).pltc = m.pltc := by
  cases f <;> rfl
@[simp] theorem setMFlag_padPending (f : MFlag) (m : Master) : (setMFlag f m).padPending = m.padPending := by
  cases f <;> rfl
@[simp] theorem setMFlag_padApplied (f : MFlag) (m : Master) : (setMFlag f m).padApplied = m.padApplied := by
  cases f <;> rfl

@[simp] theorem setMLevel_state (l : MLevel) (v : Bool) (m : Master) : (setMLevel l v m).state = m.state := by
  cases l <;> rfl
@[simp] theorem setMLevel_dir (l : MLevel) (v : Bool) (m : Master) : (setMLevel l v m).dir = m.dir := by
  cases l <;> rfl
@[simp] theorem setMLevel_sendStop (l : MLevel) (v : Bool) (m : Master) : (setMLevel l v m).sendStop = m.sendStop := by
  cases l <;> rfl
@[simp] theorem setMLevel_err (l : MLevel) (v : Bool) (m : Master) : (setMLevel l v m).err = m.err := by
  cases l <;> rfl
@[simp] theorem setMLevel_buf (l : MLevel) (v : Bool) (m : Master) : (setMLevel l v m).buf = m.buf := by
  cases l <;> rfl
@[simp] theorem setMLevel_freq (l : MLevel) (v : Bool) (m : Master) : (setMLevel l v m).freq = m.freq := by
  cases l <;> rfl
@[simp] theorem setMLevel_cls (l : MLevel) (v : Bool) (m : Master) : (setMLevel l v m).cls = m.cls := by
  cases l <;> rfl
@[simp] theorem setMLevel_en (l : MLevel) (v : Bool) (m : Master) : (setMLevel l v m).en = m.en := by
  cases l <;> rfl
@[simp] theorem setMLevel_irqEn (l : MLevel) (v : Bool) (m : Master) : (setMLevel l v m).irqEn = m.irqEn := by
  cases l <;> rfl
@[simp] theorem setMLevel_ier (l : MLevel) (v : Bool) (m : Master) : (setMLevel l v m).ier = m.ier := by
  cases l <;> rfl
@[simp] theorem setMLevel_txq (l : MLevel) (v : Bool) (m : Master) : (setMLevel l v m).txq = m.txq := by
  cases l <;> rfl
@[simp] theorem setMLevel_rxq (l : MLevel) (v : Bool) (m : Master) : (setMLevel l v m).rxq = m.rxq := by
  cases l <;> rfl
@[simp] theorem setMLevel_stopFlag (l : MLevel) (v : Bool) (m : Master) : (setMLevel l v m).stopFlag = m.stopFlag := by
  cases l <;> rfl
@[simp] theorem setMLevel_nakFlag (l : MLevel) (v : Bool) (m : Master) : (setMLevel l v m).nakFlag = m.nakFlag := by
  cases l <;> rfl
@[simp] theorem setMLevel_arbFlag (l : MLevel) (v : Bool) (m : Master) : (setMLevel l v m).arbFlag = m.arbFlag := by
  cases l <;> rfl
@[simp] theorem setMLevel_ferrFlag (l : MLevel) (v : Bool) (m : Master) : (setMLevel l v m).ferrFlag = m.ferrFlag := by
  cases l <;> rfl
@[simp] theorem setMLevel_pltFlag (l : MLevel) (v : Bool) (m : Master) : (setMLevel l v m).pltFlag = m.pltFlag := by
  cases l <;> rfl
@[simp] theorem setMLevel_padPending (l : MLevel) (v : Bool) (m : Master) : (setMLevel l v m).padPending = m.padPending := by
  cases l <;> rfl
@[simp] theorem setMLevel_padApplied (l : MLevel) (v : Bool) (m : Master) : (setMLevel l v m).padApplied = m.padApplied := by
  cases l <;> rfl

@[simp] theorem takeEffect_state (w : BitVec 11) (m : Master) : (takeEffect w m).state = m.state := by
  unfold takeEffect; split <;> [rfl; split <;> rfl]
@[simp] theorem takeEffect_dir (w : BitVec 11) (m : Master) : (takeEffect w m).dir = m.dir := by
  unfold takeEffect; split <;> [rfl; split <;> rfl]
@[simp] theorem takeEffect_sendStop (w : BitVec 11) (m : Master) : (takeEffect w m).sendStop = m.sendStop := by
  unfold takeEffect; split <;> [rfl; split <;> rfl]
@[simp] theorem takeEffect_err (w : BitVec 11) (m : Master) : (takeEffect w m).err = m.err := by
  unfold takeEffect; split <;> [rfl; split <;> rfl]
@[simp] theorem takeEffect_buf (w : BitVec 11) (m : Master) : (takeEffect w m).buf = m.buf := by
  unfold takeEffect; split <;> [rfl; split <;> rfl]
@[simp] theorem takeEffect_freq (w : BitVec 11) (m : Master) : (takeEffect w m).freq = m.freq := by
  unfold takeEffect; split <;> [rfl; split <;> rfl]
@[simp] theorem takeEffect_cls (w : BitVec 11) (m : Master) : (takeEffect w m).cls = m.cls := by
  unfold takeEffect; split <;> [rfl; split <;> rfl]
@[simp] theorem takeEffect_en (w : BitVec 11) (m : Master) : (takeEffect w m).en = m.en := by
  unfold takeEffect; split <;> [rfl; split <;> rfl]
@[simp] theorem takeEffect_irqEn (w : BitVec 11) (m : Master) : (takeEffect w m).irqEn = m.irqEn := by
  unfold takeEffect; split <;> [rfl; split <;> rfl]
@[simp] theorem takeEffect_ier (w : BitVec 11) (m : Master) : (takeEffect w m).ier = m.ier := by
  unfold takeEffect; split <;> [rfl; split <;> rfl]
@[simp] theorem takeEffect_txq (w : BitVec 11) (m : Master) : (takeEffect w m).txq = m.txq := by
  unfold takeEffect; split <;> [rfl; split <;> rfl]
@[simp] theorem takeEffect_rxq (w : BitVec 11) (m : Master) : (takeEffect w m).rxq = m.rxq := by
  unfold takeEffect; split <;> [rfl; split <;> rfl]
@[simp] theorem takeEffect_nakFlag (w : BitVec 11) (m : Master) : (takeEffect w m).nakFlag = m.nakFlag := by
  unfold takeEffect; split <;> [rfl; split <;> rfl]
@[simp] theorem takeEffect_arbFlag (w : BitVec 11) (m : Master) : (takeEffect w m).arbFlag = m.arbFlag := by
  unfold takeEffect; split <;> [rfl; split <;> rfl]
@[simp] theorem takeEffect_ferrFlag (w : BitVec 11) (m : Master) : (takeEffect w m).ferrFlag = m.ferrFlag := by
  unfold takeEffect; split <;> [rfl; split <;> rfl]
@[simp] theorem takeEffect_pltFlag (w : BitVec 11) (m : Master) : (takeEffect w m).pltFlag = m.pltFlag := by
  unfold takeEffect; split <;> [rfl; split <;> rfl]
@[simp] theorem takeEffect_pltc (w : BitVec 11) (m : Master) : (takeEffect w m).pltc = m.pltc := by
  unfold takeEffect; split <;> [rfl; split <;> rfl]
@[simp] theorem takeEffect_padPending (w : BitVec 11) (m : Master) : (takeEffect w m).padPending = m.padPending := by
  unfold takeEffect; split <;> [rfl; split <;> rfl]
@[simp] theorem takeEffect_padApplied (w : BitVec 11) (m : Master) : (takeEffect w m).padApplied = m.padApplied := by
  unfold takeEffect; split <;> [rfl; split <;> rfl]

/-! ### Updates of the slave engine and of a buffer -/

@[simp] theorem stopListening_state (v : Slave) : (stopListening v).state = .idle := rfl
@[simp] theorem stopListening_err (v : Slave) : (stopListening v).err = v.err := rfl
@[simp] theorem stopListening_addr (v : Slave) : (stopListening v).addr = v.addr := rfl
@[simp] theorem stopListening_trail (v : Slave) : (stopListening v).trail = false := rfl
@[simp] theorem stopListening_rxbuf (v : Slave) : (stopListening v).rxbuf = v.rxbuf := rfl
@[simp] theorem stopListening_txbuf (v : Slave) : (stopListening v).txbuf = v.txbuf := rfl
@[simp] theorem stopListening_cbAfterRx (v : Slave) : (stopListening v).cbAfterRx = v.cbAfterRx := rfl
@[simp] theorem stopListening_cbBeforeTx (v : Slave) : (stopListening v).cbBeforeTx = v.cbBeforeTx := rfl
@[simp] theorem stopListening_cbAfterTx (v : Slave) : (stopListening v).cbAfterTx = v.cbAfterTx := rfl
@[simp] theorem stopListening_listen (v : Slave) : (stopListening v).listen = false := rfl
@[simp] theorem stopListening_mode (v : Slave) : (stopListening v).mode = v.mode := rfl
@[simp] theorem stopListening_match0 (v : Slave) : (stopListening v).match0 = v.match0 := rfl
@[simp] theorem stopListening_match1 (v : Slave) : (stopListening v).match1 = v.match1 := rfl
@[simp] theorem stopListening_ier (v : Slave) : (stopListening v).ier = 0#6 := rfl
@[simp] theorem stopListening_irqEn (v : Slave) : (stopListening v).irqEn = false := rfl
@[simp] theorem stopListening_txq (v : Slave) : (stopListening v).txq = v.txq := rfl
@[simp] theorem stopListening_rxq (v : Slave) : (stopListening v).rxq = v.rxq := rfl
@[simp] theorem stopListening_amFlag (v : Slave) : (stopListening v).amFlag = v.amFlag := rfl
@[simp] theorem stopListening_stopFlag (v : Slave) : (stopListening v).stopFlag = v.stopFlag := rfl
@[simp] theorem stopListening_rsFlag (v : Slave) : (stopListening v).rsFlag = v.rsFlag := rfl
@[simp] theorem stopListening_berrFlag (v : Slave) : (stopListening v).berrFlag = v.berrFlag := rfl
@[simp] theorem stopListening_asr (v : Slave) : (stopListening v).asr = v.asr := rfl
@[simp] theorem stopListening_txreq (v : Slave) : (stopListening v).txreq = v.txreq := rfl
@[simp] theorem stopListening_padPending (v : Slave) : (stopListening v).padPending = v.padPending := rfl
@[simp] theorem stopListening_padApplied (v : Slave) : (stopListening v).padApplied = v.padApplied := rfl
@[simp] theorem stopListening_hung (v : Slave) : (stopListening v).hung = v.hung := rfl

@[simp] theorem clearEof_state (r : SStatus) (v : Slave) : (clearEof r v).state = v.state := rfl
@[simp] theorem clearEof_err (r : SStatus) (v : Slave) : (clearEof r v).err = v.err := rfl
@[simp] theorem clearEof_addr (r : SStatus) (v : Slave) : (clearEof r v).addr = v.addr := rfl
@[simp] theorem clearEof_trail (r : SStatus) (v : Slave) : (clearEof r v).trail = v.trail := rfl
@[simp] theorem clearEof_rxbuf (r : SStatus) (v : Slave) : (clearEof r v).rxbuf = v.rxbuf := rfl
@[simp] theorem clearEof_txbuf (r : SStatus) (v : Slave) : (clearEof r v).txbuf = v.txbuf := rfl
@[simp] theorem clearEof_cbAfterRx (r : SStatus) (v : Slave) : (clearEof r v).cbAfterRx = v.cbAfterRx := rfl
@[simp] theorem clearEof_cbBeforeTx (r : SStatus) (v : Slave) : (clearEof r v).cbBeforeTx = v.cbBeforeTx := rfl
@[simp] theorem clearEof_cbAfterTx (r : SStatus) (v : Slave) : (clearEof r v).cbAfterTx = v.cbAfterTx := rfl
@[simp] theorem clearEof_listen (r : SStatus) (v : Slave) : (clearEof r v).listen = v.listen := rfl
@[simp] theorem clearEof_mode (r : SStatus) (v : Slave) : (clearEof r v).mode = v.mode := rfl
@[simp] theorem clearEof_match0 (r : SStatus) (v : Slave) : (clearEof r v).match0 = v.match0 := rfl
@[simp] theorem clearEof_match1 (r : SStatus) (v : Slave) : (clearEof r v).match1 = v.match1 := rfl
@[simp] theorem clearEof_ier (r : SStatus) (v : Slave) : (clearEof r v).ier = v.ier := rfl
@[simp] theorem clearEof_irqEn (r : SStatus) (v : Slave) : (clearEof r v).irqEn = v.irqEn := rfl
@[simp] theorem clearEof_txq (r : SStatus) (v : Slave) : (clearEof r v).txq = v.txq := rfl
@[simp] theorem clearEof_rxq (r : SStatus) (v : Slave) : (clearEof r v).rxq = v.rxq := rfl
@[simp] theorem clearEof_amFlag (r : SStatus) (v : Slave) : (clearEof r v).amFlag = v.amFlag := rfl
@[simp] theorem clearEof_stopFlag (r : SStatus) (v : Slave) : (clearEof r v).stopFlag = (v.stopFlag && !r.stop) := rfl
@[simp] theorem clearEof_rsFlag (r : SStatus) (v : Slave) : (clearEof r v).rsFlag = (v.rsFlag && !r.rs) := rfl
@[simp] theorem clearEof_berrFlag (r : SStatus) (v : Slave) : (clearEof r v).berrFlag = v.berrFlag := rfl
@[simp] theorem clearEof_asr (r : SStatus) (v : Slave) : (clearEof r v).asr = v.asr := rfl
@[simp] theorem clearEof_txreq (r : SStatus) (v : Slave) : (clearEof r v).txreq = v.txreq := rfl
@[simp] theorem clearEof_padPending (r : SStatus) (v : Slave) : (clearEof r v).padPending = v.padPending := rfl
@[simp] theorem clearEof_padApplied (r : SStatus) (v : Slave) : (clearEof r v).padApplied = v.padApplied := rfl
@[simp] theorem clearEof_hung (r : SStatus) (v : Slave) : (clearEof r v).hung = v.hung := rfl

@[simp] theorem ByteBuffer.advance_ptr (c : Config) (b : ByteBuffer) : (b.advance c).ptr = b.ptr := rfl
@[simp] theorem ByteBuffer.advance_len (c : Config) (b : ByteBuffer) : (b.advance c).len = b.len := rfl
@[simp] theorem ByteBuffer.advance_next (c : Config) (b : ByteBuffer) : (b.advance c).next = c.lenBits (b.next + 1) := rfl

@[simp] theorem ByteBuffer.rewind_ptr (b : ByteBuffer) : (b.rewind).ptr = b.ptr := rfl
@[simp] theorem ByteBuffer.rewind_len (b : ByteBuffer) : (b.rewind).len = b.len := rfl
@[simp] theorem ByteBuffer.rewind_next (b : ByteBuffer) : (b.rewind).next = 0 := rfl

end Sys2Proof.Machine
end

