-- ==== Sys2Proof/Laws/Ops.lean ====
section
/-! SUPPORT. What each shared operation can do, said once: when it hands on a state, which one, and what it leaves alone. -/

namespace Sys2Proof

/-! ### Widths and device regions (R6, R45) -/

theorem Config.ptrBits_lt (c : Config) (x : Nat) : c.ptrBits x < 2 ^ c.ptrW := Nat.mod_lt _ (Nat.two_pow_pos _)

theorem Config.lenBits_lt (c : Config) (x : Nat) : c.lenBits x < 2 ^ c.lenW := Nat.mod_lt _ (Nat.two_pow_pos _)

theorem Config.freqBits_lt (c : Config) (x : Nat) : c.freqBits x < 2 ^ c.freqW := Nat.mod_lt _ (Nat.two_pow_pos _)

/-- A width's own values are not narrowed. -/
@[simp] theorem Config.lenBits_lenBits (c : Config) (x : Nat) : c.lenBits (c.lenBits x) = c.lenBits x := Nat.mod_mod _ _

@[simp] theorem Config.lenBits_zero (c : Config) : c.lenBits 0 = 0 := Nat.zero_mod _

/-- A region of no bytes reaches into no device region. -/
@[simp] theorem Config.onDevice_zero (c : Config) (p : Nat) : c.onDevice p 0 = false := by
  simp only [onDevice, List.any_eq_false, decide_eq_true_eq]
  intro r _
  omega

/-- A platform without device regions. -/
theorem Config.onDevice_nil {c : Config} (h : c.devices = []) (p n : Nat) : c.onDevice p n = false := by
  simp [onDevice, h]

end Sys2Proof

namespace Sys2Proof.Machine

/-! ### Sequencing -/

@[simp] theorem andThen_next {α β : Type} (a : α) (f : α → Run β) : andThen (.next a) f = f a := rfl

@[simp] theorem andThen_fault {α β : Type} (r : Fault) (f : α → Run β) : andThen (.fault r) f = .fault r := rfl

@[simp] theorem andThen_refused {α β : Type} (r : Refusal) (f : α → Run β) : andThen (.refused r) f = .refused r := rfl

theorem andThen_eq_next {α β : Type} {x : Run α} {f : α → Run β} {b : β} :
    andThen x f = .next b ↔ ∃ a, x = .next a ∧ f a = .next b := by
  cases x <;> simp

theorem andThen_eq_fault {α β : Type} {x : Run α} {f : α → Run β} {r : Fault} :
    andThen x f = .fault r ↔ x = .fault r ∨ ∃ a, x = .next a ∧ f a = .fault r := by
  cases x <;> simp

@[simp] theorem whenFlag_false (h : State → Run State) (s : State) : whenFlag false h s = .next s := rfl

@[simp] theorem whenFlag_true (h : State → Run State) (s : State) : whenFlag true h s = h s := rfl

theorem whenFlag_eq_next {b : Bool} {h : State → Run State} {s t : State} :
    whenFlag b h s = .next t ↔ (b = true ∧ h s = .next t) ∨ (b = false ∧ s = t) := by
  cases b <;> simp

theorem guarded_eq_next {g : Bool} {s t : State} : guarded g s = .next t ↔ g = true ∧ s = t := by
  cases g <;> simp [guarded]

/-- What comes next in a slave pass that no callback holds. -/
theorem andLive_live {a : State} {f : State → Run State} (h : a.slave.hung = false) : andLive (.next a) f = f a := by
  simp [andLive, h]

/-- A slave pass that a callback holds gets no further. -/
theorem andLive_held {a : State} {f : State → Run State} (h : a.slave.hung = true) : andLive (.next a) f = .next a := by
  simp [andLive, h]

theorem slaveStep_live {r : Run State} {s : State} (h : s.slave.hung = false) : slaveStep r s = r := by
  simp [slaveStep, h]

theorem slaveStep_held {r : Run State} {s : State} (h : s.slave.hung = true) : slaveStep r s = .refused .slaveHung := by
  simp [slaveStep, h]

theorem andLive_eq_next {x : Run State} {f : State → Run State} {t : State} :
    andLive x f = .next t ↔
      ∃ a, x = .next a ∧ ((a.slave.hung = true ∧ a = t) ∨ (a.slave.hung = false ∧ f a = .next t)) := by
  cases x with
  | next a => cases h : a.slave.hung <;> simp [andLive, h]
  | fault r => simp [andLive]
  | refused r => simp [andLive]

theorem slaveStep_eq_next {r : Run State} {s t : State} : slaveStep r s = .next t ↔ s.slave.hung = false ∧ r = .next t := by
  cases h : s.slave.hung <;> simp [slaveStep, h]

theorem hostAccess_eq_next {a : Nat} {f : Nat → State} {s t : State} :
    hostAccess a f s = .next t ↔ s.cfg.onDevice (s.cfg.ptrBits a) 1 = false ∧ f (s.cfg.ptrBits a) = t := by
  unfold hostAccess
  cases s.cfg.onDevice (s.cfg.ptrBits a) 1 <;> simp

/-! ### ByteBuffers -/

theorem bbInit_eq_next {sel : BufSel} {p n : Nat} {s t : State} :
    bbInit sel p n s = .next t ↔ s.cfg.ptrBits p + s.cfg.lenBits n ≤ 2 ^ s.cfg.ptrW ∧
      s.cfg.onDevice (s.cfg.ptrBits p) (s.cfg.lenBits n) = false ∧
      s.setBuf sel { ptr := s.cfg.ptrBits p, len := s.cfg.lenBits n, next := 0 } = t := by
  unfold bbInit regionFits
  by_cases h : s.cfg.ptrBits p + s.cfg.lenBits n ≤ 2 ^ s.cfg.ptrW <;>
    cases hd : s.cfg.onDevice (s.cfg.ptrBits p) (s.cfg.lenBits n) <;> simp [h, hd]

/-- Binding a buffer never faults. -/
theorem bbInit_ne_fault {sel : BufSel} {p n : Nat} {s : State} {r : Fault} : bbInit sel p n s ≠ .fault r := by
  unfold bbInit
  dsimp only
  split <;> [simp; split <;> simp]

/-- A full buffer: nothing is written. -/
theorem bbWrite_full {sel : BufSel} {b : Byte} {s : State} (h : (s.buf sel).next = (s.buf sel).len) :
    bbWrite sel b s = (false, s) := by
  simp [bbWrite, h]

/-- Room in the buffer: one byte is stored at the cursor, and the cursor moves on. -/
theorem bbWrite_room {sel : BufSel} {b : Byte} {s : State} (h : (s.buf sel).next ≠ (s.buf sel).len) :
    bbWrite sel b s =
      (true, (s.memWrite ((s.buf sel).cursor s.cfg) b).setBuf sel ((s.buf sel).advance s.cfg)) := by
  simp [bbWrite, h]

theorem bbRead_eq_next {sel : BufSel} {s : State} {r : Byte × State} :
    bbRead sel s = .next r ↔ (s.buf sel).next < (s.buf sel).len ∧
      r = (memRead s.mem ((s.buf sel).cursor s.cfg), s.setBuf sel ((s.buf sel).advance s.cfg)) := by
  by_cases h : (s.buf sel).next < (s.buf sel).len <;> simp [bbRead, ByteBuffer.hasData, h, eq_comm]

theorem ByteBuffer.cursor_lt (c : Config) (b : ByteBuffer) : b.cursor c < 2 ^ c.ptrW := c.ptrBits_lt _

/-- In a sound buffer with room the cursor moves on by one, within the length, and neither it nor its address wraps. -/
theorem ByteBuffer.Ok.room {c : Config} {b : ByteBuffer} (h : b.Ok c) (hn : b.next ≠ b.len) :
    b.next < b.len ∧ (b.advance c).next = b.next + 1 ∧ b.cursor c = b.ptr + b.next := by
  have h1 := h.cursor
  have h2 := h.len
  have h3 := h.inSpace
  exact ⟨by omega, Nat.mod_eq_of_lt (by omega), Nat.mod_eq_of_lt (by omega)⟩

/-- A buffer just bound is sound. -/
theorem ok_of_bound {c : Config} {p n : Nat} (h : c.ptrBits p + c.lenBits n ≤ 2 ^ c.ptrW)
    (hd : c.onDevice (c.ptrBits p) (c.lenBits n) = false) :
    ByteBuffer.Ok c { ptr := c.ptrBits p, len := c.lenBits n, next := 0 } :=
  ⟨c.ptrBits_lt _, c.lenBits_lt _, Nat.zero_le _, h, hd⟩

/-- A `BB_WRITE` or `BB_READ` keeps a buffer sound. -/
theorem ByteBuffer.Ok.advance {c : Config} {b : ByteBuffer} (h : b.Ok c) (hn : b.next ≠ b.len) : (b.advance c).Ok c := by
  obtain ⟨h1, h2, -⟩ := h.room hn
  exact ⟨h.ptr, h.len, by rw [h2]; exact h1, h.inSpace, h.offDevice⟩

/-- A rewind keeps a buffer sound. -/
theorem ByteBuffer.Ok.rewind {c : Config} {b : ByteBuffer} (h : b.Ok c) : b.rewind.Ok c :=
  ⟨h.ptr, h.len, Nat.zero_le _, h.inSpace, h.offDevice⟩

/-! ### The master's procedures -/

theorem txPush_eq_next {w : BitVec 11} {s t : State} :
    txPush w s = .next t ↔ s.master.txq.length < s.cfg.mTxDepth ∧
      { s with master := { s.master with txq := s.master.txq ++ [w] } } = t := by
  by_cases h : s.cfg.mTxDepth ≤ s.master.txq.length
  · simp [txPush, h]
  · simp [txPush, h, Nat.lt_of_not_le h, State.mapMaster]

/-- What `abort` leaves of the master engine. -/
def afterAbort (m : Master) : Master :=
  { clearTdie m with
    txq := if m.held then [txwStopWord] else [], rxq := [], state := if m.held then .stopping else .idle }

theorem abort_eq_next {s t : State} :
    abort s = .next t ↔ (s.master.held = true → 0 < s.cfg.mTxDepth) ∧ { s with master := afterAbort s.master } = t := by
  cases hh : s.master.held
  · simp [abort, afterAbort, hh, State.mapMaster, flushMaster, clearTdie]
  · by_cases hd : s.cfg.mTxDepth = 0
    · simp [abort, afterAbort, hh, txPush, hd]
    · simp [abort, afterAbort, hh, txPush, hd, State.mapMaster, flushMaster, clearTdie, Nat.pos_of_ne_zero hd]

/-- What a successful `start` leaves of the master engine. -/
def afterStart (a : Addr) (d : Dir) (m : Master) : Master :=
  { clearFlags m with dir := d, err := .ok, state := .starting, txq := [txwStartWord a d], rxq := [] }

/-- The three ways `start` answers (R93, R97). -/
theorem start_eq_next {a : Addr} {d : Dir} {s : State} {r : Bool × State} (h : start a d s = .next r) :
    (finished s.cfg s.master = false ∧
      r = (false, { s with master := { afterAbort s.master with err := .masterNotReady } })) ∨
    (finished s.cfg s.master = true ∧ (s.master.txq ≠ [] ∨ s.master.rxq ≠ []) ∧
      r = (false, { s with master := { afterAbort s.master with dir := d, err := .masterFifosNotEmpty } })) ∨
    (finished s.cfg s.master = true ∧ s.master.txq = [] ∧ s.master.rxq = [] ∧
      r = (true, { s with master := afterStart a d s.master })) := by
  by_cases hf : finished s.cfg s.master = false
  · simp only [start, hf, if_true] at h
    obtain ⟨s1, h1, h2⟩ := andThen_eq_next.mp h
    obtain ⟨-, rfl⟩ := abort_eq_next.mp h1
    injection h2 with h2
    exact .inl ⟨hf, h2.symm⟩
  · have hf' : finished s.cfg s.master = true := by simpa using hf
    right
    by_cases he : s.master.txq = [] ∧ s.master.rxq = []
    · simp only [start, hf, State.mapMaster, he.1, he.2, List.isEmpty_nil, Bool.and_self, if_true] at h
      obtain ⟨s1, h1, h2⟩ := andThen_eq_next.mp h
      obtain ⟨-, rfl⟩ := txPush_eq_next.mp h1
      injection h2 with h2
      exact .inr ⟨hf', he.1, he.2, by rw [← h2]; simp [afterStart, clearFlags]⟩
    · have hq : s.master.txq ≠ [] ∨ s.master.rxq ≠ [] := by simpa [← not_and_or] using he
      have hb : (s.master.txq.isEmpty && s.master.rxq.isEmpty) = false := by
        cases h1 : s.master.txq <;> cases h2 : s.master.rxq <;> simp_all
      simp only [start, hf, State.mapMaster, hb, if_false, Bool.false_eq_true] at h
      obtain ⟨s1, h1, h2⟩ := andThen_eq_next.mp h
      obtain ⟨-, rfl⟩ := abort_eq_next.mp h1
      injection h2 with h2
      exact .inl ⟨hf', hq, h2.symm⟩

/-- `start` on a finished engine with empty FIFOs and room for the START word. -/
theorem start_ready {a : Addr} {d : Dir} {s : State} (hf : finished s.cfg s.master = true) (ht : s.master.txq = [])
    (hr : s.master.rxq = []) (hd : 0 < s.cfg.mTxDepth) :
    start a d s = .next (true, { s with master := afterStart a d s.master }) := by
  have hd' : ¬ s.cfg.mTxDepth = 0 := by omega
  simp [start, hf, ht, hr, txPush, hd', afterStart, clearFlags, State.mapMaster]

/-- `start` on an engine that is not finished. -/
theorem start_busy {a : Addr} {d : Dir} {s : State} (hf : finished s.cfg s.master = false) (hd : 0 < s.cfg.mTxDepth) :
    start a d s = .next (false, { s with master := { afterAbort s.master with err := .masterNotReady } }) := by
  have h := abort_eq_next.mpr ⟨fun _ => hd, rfl⟩
  simp [start, hf, h, mRaise]

/-- `start` on a finished engine with an entry in a FIFO. -/
theorem start_stale {a : Addr} {d : Dir} {s : State} (hf : finished s.cfg s.master = true)
    (hq : s.master.txq ≠ [] ∨ s.master.rxq ≠ []) (hd : 0 < s.cfg.mTxDepth) :
    start a d s = .next (false, { s with master := { afterAbort s.master with dir := d, err := .masterFifosNotEmpty } }) := by
  have he : (s.master.txq.isEmpty && s.master.rxq.isEmpty) = false := by
    cases h1 : s.master.txq <;> cases h2 : s.master.rxq <;> simp_all
  have h : ∀ m : Master, abort { s with master := m } = .next { s with master := afterAbort m } := fun m =>
    abort_eq_next.mpr ⟨fun _ => hd, rfl⟩
  simp only [start, hf, Bool.true_eq_false, if_false, State.mapMaster, he, mRaise, Bool.false_eq_true, h]
  rfl

/-- `M_BEGIN` and bus recovery write no slave register, no memory and no error. -/
theorem beginChannel_eq (f : Nat) (s : State) : beginChannel f s = { s with
    master := { clearFlags (flushMaster s.master) with
      freq := f, cls := speedClass f, busy := false, held := false, padApplied := s.master.padPending, ier := mIerBegin,
      en := true, irqEn := true, state := .idle },
    events := s.events ++ [.mChannelReset] } := rfl

theorem recover_eq (s : State) : recover s = { s with
    master := { clearFlags (flushMaster s.master) with
      cls := speedClass s.master.freq, busy := false, held := false, padApplied := s.master.padPending,
      ier := mIerBegin, en := true, irqEn := true, state := .idle },
    events := s.events ++ [.mRecoveryPulses s.cfg.recoveryPulses, .mChannelReset] } := by
  simp [recover, beginChannel_eq, State.mapMaster, emit, clearFlags, flushMaster]

/-! ### Upcalls -/

/-- What code of the host inside a callback can change: the slave's two buffers, caller memory and the outputs; and a callback
can hold the slave pass. -/
structure CallbackFrame (s t : State) : Prop where
  cfg : t.cfg = s.cfg
  master : t.master = s.master
  slave : t.slave = { s.slave with rxbuf := t.slave.rxbuf, txbuf := t.slave.txbuf, hung := t.slave.hung }
  res : t.res = s.res
  pending : t.pending = s.pending
  events : ∃ l, t.events = s.events ++ l
  callbacks : ∃ l, l.length ≤ 1 ∧ s.callbacks = l ++ t.callbacks
  rxOk : s.slave.rxbuf.Ok s.cfg → t.slave.rxbuf.Ok t.cfg
  txOk : s.slave.txbuf.Ok s.cfg → t.slave.txbuf.Ok t.cfg
  memOk : memWf s.cfg.ptrW s.mem = true → memWf t.cfg.ptrW t.mem = true

theorem CallbackFrame.refl (s : State) : CallbackFrame s s :=
  ⟨rfl, rfl, rfl, rfl, rfl, ⟨[], by simp⟩, ⟨[], by simp⟩, id, id, id⟩

/-- The frame of an output. -/
theorem CallbackFrame.emit (e : OutEvent) (s : State) : CallbackFrame s (emit e s) :=
  ⟨rfl, rfl, rfl, rfl, rfl, ⟨_, rfl⟩, ⟨[], by simp⟩, id, id, id⟩

/-- The frame of what comes after something that uses up no callback. -/
theorem CallbackFrame.trans {s t u : State} (h : CallbackFrame s t) (hc : s.callbacks = t.callbacks)
    (k : CallbackFrame t u) : CallbackFrame s u := by
  obtain ⟨l, hl⟩ := h.events
  obtain ⟨l', hl'⟩ := k.events
  obtain ⟨c, hc1, hc2⟩ := k.callbacks
  exact ⟨k.cfg.trans h.cfg, k.master.trans h.master, by rw [k.slave, h.slave], k.res.trans h.res,
    k.pending.trans h.pending, ⟨l ++ l', by rw [hl', hl, List.append_assoc]⟩, ⟨c, hc1, hc.trans hc2⟩,
    fun x => k.rxOk (h.rxOk x), fun x => k.txOk (h.txOk x), fun x => k.memOk (h.memOk x)⟩

/-- A command permitted inside a callback (R158). -/
theorem permittedCommand_frame {i : Instr} {s t : State} (h : permittedCommand i s = .next t) :
    CallbackFrame s t ∧ t.callbacks = s.callbacks ∧ t.mem = s.mem := by
  cases i with
  | sSetRxBuffer p n =>
    obtain ⟨hf, hd, rfl⟩ := bbInit_eq_next.mp h
    exact ⟨⟨rfl, rfl, rfl, rfl, rfl, ⟨[], by simp⟩, ⟨[], by simp⟩, fun _ => ok_of_bound hf hd, id, id⟩, rfl, rfl⟩
  | sSetTxBuffer p n =>
    obtain ⟨hf, hd, rfl⟩ := bbInit_eq_next.mp h
    exact ⟨⟨rfl, rfl, rfl, rfl, rfl, ⟨[], by simp⟩, ⟨[], by simp⟩, id, fun _ => ok_of_bound hf hd, id⟩, rfl, rfl⟩
  | sError =>
    injection h with h
    subst h
    exact ⟨.emit _ s, rfl, rfl⟩
  | sHasError =>
    injection h with h
    subst h
    exact ⟨.emit _ s, rfl, rfl⟩
  | _ => cases h

theorem runAct_frame {a : HostAct} {s t : State} (h : runAct a s = .next t) :
    CallbackFrame s t ∧ t.callbacks = s.callbacks ∧ ((∀ x b, a ≠ .memWrite x b) → t.mem = s.mem) := by
  cases a with
  | command c a0 a1 =>
    simp only [runAct] at h
    split at h
    · have k := permittedCommand_frame h
      exact ⟨k.1, k.2.1, fun _ => k.2.2⟩
    · cases h
  | memRead x =>
    simp only [runAct, hostAccess_eq_next] at h
    obtain ⟨-, rfl⟩ := h
    exact ⟨.emit _ s, rfl, fun _ => rfl⟩
  | memWrite x b =>
    simp only [runAct, hostAccess_eq_next] at h
    obtain ⟨-, rfl⟩ := h
    exact ⟨⟨rfl, rfl, rfl, rfl, rfl, ⟨[], by simp⟩, ⟨[], by simp⟩, id, id,
      memWf_memWrite _ _ _ (s.cfg.ptrBits_lt x)⟩, rfl, fun k => absurd rfl (k x b)⟩

theorem runActs_nil (s : State) : runActs [] s = .next s := rfl

theorem runActs_frame {acts : List HostAct} {s t : State} (h : runActs acts s = .next t) :
    CallbackFrame s t ∧ t.callbacks = s.callbacks ∧ ((∀ x b, HostAct.memWrite x b ∉ acts) → t.mem = s.mem) := by
  induction acts generalizing s with
  | nil => injection h with h; subst h; exact ⟨.refl s, rfl, fun _ => rfl⟩
  | cons a rest ih =>
    obtain ⟨s1, h1, h2⟩ := andThen_eq_next.mp h
    obtain ⟨f1, c1, m1⟩ := runAct_frame h1
    obtain ⟨f2, c2, m2⟩ := ih h2
    refine ⟨f1.trans c1.symm f2, c2.trans c1, fun k => (m2 fun x b e => k x b (by simp [e])).trans (m1 fun x b e => ?_)⟩
    exact k x b (by simp [e])

/-- A callback that returns changes nothing more; one that does not holds the slave pass. -/
theorem afterCallback_eq (b : Bool) (s : State) :
    afterCallback b s = { s with slave := { s.slave with hung := s.slave.hung || !b } } := by
  cases b <;> simp [afterCallback, State.mapSlave]

theorem afterCallback_frame (b : Bool) (s : State) : CallbackFrame s (afterCallback b s) := by
  rw [afterCallback_eq]
  exact ⟨rfl, rfl, rfl, rfl, rfl, ⟨[], by simp⟩, ⟨[], by simp⟩, id, id, id⟩

/-- The three ways an upcall answers (R158). -/
theorem upcall_eq_next {w : Nat} {e : OutEvent} {s t : State} (h : upcall w e s = .next t) :
    (w = 0 ∧ t = s) ∨ (w ≠ 0 ∧ s.callbacks = [] ∧ t = emit e s) ∨
    (∃ c rest u, w ≠ 0 ∧ s.callbacks = c :: rest ∧ runActs c.acts { emit e s with callbacks := rest } = .next u ∧
      t = afterCallback c.returns u) := by
  unfold upcall at h
  split at h
  · rename_i hw
    injection h with h
    exact .inl ⟨hw, h.symm⟩
  · rename_i hw
    split at h
    · rename_i hc
      injection h with h
      exact .inr (.inl ⟨hw, hc, h.symm⟩)
    · rename_i c rest hc
      obtain ⟨u, h1, h2⟩ := andThen_eq_next.mp h
      injection h2 with h2
      exact .inr (.inr ⟨c, rest, u, hw, hc, h1, h2.symm⟩)

/-- What an upcall can change (R158), and that it uses up at most one callback. -/
theorem upcall_frame {w : Nat} {e : OutEvent} {s t : State} (h : upcall w e s = .next t) :
    CallbackFrame s t ∧ (quietCallbacks s → t.mem = s.mem) := by
  obtain ⟨-, rfl⟩ | ⟨-, -, rfl⟩ | ⟨c, rest, u, -, hc, h1, rfl⟩ := upcall_eq_next h
  · exact ⟨.refl _, fun _ => rfl⟩
  · exact ⟨.emit e s, fun _ => rfl⟩
  · obtain ⟨f, hcb, m⟩ := runActs_frame h1
    have g := f.trans hcb.symm (afterCallback_frame c.returns u)
    obtain ⟨l, hl⟩ := g.events
    refine ⟨⟨g.cfg, g.master, g.slave, g.res, g.pending, ⟨e :: l, by rw [hl]; simp⟩, ⟨[c], by simp, ?_⟩, g.rxOk, g.txOk,
      g.memOk⟩, fun q => ?_⟩
    · have : (afterCallback c.returns u).callbacks = u.callbacks := by rw [afterCallback_eq]
      rw [this, hcb, hc]
      rfl
    · have : (afterCallback c.returns u).mem = u.mem := by rw [afterCallback_eq]
      exact this.trans (m (q c (by simp [hc])))

/-- With the null handle there is no upcall (R29). -/
theorem upcall_null (e : OutEvent) (s : State) : upcall 0 e s = .next s := rfl

/-- With no callback listed the event is delivered and nothing more happens (log 7). -/
theorem upcall_nil {w : Nat} {e : OutEvent} {s : State} (hw : w ≠ 0) (hc : s.callbacks = []) :
    upcall w e s = .next (emit e s) := by
  simp [upcall, hw, hc]

/-- Code inside a callback raises no fault. -/
theorem runActs_ne_fault (l : List HostAct) (s : State) (r : Fault) : runActs l s ≠ .fault r := by
  induction l generalizing s with
  | nil => intro h; cases h
  | cons a rest ih =>
    intro h
    rcases andThen_eq_fault.mp h with h1 | ⟨v, -, h2⟩
    · cases a with
      | command c a0 a1 =>
        simp only [runAct] at h1
        split at h1
        · rename_i i _
          cases i with
          | sSetRxBuffer p n => exact bbInit_ne_fault (sel := .sRxBuf) h1
          | sSetTxBuffer p n => exact bbInit_ne_fault (sel := .sTxBuf) h1
          | _ => cases h1
        · cases h1
      | memRead x =>
        simp only [runAct, hostAccess] at h1
        split at h1 <;> cases h1
      | memWrite x b =>
        simp only [runAct, hostAccess] at h1
        split at h1 <;> cases h1
    · exact ih v h2

/-- An upcall raises no fault. -/
theorem upcall_ne_fault (w : Nat) (e : OutEvent) (s : State) (r : Fault) : upcall w e s ≠ .fault r := by
  intro h
  unfold upcall at h
  split at h
  · cases h
  · split at h
    · cases h
    · rcases andThen_eq_fault.mp h with h1 | ⟨v, -, h2⟩
      · exact runActs_ne_fault _ _ _ h1
      · cases h2

end Sys2Proof.Machine
end

