-- ==== Sys2Proof/Laws/Passes.lean ====
section
/-! SUPPORT. What the loops and handlers of the two passes can do, each said once (42_master_sequencer.md,
44_slave_sequencer.md). -/

namespace Sys2Proof.Machine

/-! ### The command of each transmit word (R62) -/

@[simp] theorem txwCmd_transmit (d : Byte) : txwCmd (txwTransmitWord d) = 0b000#3 := by
  unfold txwCmd txwTransmitWord
  exact BitVec.extractLsb'_append_eq_left

@[simp] theorem txwCmd_receive (n : Nat) : txwCmd (txwReceiveWord n) = 0b001#3 := by
  unfold txwCmd txwReceiveWord
  exact BitVec.extractLsb'_append_eq_left

@[simp] theorem txwCmd_stop : txwCmd txwStopWord = 0b010#3 := rfl

@[simp] theorem txwCmd_start (a : Addr) (d : Dir) : txwCmd (txwStartWord a d) = 0b100#3 := by
  unfold txwCmd txwStartWord
  rw [BitVec.extractLsb'_append_eq_of_le (by omega)]
  exact BitVec.extractLsb'_append_eq_left

/-! ### The drain loop of a read (R117) -/

/-- Without any hypothesis: the loop changes memory, the cursor of `m_buf` and the error, which it only sets to
`buffer_overflow`. -/
theorem drainRx_frame (q : List Byte) (s : State) : ∃ (mem : Mem) (x : Nat) (e : ErrorCode),
    drainRx q s = { s with mem := mem, master := { s.master with buf := { s.master.buf with next := x }, err := e } } ∧
    (e = s.master.err ∨ e = .bufferOverflow) ∧ (memWf s.cfg.ptrW s.mem = true → memWf s.cfg.ptrW mem = true) := by
  induction q generalizing s with
  | nil => exact ⟨s.mem, s.master.buf.next, s.master.err, rfl, .inl rfl, id⟩
  | cons b rest ih =>
    by_cases h : (s.buf .mBuf).next = (s.buf .mBuf).len
    · obtain ⟨mem, x, e, h1, h2, h3⟩ := ih (mRaise .bufferOverflow s)
      refine ⟨mem, x, e, ?_, .inr (by simpa using h2), h3⟩
      simp only [drainRx, bbWrite_full h, Bool.false_eq_true, if_false, h1]
      rfl
    · obtain ⟨mem, x, e, h1, h2, h3⟩ :=
        ih ((s.memWrite ((s.buf .mBuf).cursor s.cfg) b).setBuf .mBuf ((s.buf .mBuf).advance s.cfg))
      refine ⟨mem, x, e, ?_, h2, fun k => h3 (memWf_memWrite _ _ _ (ByteBuffer.cursor_lt _ _) k)⟩
      simp only [drainRx, bbWrite_room h, if_true, h1]
      rfl

/-- The room left in a buffer whose cursor has moved on by one. -/
theorem ByteBuffer.Ok.room_advance {c : Config} {b : ByteBuffer} (h : b.Ok c) (hn : b.next ≠ b.len) :
    (b.advance c).room + 1 = b.room := by
  obtain ⟨h1, h2, -⟩ := h.room hn
  unfold ByteBuffer.room
  rw [h2, ByteBuffer.advance_len]
  omega

/-- On a sound buffer: how far the cursor moves, which bytes are stored where, and when the error is recorded. -/
theorem drainRx_spec (q : List Byte) (s : State) (h : s.master.buf.Ok s.cfg) :
    ∃ mem : Mem, drainRx q s = { s with
      mem := mem,
      master := { s.master with
        buf := { s.master.buf with next := s.master.buf.next + min q.length s.master.buf.room },
        err := if s.master.buf.room < q.length then .bufferOverflow else s.master.err } } ∧
      ∀ a : Nat, memRead mem a =
        if s.master.buf.ptr + s.master.buf.next ≤ a ∧
            a < s.master.buf.ptr + s.master.buf.next + min q.length s.master.buf.room then
          q.getD (a - (s.master.buf.ptr + s.master.buf.next)) 0#8
        else memRead s.mem a := by
  induction q generalizing s with
  | nil => exact ⟨s.mem, by simp [drainRx], by simp⟩
  | cons b rest ih =>
    by_cases hf : s.master.buf.next = s.master.buf.len
    · have hr : s.master.buf.room = 0 := by simp [ByteBuffer.room, hf]
      obtain ⟨mem, h1, h2⟩ := ih (mRaise .bufferOverflow s) h
      have hr' : (mRaise .bufferOverflow s).master.buf.room = 0 := hr
      refine ⟨mem, ?_, fun a => by rw [h2 a, hr, hr', if_neg (by omega), if_neg (by omega)]; rfl⟩
      simp only [drainRx, bbWrite_full (s := s) (sel := .mBuf) hf, Bool.false_eq_true, if_false, h1]
      simp [hr]
    · obtain ⟨-, hx, hc⟩ := h.room hf
      have hr := h.room_advance hf
      obtain ⟨mem, h1, h2⟩ := ih { s with
        mem := memWrite s.mem (s.master.buf.ptr + s.master.buf.next) b
        master := { s.master with buf := s.master.buf.advance s.cfg } } (h.advance hf)
      dsimp only at h1 h2
      rw [hx] at h1
      simp only [hx, ByteBuffer.advance_ptr, memRead_memWrite, ← Nat.add_assoc] at h2
      generalize (s.master.buf.advance s.cfg).room = k at *
      have hm : min (b :: rest).length s.master.buf.room = min rest.length k + 1 := by
        rw [List.length_cons]; omega
      refine ⟨mem, ?_, fun a => ?_⟩
      · have e : drainRx (b :: rest) s = drainRx rest { s with
            mem := memWrite s.mem (s.master.buf.ptr + s.master.buf.next) b
            master := { s.master with buf := s.master.buf.advance s.cfg } } := by
          simp only [drainRx, bbWrite_room (s := s) (sel := .mBuf) hf, if_true]
          rw [State.buf_mBuf, hc]
          rfl
        have e2 : k < rest.length ↔ s.master.buf.room < (b :: rest).length := by
          rw [List.length_cons]; omega
        rw [e, h1, hm]
        simp only [e2, Nat.add_assoc, Nat.add_comm 1, ByteBuffer.advance]
      · rw [h2 a, hm]
        generalize s.master.buf.ptr + s.master.buf.next = p at *
        generalize min rest.length k = n at *
        by_cases hap : a = p
        · subst hap
          rw [if_neg (by omega), if_pos rfl, if_pos (by omega)]
          simp
        · by_cases hin : p + 1 ≤ a ∧ a < p + 1 + n
          · rw [if_pos hin, if_pos (by omega), show a - p = (a - (p + 1)) + 1 by omega, List.getD_cons_succ]
          · rw [if_neg hin, if_neg hap, if_neg (by omega)]

/-! ### The fill loop of a write (R118) -/

/-- Without any hypothesis: the loop changes the cursor of `m_buf` and pushes data words, none of them reserved. -/
theorem fillTx_frame {k : Nat} {s t : State} (h : fillTx k s = .next t) : ∃ (x : Nat) (l : List (BitVec 11)),
    t = { s with master := { s.master with buf := { s.master.buf with next := x }, txq := s.master.txq ++ l } } ∧
    (∀ w ∈ l, reservedCmd w = false) := by
  induction k generalizing s with
  | zero => injection h with h; exact ⟨s.master.buf.next, [], by simp [← h], by simp⟩
  | succ k ih =>
    unfold fillTx at h
    split at h
    · obtain ⟨r, h1, h2⟩ := andThen_eq_next.mp h
      obtain ⟨-, rfl⟩ := bbRead_eq_next.mp h1
      obtain ⟨s2, h3, h4⟩ := andThen_eq_next.mp h2
      obtain ⟨-, rfl⟩ := txPush_eq_next.mp h3
      obtain ⟨x, l, h5, h6⟩ := ih h4
      refine ⟨x, txwTransmitWord (memRead s.mem ((s.buf .mBuf).cursor s.cfg)) :: l, ?_, fun w hw => ?_⟩
      · rw [h5]
        simp [State.setBuf, List.append_assoc, ByteBuffer.advance]
      · rcases List.mem_cons.mp hw with rfl | hw
        · simp [reservedCmd]
        · exact h6 w hw
    · injection h with h; exact ⟨s.master.buf.next, [], by simp [← h], by simp⟩

theorem transmitWords_succ (m : Mem) (a k : Nat) :
    transmitWords m a (k + 1) = txwTransmitWord (memRead m a) :: transmitWords m (a + 1) k := by
  unfold transmitWords
  rw [List.range_succ_eq_map, List.map_cons, List.map_map]
  refine congrArg _ (List.map_congr_left fun j _ => ?_)
  show txwTransmitWord (memRead m (a + (j + 1))) = _
  rw [Nat.add_assoc, Nat.add_comm 1 j]

/-- On a sound buffer and with as many free entries as the loop may fill: the loop completes, and which words it pushes. -/
theorem fillTx_spec (k : Nat) (s : State) (h : s.master.buf.Ok s.cfg)
    (hk : s.master.txq.length + k ≤ s.cfg.mTxDepth) :
    fillTx k s = .next { s with
      master := { s.master with
        buf := { s.master.buf with next := s.master.buf.next + min k s.master.buf.room },
        txq := s.master.txq ++
          transmitWords s.mem (s.master.buf.ptr + s.master.buf.next) (min k s.master.buf.room) } } := by
  induction k generalizing s with
  | zero => simp [fillTx, transmitWords]
  | succ k ih =>
    by_cases hd : s.master.buf.next < s.master.buf.len
    · have hn : s.master.buf.next ≠ s.master.buf.len := by omega
      obtain ⟨-, hx, hc⟩ := h.room hn
      have hr := h.room_advance hn
      have hm : min (k + 1) s.master.buf.room = min k (s.master.buf.advance s.cfg).room + 1 := by omega
      have h1 : fillTx (k + 1) s = fillTx k { s with
          master := { s.master with
            buf := s.master.buf.advance s.cfg,
            txq := s.master.txq ++ [txwTransmitWord (memRead s.mem (s.master.buf.ptr + s.master.buf.next))] } } := by
        have e : bbRead .mBuf s = _ := (bbRead_eq_next (sel := .mBuf)).mpr ⟨hd, rfl⟩
        rw [fillTx, ByteBuffer.hasData, if_pos (by simpa using hd), e, andThen_next, State.buf_mBuf, hc,
          txPush_eq_next.mpr ⟨by show s.master.txq.length < s.cfg.mTxDepth; omega, rfl⟩, andThen_next]
        rfl
      rw [h1, ih _ (h.advance hn) (by simp; omega), hm, transmitWords_succ]
      simp only [hx, ByteBuffer.advance_ptr, List.append_assoc, List.singleton_append, Nat.add_assoc, Nat.add_comm 1]
      rfl
    · have hr : s.master.buf.room = 0 := by unfold ByteBuffer.room; omega
      simp [fillTx, ByteBuffer.hasData, hd, hr, transmitWords]

/-! ### The error handlers (R111 to R116) -/

/-- The error left by the four handlers (R115). -/
def recordedError (r : MStatus) (m : Master) : ErrorCode :=
  if r.plt then .pinLowTimeout
  else if r.arb then .arbitrationLost
  else if r.nak then (if m.state = .starting then .addressNak else .dataNak)
  else if r.ferr && m.err == .ok then .masterFifoError
  else m.err

/-- The four handlers clear the flags of the snapshot and record one error. -/
theorem recordErrors_eq (r : MStatus) (s : State) : recordErrors r s = { s with
    master := { s.master with
      err := recordedError r s.master, nakFlag := s.master.nakFlag && !r.nak, arbFlag := s.master.arbFlag && !r.arb,
      ferrFlag := s.master.ferrFlag && !r.ferr, pltFlag := s.master.pltFlag && !r.plt } } := by
  obtain ⟨tdr, rda, stop, nak, arb, ferr, plt, busy, held⟩ := r
  obtain ⟨cfg, m, v, mem, res, events, callbacks, pending⟩ := s
  obtain ⟨⟩ := m
  rename_i state dir sendStop err buf freq cls en irqEn ier txq rxq f1 f2 f3 f4 f5 l1 l2 l3 p1 p2
  by_cases he : err = .ok <;> by_cases hs : state = .starting <;> cases nak <;> cases arb <;>
    cases ferr <;> cases plt <;>
    simp [recordErrors, recordedError, handleNak, handleArb, handleFerr, handlePlt, State.mapMaster, mRaise, he, hs]

/-- A pass never records `ok`. -/
theorem recordedError_ne_ok {r : MStatus} {m : Master} (h : recordedError r m = .ok) : m.err = .ok := by
  unfold recordedError at h
  repeat' split at h
  all_goals simp_all

/-- Group 1 of the pass: record, abort, and perhaps recover. -/
theorem handleErrors_eq_next {r : MStatus} {s t : State} :
    handleErrors r s = .next t ↔ (s.master.held = true → 0 < s.cfg.mTxDepth) ∧
      (if r.plt && s.master.pltc then recover { s with master := afterAbort (recordErrors r s).master }
        else { s with master := afterAbort (recordErrors r s).master }) = t := by
  have hr := recordErrors_eq r s
  have e : ∀ t, abort (recordErrors r s) = .next t ↔
      (s.master.held = true → 0 < s.cfg.mTxDepth) ∧ { s with master := afterAbort (recordErrors r s).master } = t := by
    intro t
    rw [abort_eq_next, hr]
  unfold handleErrors
  rw [andThen_eq_next]
  constructor
  · rintro ⟨s1, h1, h2⟩
    obtain ⟨h3, rfl⟩ := (e _).mp h1
    injection h2 with h2
    refine ⟨h3, ?_⟩
    rw [← h2, hr]
    rfl
  · rintro ⟨h1, h2⟩
    refine ⟨_, (e _).mpr ⟨h1, rfl⟩, ?_⟩
    rw [← h2, hr]
    rfl

/-! ### The data and stop handlers (R117 to R119) -/

theorem enterTransferring_eq (s : State) : enterTransferring s = { s with
    master := { s.master with state := if s.master.state = .starting then .transferring else s.master.state } } := rfl

/-- In a transfer that is starting or transferring, the state after the first data service is `transferring`. -/
theorem enterTransferring_moving {s : State} (h : s.master.state.moving = true) :
    enterTransferring s = { s with master := { s.master with state := .transferring } } := by
  obtain ⟨cfg, m, v, mem, res, events, callbacks, pending⟩ := s
  obtain ⟨⟩ := m
  rename_i state dir sendStop err buf freq cls en irqEn ier txq rxq f1 f2 f3 f4 f5 l1 l2 l3 p1 p2
  cases state <;> first | rfl | cases h

theorem completeTransfer_eq_next {s t : State} :
    completeTransfer s = .next t ↔ (s.master.sendStop = true → s.master.txq.length < s.cfg.mTxDepth) ∧
      { s with master := { s.master with
        state := if s.master.sendStop then .stopping else .transferComplete,
        txq := if s.master.sendStop then s.master.txq ++ [txwStopWord] else s.master.txq } } = t := by
  unfold completeTransfer
  cases hs : s.master.sendStop
  · simp [State.mapMaster]
  · simp only [if_true, andThen_eq_next, txPush_eq_next]
    constructor
    · rintro ⟨a, ⟨h1, rfl⟩, h2⟩
      injection h2 with h2
      exact ⟨fun _ => h1, h2⟩
    · rintro ⟨h1, h2⟩
      exact ⟨_, ⟨h1 trivial, rfl⟩, by rw [← h2]; rfl⟩

/-- What a handler of the master pass leaves alone, and how the error and the buffer can change. -/
structure MasterFrame (s t : State) : Prop where
  cfg : t.cfg = s.cfg
  slave : t.slave = s.slave
  res : t.res = s.res
  callbacks : t.callbacks = s.callbacks
  pending : t.pending = s.pending
  events : ∃ l, t.events = s.events ++ l
  dir : t.master.dir = s.master.dir
  sendStop : t.master.sendStop = s.master.sendStop
  ptr : t.master.buf.ptr = s.master.buf.ptr
  len : t.master.buf.len = s.master.buf.len
  freq : t.master.freq = s.master.freq
  cls : t.master.cls = s.master.cls ∨ t.master.cls = speedClass s.master.freq
  err : t.master.err = .ok → s.master.err = .ok
  pltc : t.master.pltc = s.master.pltc
  padPending : t.master.padPending = s.master.padPending
  memOk : memWf s.cfg.ptrW s.mem = true → memWf t.cfg.ptrW t.mem = true

theorem MasterFrame.refl (s : State) : MasterFrame s s :=
  ⟨rfl, rfl, rfl, rfl, rfl, ⟨[], by simp⟩, rfl, rfl, rfl, rfl, rfl, .inl rfl, id, rfl, rfl, id⟩

theorem MasterFrame.trans {s t u : State} (h : MasterFrame s t) (k : MasterFrame t u) : MasterFrame s u := by
  obtain ⟨l, hl⟩ := h.events
  obtain ⟨l', hl'⟩ := k.events
  refine ⟨k.cfg.trans h.cfg, k.slave.trans h.slave, k.res.trans h.res, k.callbacks.trans h.callbacks,
    k.pending.trans h.pending, ⟨l ++ l', by rw [hl', hl, List.append_assoc]⟩, k.dir.trans h.dir,
    k.sendStop.trans h.sendStop, k.ptr.trans h.ptr, k.len.trans h.len, k.freq.trans h.freq, ?_, fun x => h.err (k.err x),
    k.pltc.trans h.pltc, k.padPending.trans h.padPending, fun x => k.memOk (h.memOk x)⟩
  rcases k.cls with e | e
  · rcases h.cls with e' | e'
    · exact .inl (e.trans e')
    · exact .inr (e.trans e')
  · exact .inr (by rw [e, h.freq])

theorem handleErrors_frame {r : MStatus} {s t : State} (h : handleErrors r s = .next t) : MasterFrame s t := by
  obtain ⟨-, rfl⟩ := handleErrors_eq_next.mp h
  rw [recordErrors_eq]
  split
  · rw [recover_eq]
    exact ⟨rfl, rfl, rfl, rfl, rfl, ⟨_, rfl⟩, rfl, rfl, rfl, rfl, rfl, .inr rfl, recordedError_ne_ok, rfl, rfl, id⟩
  · exact ⟨rfl, rfl, rfl, rfl, rfl, ⟨[], by simp⟩, rfl, rfl, rfl, rfl, rfl, .inl rfl, recordedError_ne_ok, rfl, rfl, id⟩

theorem completeTransfer_frame {s t : State} (h : completeTransfer s = .next t) : MasterFrame s t := by
  obtain ⟨-, rfl⟩ := completeTransfer_eq_next.mp h
  exact ⟨rfl, rfl, rfl, rfl, rfl, ⟨[], by simp⟩, rfl, rfl, rfl, rfl, rfl, .inl rfl, id, rfl, rfl, id⟩

theorem handleRda_frame {s t : State} (h : handleRda s = .next t) : MasterFrame s t := by
  unfold handleRda at h
  split at h
  · dsimp only at h
    obtain ⟨mem, x, e, h1, h2, h3⟩ := drainRx_frame (enterTransferring s).master.rxq
      ((enterTransferring s).mapMaster fun m => { m with rxq := [] })
    rw [h1] at h
    have f : MasterFrame s { (enterTransferring s).mapMaster fun m => { m with rxq := [] } with
        mem := mem,
        master := { ((enterTransferring s).mapMaster fun m => { m with rxq := [] }).master with
          buf := { s.master.buf with next := x }, err := e } } :=
      ⟨rfl, rfl, rfl, rfl, rfl, ⟨[], by simp [enterTransferring, State.mapMaster]⟩, rfl, rfl, rfl, rfl, rfl, .inl rfl,
        fun k => by rcases h2 with h2 | h2 <;> simp_all [enterTransferring, State.mapMaster], rfl, rfl, h3⟩
    split at h
    · exact f.trans (completeTransfer_frame h)
    · injection h with h; subst h; exact f
  · injection h with h; subst h
    exact ⟨rfl, rfl, rfl, rfl, rfl, ⟨[], by simp⟩, rfl, rfl, rfl, rfl, rfl, .inl rfl, id, rfl, rfl, id⟩

theorem handleTdr_frame {s t : State} (h : handleTdr s = .next t) : MasterFrame s t := by
  unfold handleTdr at h
  split at h
  · obtain ⟨s2, h1, h2⟩ := andThen_eq_next.mp h
    obtain ⟨x, l, rfl, -⟩ := fillTx_frame h1
    have f : MasterFrame s { enterTransferring s with
        master := { (enterTransferring s).master with
          buf := { (enterTransferring s).master.buf with next := x }, txq := (enterTransferring s).master.txq ++ l } } :=
      ⟨rfl, rfl, rfl, rfl, rfl, ⟨[], by simp [enterTransferring]⟩, rfl, rfl, rfl, rfl, rfl, .inl rfl, id, rfl, rfl, id⟩
    split at h2
    · refine f.trans (MasterFrame.trans ?_ (completeTransfer_frame h2))
      exact ⟨rfl, rfl, rfl, rfl, rfl, ⟨[], by simp⟩, rfl, rfl, rfl, rfl, rfl, .inl rfl, id, rfl, rfl, id⟩
    · injection h2 with h2; subst h2; exact f
  · injection h with h; subst h; exact .refl s

theorem handleStop_frame {s t : State} (h : handleStop s = .next t) : MasterFrame s t := by
  injection h with h
  subst h
  exact ⟨rfl, rfl, rfl, rfl, rfl, ⟨[], by simp⟩, rfl, rfl, rfl, rfl, rfl, .inl rfl, id, rfl, rfl, id⟩

theorem whenFlag_frame {b : Bool} {f : State → Run State} {s t : State} (hf : ∀ {u v}, f u = .next v → MasterFrame u v)
    (h : whenFlag b f s = .next t) : MasterFrame s t := by
  rcases whenFlag_eq_next.mp h with ⟨-, k⟩ | ⟨-, rfl⟩
  · exact hf k
  · exact .refl s

/-- What a whole master pass leaves alone (R123). -/
theorem masterPass_frame {r : MStatus} {s t : State} (h : masterPass r s = .next t) : MasterFrame s t := by
  obtain ⟨s1, h1, h⟩ := andThen_eq_next.mp h
  obtain ⟨s2, h2, h⟩ := andThen_eq_next.mp h
  obtain ⟨s3, h3, h4⟩ := andThen_eq_next.mp h
  exact (whenFlag_frame handleErrors_frame h1).trans ((whenFlag_frame handleRda_frame h2).trans
    ((whenFlag_frame handleTdr_frame h3).trans (whenFlag_frame handleStop_frame h4)))

/-! ### The slave's handlers -/

/-- What a handler of the slave pass leaves alone. It uses up at most `n` callbacks, takes at most `k` receive entries and pushes
at most `j` bytes. -/
structure SlaveFrame (n k j : Nat) (s t : State) : Prop where
  cfg : t.cfg = s.cfg
  master : t.master = s.master
  res : t.res = s.res
  pending : t.pending = s.pending
  events : ∃ l, t.events = s.events ++ l
  callbacks : ∃ l, l.length ≤ n ∧ s.callbacks = l ++ t.callbacks
  rxq : s.slave.rxq.length ≤ t.slave.rxq.length + k ∧ t.slave.rxq.length ≤ s.slave.rxq.length
  txq : t.slave.txq.length ≤ s.slave.txq.length + j
  listen : t.slave.listen = s.slave.listen
  mode : t.slave.mode = s.slave.mode
  match0 : t.slave.match0 = s.slave.match0
  match1 : t.slave.match1 = s.slave.match1
  ier : t.slave.ier = s.slave.ier
  irqEn : t.slave.irqEn = s.slave.irqEn
  handles : t.slave.cbAfterRx = s.slave.cbAfterRx ∧ t.slave.cbBeforeTx = s.slave.cbBeforeTx ∧
    t.slave.cbAfterTx = s.slave.cbAfterTx
  err : t.slave.err = .ok → s.slave.err = .ok
  bound : (∀ c ∈ s.callbacks, c.acts = []) →
    t.slave.rxbuf.ptr = s.slave.rxbuf.ptr ∧ t.slave.rxbuf.len = s.slave.rxbuf.len ∧
    t.slave.txbuf.ptr = s.slave.txbuf.ptr ∧ t.slave.txbuf.len = s.slave.txbuf.len
  rxOk : s.slave.rxbuf.Ok s.cfg → t.slave.rxbuf.Ok t.cfg
  txOk : s.slave.txbuf.Ok s.cfg → t.slave.txbuf.Ok t.cfg
  memOk : memWf s.cfg.ptrW s.mem = true → memWf t.cfg.ptrW t.mem = true

theorem SlaveFrame.refl (s : State) : SlaveFrame 0 0 0 s s :=
  ⟨rfl, rfl, rfl, rfl, ⟨[], by simp⟩, ⟨[], by simp⟩, by simp, by simp, rfl, rfl, rfl, rfl, rfl, rfl, ⟨rfl, rfl, rfl⟩, id,
    fun _ => ⟨rfl, rfl, rfl, rfl⟩, id, id, id⟩

theorem SlaveFrame.trans {n k j n' k' j' : Nat} {s t u : State} (h : SlaveFrame n k j s t) (g : SlaveFrame n' k' j' t u) :
    SlaveFrame (n + n') (k + k') (j + j') s u := by
  obtain ⟨l, hl⟩ := h.events
  obtain ⟨l', hl'⟩ := g.events
  obtain ⟨c, hc1, hc2⟩ := h.callbacks
  obtain ⟨c', hc1', hc2'⟩ := g.callbacks
  have h1 := h.rxq
  have h2 := g.rxq
  have h3 := h.txq
  have h4 := g.txq
  refine ⟨g.cfg.trans h.cfg, g.master.trans h.master, g.res.trans h.res, g.pending.trans h.pending,
    ⟨l ++ l', by rw [hl', hl, List.append_assoc]⟩, ⟨c ++ c', by simp; omega, by rw [hc2, hc2', List.append_assoc]⟩,
    by omega, by omega, g.listen.trans h.listen, g.mode.trans h.mode, g.match0.trans h.match0, g.match1.trans h.match1,
    g.ier.trans h.ier, g.irqEn.trans h.irqEn,
    ⟨g.handles.1.trans h.handles.1, g.handles.2.1.trans h.handles.2.1, g.handles.2.2.trans h.handles.2.2⟩,
    fun x => h.err (g.err x), fun q => ?_, fun x => g.rxOk (h.rxOk x), fun x => g.txOk (h.txOk x),
    fun x => g.memOk (h.memOk x)⟩
  have b1 := h.bound q
  have b2 := g.bound fun d hd => q d (by rw [hc2]; exact List.mem_append_right _ hd)
  exact ⟨b2.1.trans b1.1, b2.2.1.trans b1.2.1, b2.2.2.1.trans b1.2.2.1, b2.2.2.2.trans b1.2.2.2⟩

theorem SlaveFrame.mono {n k j n' k' j' : Nat} {s t : State} (h : SlaveFrame n k j s t) (hn : n ≤ n') (hk : k ≤ k')
    (hj : j ≤ j') : SlaveFrame n' k' j' s t := by
  obtain ⟨c, hc1, hc2⟩ := h.callbacks
  exact ⟨h.cfg, h.master, h.res, h.pending, h.events, ⟨c, hc1.trans hn, hc2⟩, by have := h.rxq; omega,
    by have := h.txq; omega, h.listen, h.mode, h.match0, h.match1, h.ier, h.irqEn, h.handles, h.err, h.bound, h.rxOk,
    h.txOk, h.memOk⟩

/-- An upcall, as a handler of the slave pass makes it. -/
theorem upcall_slaveFrame {w : Nat} {e : OutEvent} {s t : State} (h : upcall w e s = .next t) :
    SlaveFrame 1 0 0 s t := by
  have f := (upcall_frame h).1
  have hb : (∀ c ∈ s.callbacks, c.acts = []) → t.slave = { s.slave with hung := t.slave.hung } := by
    intro q
    obtain ⟨-, rfl⟩ | ⟨-, -, rfl⟩ | ⟨c, rest, u, -, hc, h1, rfl⟩ := upcall_eq_next h
    · rfl
    · rfl
    · rw [q c (by simp [hc]), runActs_nil] at h1
      injection h1 with h1
      rw [← h1, afterCallback_eq]
      rfl
  have hs := f.slave
  exact ⟨f.cfg, f.master, f.res, f.pending, f.events, f.callbacks, by rw [hs]; simp, by rw [hs]; simp, by rw [hs],
    by rw [hs], by rw [hs], by rw [hs], by rw [hs], by rw [hs], by rw [hs]; exact ⟨rfl, rfl, rfl⟩, by rw [hs]; exact id,
    fun q => by rw [hb q]; exact ⟨rfl, rfl, rfl, rfl⟩, f.rxOk, f.txOk, f.memOk⟩

/-- Updates of the slave engine that leave alone what a pass leaves alone. -/
theorem slaveUpdate_frame {j : Nat} {s : State} {v : Slave} (hr : v.rxq = s.slave.rxq)
    (ht : v.txq.length ≤ s.slave.txq.length + j) (hl : v.listen = s.slave.listen) (hm : v.mode = s.slave.mode)
    (h0 : v.match0 = s.slave.match0) (h1 : v.match1 = s.slave.match1) (hi : v.ier = s.slave.ier)
    (hq : v.irqEn = s.slave.irqEn) (ha : v.cbAfterRx = s.slave.cbAfterRx) (hb : v.cbBeforeTx = s.slave.cbBeforeTx)
    (hc : v.cbAfterTx = s.slave.cbAfterTx) (he : v.err = .ok → s.slave.err = .ok)
    (hx : v.rxbuf = s.slave.rxbuf ∨ v.rxbuf = s.slave.rxbuf.rewind)
    (hy : v.txbuf = s.slave.txbuf ∨ v.txbuf = s.slave.txbuf.rewind) : SlaveFrame 0 0 j s { s with slave := v } := by
  refine ⟨rfl, rfl, rfl, rfl, ⟨[], by simp⟩, ⟨[], by simp⟩, by simp [hr], ht, hl, hm, h0, h1, hi, hq, ⟨ha, hb, hc⟩, he,
    fun _ => ?_, fun k => ?_, fun k => ?_, id⟩
  · rcases hx with hx | hx <;> rcases hy with hy | hy <;> simp [hx, hy]
  · rcases hx with hx | hx
    · exact hx ▸ k
    · exact hx ▸ k.rewind
  · rcases hy with hy | hy
    · exact hy ▸ k
    · exact hy ▸ k.rewind

theorem startFrame_frame (sof : Bool) (s : State) : SlaveFrame 0 0 0 s (startFrame sof s) := by
  cases sof
  · exact .refl s
  · exact slaveUpdate_frame rfl (by simp) rfl rfl rfl rfl rfl rfl rfl rfl rfl id (.inr rfl) (.inl rfl)

theorem sRaise_frame {e : ErrorCode} (he : e ≠ .ok) (s : State) : SlaveFrame 0 0 0 s (sRaise e s) :=
  slaveUpdate_frame rfl (by simp) rfl rfl rfl rfl rfl rfl rfl rfl rfl (fun k => absurd k he) (.inl rfl) (.inl rfl)

theorem storeOrDiscard_frame (b : Byte) (s : State) : SlaveFrame 0 0 0 s (storeOrDiscard b s) := by
  unfold storeOrDiscard
  split
  · split
    · by_cases h : (s.buf .sRxBuf).next = (s.buf .sRxBuf).len
      · simp only [bbWrite_full h, Bool.false_eq_true, if_false]
        exact sRaise_frame (by decide) s
      · simp only [bbWrite_room h, if_true]
        exact ⟨rfl, rfl, rfl, rfl, ⟨[], by simp⟩, ⟨[], by simp⟩, by simp [State.setBuf], by simp [State.setBuf], rfl, rfl,
          rfl, rfl, rfl, rfl, ⟨rfl, rfl, rfl⟩, id, fun _ => ⟨rfl, rfl, rfl, rfl⟩, fun k => k.advance h, id,
          memWf_memWrite _ _ _ (ByteBuffer.cursor_lt _ _)⟩
    · exact sRaise_frame (by decide) s
  · exact .refl s

theorem handleRx_frame {s t : State} (h : handleRx s = .next t) : SlaveFrame 0 1 0 s t := by
  unfold handleRx at h
  split at h
  · injection h with h; subst h; exact (SlaveFrame.refl s).mono (by simp) (by simp) (by simp)
  · rename_i e rest hq
    injection h with h
    subst h
    have f : SlaveFrame 0 1 0 s (s.mapSlave fun v => { v with rxq := rest }) :=
      ⟨rfl, rfl, rfl, rfl, ⟨[], by simp⟩, ⟨[], by simp⟩, by simp [hq], by simp, rfl, rfl, rfl, rfl, rfl, rfl,
        ⟨rfl, rfl, rfl⟩, id, fun _ => ⟨rfl, rfl, rfl, rfl⟩, id, id, id⟩
    exact f.trans ((startFrame_frame _ _).trans (storeOrDiscard_frame _ _))

theorem setSState_frame (x : SState) (s : State) : SlaveFrame 0 0 0 s (setSState x s) :=
  slaveUpdate_frame rfl (by simp) rfl rfl rfl rfl rfl rfl rfl rfl rfl id (.inl rfl) (.inl rfl)

theorem clearTrail_frame (s : State) : SlaveFrame 0 0 0 s (clearTrail s) :=
  slaveUpdate_frame rfl (by simp) rfl rfl rfl rfl rfl rfl rfl rfl rfl id (.inl rfl) (.inl rfl)

/-- What comes next in a slave pass, if no callback holds the pass. -/
theorem andLive_slaveFrame {n k j n' k' j' : Nat} {x : Run State} {f : State → Run State} {s t : State}
    (hx : ∀ {u}, x = .next u → SlaveFrame n k j s u) (hf : ∀ {u}, f u = .next t → SlaveFrame n' k' j' u t)
    (h : andLive x f = .next t) : SlaveFrame (n + n') (k + k') (j + j') s t := by
  obtain ⟨u, h1, ⟨-, rfl⟩ | ⟨-, h2⟩⟩ := andLive_eq_next.mp h
  · exact (hx h1).mono (by omega) (by omega) (by omega)
  · exact (hx h1).trans (hf h2)

theorem handleEof_frame {r : SStatus} {s t : State} (h : handleEof r s = .next t) :
    SlaveFrame 1 0 0 s t ∧ t.slave.txq = s.slave.txq ∧ (quietCallbacks s → t.mem = s.mem) := by
  have f0 : SlaveFrame 0 0 0 s (s.mapSlave (clearEof r)) :=
    slaveUpdate_frame rfl (by simp) rfl rfl rfl rfl rfl rfl rfl rfl rfl id (.inl rfl) (.inl rfl)
  have up : ∀ {w e} {u : State}, andLive (upcall w e u) (fun v => .next (setSState .idle v)) = .next t →
      SlaveFrame 1 0 0 u t ∧ t.slave.txq = u.slave.txq ∧ (quietCallbacks u → t.mem = u.mem) := by
    intro w e u k
    obtain ⟨v, h1, h2⟩ := andLive_eq_next.mp k
    have f := upcall_frame h1
    have hq : v.slave.txq = u.slave.txq := by rw [f.1.slave]
    rcases h2 with ⟨-, rfl⟩ | ⟨-, h2⟩
    · exact ⟨upcall_slaveFrame h1, hq, f.2⟩
    · injection h2 with h2
      subst h2
      exact ⟨(upcall_slaveFrame h1).trans (setSState_frame _ _), hq, f.2⟩
  unfold handleEof at h
  dsimp only at h
  split at h
  · obtain ⟨k, hq, hm⟩ := up h
    exact ⟨f0.trans k, hq, hm⟩
  · obtain ⟨k, hq, hm⟩ := up h
    exact ⟨f0.trans ((clearTrail_frame _).trans k), hq, hm⟩
  · injection h with h
    subst h
    exact ⟨(f0.trans ((clearTrail_frame _).trans (setSState_frame _ _))).mono (by simp) (by simp) (by simp), rfl,
      fun _ => rfl⟩
  · injection h with h
    subst h
    exact ⟨f0.mono (by simp) (by simp) (by simp), rfl, fun _ => rfl⟩

/-- A bit error served (R154). -/
theorem handleBerr_eq (s : State) : handleBerr s = .next (bitErrorServed s) := rfl

/-- An address match served (R155). -/
theorem handleAm_eq (s : State) : handleAm s = .next (matchServed s) := by
  unfold handleAm matchServed
  by_cases h : s.slave.state = .aborted
  · simp [h, State.mapSlave, setSState, clearTrail]
  · simp [h, State.mapSlave]

theorem handleBerr_frame {s t : State} (h : handleBerr s = .next t) : SlaveFrame 0 0 0 s t ∧ t.mem = s.mem := by
  injection h with h
  subst h
  exact ⟨slaveUpdate_frame rfl (by simp) rfl rfl rfl rfl rfl rfl rfl rfl rfl (fun k => by cases k) (.inl rfl) (.inl rfl), rfl⟩

theorem handleAm_frame {s t : State} (h : handleAm s = .next t) :
    SlaveFrame 0 0 0 s t ∧ t.slave.txq = s.slave.txq ∧ t.mem = s.mem := by
  have f0 : SlaveFrame 0 0 0 s (s.mapSlave fun v => { v with amFlag := false, addr := v.asr }) :=
    slaveUpdate_frame rfl (by simp) rfl rfl rfl rfl rfl rfl rfl rfl rfl id (.inl rfl) (.inl rfl)
  injection h with h
  subst h
  split
  · exact ⟨f0.trans ((setSState_frame _ _).trans (clearTrail_frame _)), rfl, rfl⟩
  · exact ⟨f0, rfl, rfl⟩

theorem sPush_frame (b : Byte) (s : State) : SlaveFrame 0 0 1 s (sPush b s) :=
  slaveUpdate_frame rfl (by simp) rfl rfl rfl rfl rfl rfl rfl rfl rfl id (.inl rfl) (.inl rfl)

theorem supplyByte_frame {s t : State} (h : supplyByte s = .next t) : SlaveFrame 0 0 1 s t ∧ t.mem = s.mem := by
  unfold supplyByte at h
  split at h
  · split at h
    · obtain ⟨r, h1, h2⟩ := andThen_eq_next.mp h
      obtain ⟨hd, rfl⟩ := bbRead_eq_next.mp h1
      injection h2 with h2
      subst h2
      have hn : (s.buf .sTxBuf).next ≠ (s.buf .sTxBuf).len := fun e => by rw [e] at hd; omega
      exact ⟨⟨rfl, rfl, rfl, rfl, ⟨[], by simp [State.setBuf, sPush]⟩, ⟨[], by simp [State.setBuf, sPush]⟩,
        by simp [State.setBuf, sPush], by simp [State.setBuf, sPush], rfl, rfl, rfl, rfl, rfl, rfl, ⟨rfl, rfl, rfl⟩, id,
        fun _ => ⟨rfl, rfl, rfl, rfl⟩, id, fun k => k.advance hn, id⟩, rfl⟩
    · split at h
      · injection h with h
        subst h
        exact ⟨((sPush_frame _ _).trans (sRaise_frame (by decide) _)), rfl⟩
      · injection h with h
        subst h
        refine ⟨(sPush_frame dummyByte s).trans (n' := 0) (k' := 0) (j' := 0) ?_, rfl⟩
        exact slaveUpdate_frame rfl (by simp) rfl rfl rfl rfl rfl rfl rfl rfl rfl id (.inl rfl) (.inl rfl)
  · injection h with h
    subst h
    exact ⟨((sPush_frame _ _).trans (sRaise_frame (by decide) _)), rfl⟩

theorem startTransmit_frame {s t : State} (h : startTransmit s = .next t) :
    SlaveFrame 1 0 0 s t ∧ (quietCallbacks s → t.mem = s.mem) := by
  unfold startTransmit at h
  split at h
  · injection h with h
    subst h
    exact ⟨(SlaveFrame.refl s).mono (by simp) (by simp) (by simp), fun _ => rfl⟩
  · obtain ⟨u, h1, h2⟩ := andLive_eq_next.mp h
    rcases h2 with ⟨-, rfl⟩ | ⟨-, h2⟩
    · exact ⟨upcall_slaveFrame h1, (upcall_frame h1).2⟩
    · injection h2 with h2
      subst h2
      refine ⟨(upcall_slaveFrame h1).trans (n' := 0) (k' := 0) (j' := 0) ?_, (upcall_frame h1).2⟩
      exact slaveUpdate_frame rfl (by simp) rfl rfl rfl rfl rfl rfl rfl rfl rfl id (.inl rfl) (.inr rfl)

theorem handleTx_frame {s t : State} (h : handleTx s = .next t) :
    SlaveFrame 1 0 1 s t ∧ (quietCallbacks s → t.mem = s.mem) := by
  unfold handleTx at h
  split at h
  · injection h with h
    subst h
    exact ⟨(sPush_frame _ _).mono (by simp) (by simp) (by simp), fun _ => rfl⟩
  · obtain ⟨u, h1, h2⟩ := andLive_eq_next.mp h
    obtain ⟨f, m⟩ := startTransmit_frame h1
    rcases h2 with ⟨-, rfl⟩ | ⟨-, h2⟩
    · exact ⟨f.mono (by simp) (by simp) (by simp), m⟩
    · exact ⟨f.trans (supplyByte_frame h2).1, fun q => (supplyByte_frame h2).2.trans (m q)⟩

theorem whenFlag_slaveFrame {n k j : Nat} {b : Bool} {f : State → Run State} {s t : State}
    (hf : ∀ {u v}, f u = .next v → SlaveFrame n k j u v) (h : whenFlag b f s = .next t) : SlaveFrame n k j s t := by
  rcases whenFlag_eq_next.mp h with ⟨-, g⟩ | ⟨-, rfl⟩
  · exact hf g
  · exact (SlaveFrame.refl s).mono (by simp) (by simp) (by simp)

/-- What a whole slave pass leaves alone, and its bounds (R161). -/
theorem slavePass_frame {r : SStatus} {s t : State} (h : slavePass r s = .next t) : SlaveFrame 2 1 1 s t := by
  obtain ⟨s1, h1, h⟩ := andThen_eq_next.mp h
  refine (whenFlag_slaveFrame handleRx_frame h1).trans
    (andLive_slaveFrame (n' := 1) (k' := 0) (j' := 1) (whenFlag_slaveFrame fun k => (handleEof_frame k).1) ?_ h)
  intro s2 h
  obtain ⟨s3, h3, h⟩ := andThen_eq_next.mp h
  obtain ⟨s4, h4, h5⟩ := andThen_eq_next.mp h
  exact (whenFlag_slaveFrame (fun k => (handleBerr_frame k).1) h3).trans
    ((whenFlag_slaveFrame (fun k => (handleAm_frame k).1) h4).trans
      (whenFlag_slaveFrame (fun k => (handleTx_frame k).1) h5))

end Sys2Proof.Machine
end

