-- ==== Sys2Proof/Laws/PerInstr.lean ====
section
/-! SUPPORT. Each instruction's encoded word is an instance of its row of the opcode table (rules R57, R62, R70, R71). -/

namespace Sys2Proof.Laws.TableRow

/-- The encoded word is of the row's kind and an instance of the row. -/
def Statement (i : Instr) : Prop := (encode i).fmt = (rowOf i).fmt ∧ (encode i).word &&& (rowOf i).mask = (rowOf i).pat

theorem mBegin (f : Nat) : Statement (.mBegin f) := ⟨rfl, cmdWord_maskH _⟩

theorem mEnd : Statement .mEnd := ⟨rfl, cmdWord_maskH _⟩

theorem mWriteAsync (a : Addr) (p n : Nat) (s : Bool) : Statement (.mWriteAsync a p n s) := ⟨rfl, cmdWord_maskHASPL _ _ _⟩

theorem mReadAsync (a : Addr) (p n : Nat) (s : Bool) : Statement (.mReadAsync a p n s) := ⟨rfl, cmdWord_maskHASPL _ _ _⟩

theorem mFinished : Statement .mFinished := ⟨rfl, cmdWord_maskH _⟩

theorem mGetBytesTransferred : Statement .mGetBytesTransferred := ⟨rfl, cmdWord_maskH _⟩

theorem mError : Statement .mError := ⟨rfl, cmdWord_maskH _⟩

theorem mHasError : Statement .mHasError := ⟨rfl, cmdWord_maskH _⟩

theorem mSetPadControl (v : Word) : Statement (.mSetPadControl v) := ⟨rfl, cmdWord_maskH _⟩

theorem mSetPullups (v : Word) : Statement (.mSetPullups v) := ⟨rfl, cmdWord_maskH _⟩

theorem sListen (a : Addr) : Statement (.sListen a) := ⟨rfl, cmdWord_maskHA _ _⟩

theorem sListen2 (a b : Addr) : Statement (.sListen2 a b) := ⟨rfl, cmdWord_maskHAB _ _ _⟩

theorem sListenRange (a b : Addr) : Statement (.sListenRange a b) := ⟨rfl, cmdWord_maskHAB _ _ _⟩

theorem sStopListening : Statement .sStopListening := ⟨rfl, cmdWord_maskH _⟩

theorem sSetRxBuffer (p n : Nat) : Statement (.sSetRxBuffer p n) := ⟨rfl, cmdWord_maskH _⟩

theorem sSetTxBuffer (p n : Nat) : Statement (.sSetTxBuffer p n) := ⟨rfl, cmdWord_maskH _⟩

theorem sAfterReceive (h : Nat) : Statement (.sAfterReceive h) := ⟨rfl, cmdWord_maskH _⟩

theorem sBeforeTransmit (h : Nat) : Statement (.sBeforeTransmit h) := ⟨rfl, cmdWord_maskH _⟩

theorem sAfterTransmit (h : Nat) : Statement (.sAfterTransmit h) := ⟨rfl, cmdWord_maskH _⟩

theorem sError : Statement .sError := ⟨rfl, cmdWord_maskH _⟩

theorem sHasError : Statement .sHasError := ⟨rfl, cmdWord_maskH _⟩

theorem sSetPadControl (v : Word) : Statement (.sSetPadControl v) := ⟨rfl, cmdWord_maskH _⟩

theorem sSetPullups (v : Word) : Statement (.sSetPullups v) := ⟨rfl, cmdWord_maskH _⟩

theorem txwTransmit (d : Byte) : Statement (.txwTransmit d) := ⟨rfl, txwTransmit_mask _⟩

theorem txwReceive (n : Nat) : Statement (.txwReceive n) := ⟨rfl, txwReceive_mask _⟩

theorem txwStop : Statement .txwStop := ⟨rfl, rfl⟩

theorem txwStart (a : Addr) (d : Dir) : Statement (.txwStart a d) := ⟨rfl, txwStart_mask _ _⟩

theorem bbInit (sel : BufSel) (p n : Nat) : Statement (.bbInit sel p n) := ⟨rfl, uop_mask _ _⟩

theorem bbWrite (sel : BufSel) (b : Byte) : Statement (.bbWrite sel b) := ⟨rfl, uop_mask _ _⟩

theorem bbRead (sel : BufSel) : Statement (.bbRead sel) := ⟨rfl, uop_mask _ _⟩

theorem bbHasData (sel : BufSel) : Statement (.bbHasData sel) := ⟨rfl, uop_mask _ _⟩

theorem bbNotStartedReading (sel : BufSel) : Statement (.bbNotStartedReading sel) := ⟨rfl, uop_mask _ _⟩

theorem bbNotStartedWriting (sel : BufSel) : Statement (.bbNotStartedWriting sel) := ⟨rfl, uop_mask _ _⟩

theorem bbFinishedReading (sel : BufSel) : Statement (.bbFinishedReading sel) := ⟨rfl, uop_mask _ _⟩

theorem bbFinishedWriting (sel : BufSel) : Statement (.bbFinishedWriting sel) := ⟨rfl, uop_mask _ _⟩

theorem bbConfigured (sel : BufSel) : Statement (.bbConfigured sel) := ⟨rfl, uop_mask _ _⟩

theorem mIsr : Statement .mIsr := ⟨rfl, ev_mask 0x30#8⟩

theorem sIsr : Statement .sIsr := ⟨rfl, ev_mask 0x31#8⟩

theorem upAfterReceive : Statement .upAfterReceive := ⟨rfl, ev_mask 0x38#8⟩

theorem upBeforeTransmit : Statement .upBeforeTransmit := ⟨rfl, ev_mask 0x39#8⟩

theorem upAfterTransmit : Statement .upAfterTransmit := ⟨rfl, ev_mask 0x3A#8⟩

theorem luMTake : Statement .luMTake := ⟨rfl, ev_mask 0x40#8⟩

theorem luMRx (b : Byte) : Statement (.luMRx b) := ⟨rfl, ev_mask 0x41#8⟩

theorem luMFlag (f : MFlag) : Statement (.luMFlag f) := ⟨rfl, ev_mask 0x42#8⟩

theorem luMLevel (l : MLevel) (v : Bool) : Statement (.luMLevel l v) := ⟨rfl, ev_mask 0x43#8⟩

theorem luSAddr (a : Addr) (rw : Dir) : Statement (.luSAddr a rw) := ⟨rfl, ev_mask 0x50#8⟩

theorem luSRx (b : Byte) (sof : Bool) : Statement (.luSRx b sof) := ⟨rfl, ev_mask 0x51#8⟩

theorem luSTake : Statement .luSTake := ⟨rfl, ev_mask 0x52#8⟩

theorem luSRs : Statement .luSRs := ⟨rfl, ev_mask 0x53#8⟩

theorem luSStop : Statement .luSStop := ⟨rfl, ev_mask 0x54#8⟩

theorem luSBerr : Statement .luSBerr := ⟨rfl, ev_mask 0x55#8⟩

theorem mChannelReset : Statement .mChannelReset := ⟨rfl, ev_mask 0x60#8⟩

theorem mRecoveryPulses : Statement .mRecoveryPulses := ⟨rfl, ev_mask 0x61#8⟩

theorem sChannelReset : Statement .sChannelReset := ⟨rfl, ev_mask 0x62#8⟩

end Sys2Proof.Laws.TableRow
end

