-- ==== Sys2Proof/Tests/Slice0.lean ====
section
/-! SUPPORT. Tests of one step each, their expected results taken from 95_test_vectors.md (the vector is named at each), the decoding
of words written out from 30_encoding.md, and for every statement with hypotheses a state and operands that meet them. -/

namespace Sys2Proof.Tests

open Sys2Proof Sys2Proof.Machine

/-! ### Small states -/

/-- The next state of an outcome. -/
def got (o : Host.Outcome State Fault Refusal) : Option State :=
  match o with
  | .next s => some s
  | .fault _ => none
  | .refused _ => none

/-- A state with a given master engine, all else as at reset. -/
def withM (m : Master) : State := { State.reset with master := m }

/-- A state with a given slave engine, all else as at reset. -/
def withS (v : Slave) : State := { State.reset with slave := v }

/-- The master after `M_BEGIN 100000` (V41-2). -/
def begun : Master := { Master.reset with freq := 100000, ier := 0x5E#7, en := true, irqEn := true }

/-- The master after the START word of a three-byte write with stop was taken (P1 step 4, before its pass). -/
def writing : Master :=
  { begun with
    state := .starting, sendStop := true, ier := 0x5F#7, buf := ⟨0x1000, 3, 0⟩, busy := true, held := true }

/-- The master in a three-byte read with stop, its RECEIVE word not yet taken (P2 step 3). -/
def reading : Master :=
  { begun with
    state := .starting, dir := .read, sendStop := true, buf := ⟨0x2000, 3, 0⟩, txq := [0x102#11], busy := true,
    held := true }

/-- The slave after `S_LISTEN 0x22` (V43-1). -/
def listening : Slave :=
  { Slave.reset with
    listen := true, mode := .single, match0 := 0x22#7, match1 := 0x22#7, ier := 0x3F#6, irqEn := true }

/-- The slave at 0x22 in a received frame, buffer of four bytes at 0x3000 (P3). -/
def receiving : Slave :=
  { listening with
    state := .receiving, addr := 0x22#7, rxbuf := ⟨0x3000, 4, 1⟩, cbAfterRx := 0x100, cbBeforeTx := 0x104,
    cbAfterTx := 0x108 }

/-- The slave at 0x22 in a transmitted frame, buffer of two bytes at 0x4000 (P3), a byte requested. -/
def transmitting : Slave :=
  { listening with
    state := .transmitting, addr := 0x22#7, txbuf := ⟨0x4000, 2, 1⟩, txreq := true, cbAfterTx := 0x108 }

/-- The narrowest registers but for a 16-bit address (R6). -/
def narrow : Config := { Config.default with ptrW := 16, lenW := 9, freqW := 20 }

/-- A platform with sixteen bytes of device registers in its address space (R45). -/
def platform : Config := { Config.default with devices := [⟨0x8000, 16⟩] }

/-- The registers a master trace of 95_test_vectors.md writes. -/
structure MView where
  state : MState
  err : ErrorCode
  ier : BitVec 7
  txq : List (BitVec 11)
  next : Nat
  busy : Bool
  held : Bool
  deriving DecidableEq, Repr

/-- A state's `MView`. -/
def mView (s : State) : MView :=
  ⟨s.master.state, s.master.err, s.master.ier, s.master.txq, s.master.buf.next, s.master.busy, s.master.held⟩

/-- The registers a slave trace of 95_test_vectors.md writes. -/
structure SView where
  state : SState
  err : ErrorCode
  addr : Addr
  trail : Bool
  rxNext : Nat
  txNext : Nat
  txq : List Byte
  deriving DecidableEq, Repr

/-- A state's `SView`. -/
def sView (s : State) : SView :=
  ⟨s.slave.state, s.slave.err, s.slave.addr, s.slave.trail, s.slave.rxbuf.next, s.slave.txbuf.next, s.slave.txq⟩

/-! ### WellFormed refuses what its checks name (R58, R59, R62) -/

theorem test_pullup_selection_ill_formed : (Instr.mSetPullups 4#32).wellFormed = false ∧
    (Instr.sSetPullups 4#32).wellFormed = false ∧ (Instr.mSetPullups 3#32).wellFormed = true := by decide

theorem test_receive_count_ill_formed : (Instr.txwReceive 0).wellFormed = false ∧
    (Instr.txwReceive 257).wellFormed = false ∧ (Instr.txwReceive 256).wellFormed = true := by decide

/-! ### Decoding (V30-1, V30-2, V30-3, V30-4, R70, R71) -/

theorem test_decode_master_commands :
    decode ⟨.cmd, 0x00000010#32, 0x00061A80, 0⟩ = .ok (.mBegin 400000) ∧
    decode ⟨.cmd, 0x00000011#32, 0, 0⟩ = .ok .mEnd ∧
    decode ⟨.cmd, 0x0000FF12#32, 0x1000, 3⟩ = .ok (.mWriteAsync 0x7F#7 0x1000 3 true) ∧
    decode ⟨.cmd, 0x00002213#32, 0x2000, 2⟩ = .ok (.mReadAsync 0x22#7 0x2000 2 false) ∧
    decode ⟨.cmd, 0x00000014#32, 0xDEADBEEF, 0⟩ = .ok .mFinished ∧
    decode ⟨.cmd, 0x00000015#32, 0, 0⟩ = .ok .mGetBytesTransferred ∧
    decode ⟨.cmd, 0x00000016#32, 0, 0⟩ = .ok .mError ∧
    decode ⟨.cmd, 0x00000017#32, 0, 0⟩ = .ok .mHasError ∧
    decode ⟨.cmd, 0x00000018#32, 0x0001F830, 0⟩ = .ok (.mSetPadControl 0x0001F830#32) ∧
    decode ⟨.cmd, 0x00000019#32, 2, 0⟩ = .ok (.mSetPullups 2#32) := by decide

theorem test_decode_slave_commands :
    decode ⟨.cmd, 0x00007F20#32, 0, 0⟩ = .ok (.sListen 0x7F#7) ∧
    decode ⟨.cmd, 0x00482221#32, 0, 0⟩ = .ok (.sListen2 0x22#7 0x48#7) ∧
    decode ⟨.cmd, 0x00770822#32, 0, 0⟩ = .ok (.sListenRange 0x08#7 0x77#7) ∧
    decode ⟨.cmd, 0x00000023#32, 0, 0⟩ = .ok .sStopListening ∧
    decode ⟨.cmd, 0x00000024#32, 0x3000, 4⟩ = .ok (.sSetRxBuffer 0x3000 4) ∧
    decode ⟨.cmd, 0x00000025#32, 0x4000, 2⟩ = .ok (.sSetTxBuffer 0x4000 2) ∧
    decode ⟨.cmd, 0x00000026#32, 0x100, 0⟩ = .ok (.sAfterReceive 0x100) ∧
    decode ⟨.cmd, 0x00000027#32, 0x104, 0⟩ = .ok (.sBeforeTransmit 0x104) ∧
    decode ⟨.cmd, 0x00000028#32, 0x108, 0⟩ = .ok (.sAfterTransmit 0x108) ∧
    decode ⟨.cmd, 0x00000029#32, 0, 0⟩ = .ok .sError ∧
    decode ⟨.cmd, 0x0000002A#32, 0, 0⟩ = .ok .sHasError ∧
    decode ⟨.cmd, 0x0000002B#32, 0x0001F830, 0⟩ = .ok (.sSetPadControl 0x0001F830#32) ∧
    decode ⟨.cmd, 0x0000002C#32, 3, 0⟩ = .ok (.sSetPullups 3#32) := by decide

theorem test_decode_transmit_words :
    decode ⟨.txw, 0x0FF#32, 0, 0⟩ = .ok (.txwTransmit 0xFF#8) ∧
    decode ⟨.txw, 0x102#32, 0, 0⟩ = .ok (.txwReceive 3) ∧
    decode ⟨.txw, 0x200#32, 0, 0⟩ = .ok .txwStop ∧
    decode ⟨.txw, 0x4FF#32, 0, 0⟩ = .ok (.txwStart 0x7F#7 .read) ∧
    decode ⟨.txw, 0x444#32, 0, 0⟩ = .ok (.txwStart 0x22#7 .write) := by decide

theorem test_decode_micro_operations :
    decode ⟨.uop, 0x00#32, 0x100, 2⟩ = .ok (.bbInit .mBuf 0x100 2) ∧
    decode ⟨.uop, 0x11#32, 0xAB, 0⟩ = .ok (.bbWrite .sRxBuf 0xAB#8) ∧
    decode ⟨.uop, 0x22#32, 0, 0⟩ = .ok (.bbRead .sTxBuf) ∧
    decode ⟨.uop, 0x03#32, 0, 0⟩ = .ok (.bbHasData .mBuf) ∧
    decode ⟨.uop, 0x14#32, 0, 0⟩ = .ok (.bbNotStartedReading .sRxBuf) ∧
    decode ⟨.uop, 0x25#32, 0, 0⟩ = .ok (.bbNotStartedWriting .sTxBuf) ∧
    decode ⟨.uop, 0x06#32, 0, 0⟩ = .ok (.bbFinishedReading .mBuf) ∧
    decode ⟨.uop, 0x17#32, 0, 0⟩ = .ok (.bbFinishedWriting .sRxBuf) ∧
    decode ⟨.uop, 0x28#32, 0, 0⟩ = .ok (.bbConfigured .sTxBuf) := by decide

theorem test_decode_events :
    decode ⟨.ev, 0x30#32, 0, 0⟩ = .ok .mIsr ∧ decode ⟨.ev, 0x31#32, 0, 0⟩ = .ok .sIsr ∧
    decode ⟨.ev, 0x38#32, 0, 0⟩ = .ok .upAfterReceive ∧ decode ⟨.ev, 0x39#32, 0, 0⟩ = .ok .upBeforeTransmit ∧
    decode ⟨.ev, 0x3A#32, 0, 0⟩ = .ok .upAfterTransmit ∧ decode ⟨.ev, 0x40#32, 0, 0⟩ = .ok .luMTake ∧
    decode ⟨.ev, 0x41#32, 0x58, 0⟩ = .ok (.luMRx 0x58#8) ∧
    decode ⟨.ev, 0x42#32, 4, 0⟩ = .ok (.luMFlag .plt) ∧
    decode ⟨.ev, 0x43#32, 1, 1⟩ = .ok (.luMLevel .held true) ∧
    decode ⟨.ev, 0x50#32, 0x22, 1⟩ = .ok (.luSAddr 0x22#7 .read) ∧
    decode ⟨.ev, 0x51#32, 0x11, 1⟩ = .ok (.luSRx 0x11#8 true) ∧
    decode ⟨.ev, 0x52#32, 0, 0⟩ = .ok .luSTake ∧ decode ⟨.ev, 0x53#32, 0, 0⟩ = .ok .luSRs ∧
    decode ⟨.ev, 0x54#32, 0, 0⟩ = .ok .luSStop ∧ decode ⟨.ev, 0x55#32, 0, 0⟩ = .ok .luSBerr ∧
    decode ⟨.ev, 0x60#32, 0, 0⟩ = .ok .mChannelReset ∧ decode ⟨.ev, 0x61#32, 0, 0⟩ = .ok .mRecoveryPulses ∧
    decode ⟨.ev, 0x62#32, 0, 0⟩ = .ok .sChannelReset := by decide

theorem test_refused_words :
    decode ⟨.cmd, 0x00000000#32, 0, 0⟩ = .error .unknownOpcode ∧
    decode ⟨.cmd, 0x0000002D#32, 0, 0⟩ = .error .unknownOpcode ∧
    decode ⟨.cmd, 0x00000114#32, 0, 0⟩ = .error .reservedField ∧
    decode ⟨.cmd, 0x00010020#32, 0, 0⟩ = .error .reservedField ∧
    decode ⟨.cmd, 0x8000A212#32, 0, 0⟩ = .error .reservedField ∧
    decode ⟨.cmd, 0x00488221#32, 0, 0⟩ = .error .reservedField ∧
    decode ⟨.cmd, 0x00000019#32, 4, 0⟩ = .error .pullupReserved ∧
    decode ⟨.txw, 0x300#32, 0, 0⟩ = .error .reservedTxWord ∧
    decode ⟨.txw, 0x2FF#32, 0, 0⟩ = .error .reservedTxWord ∧
    decode ⟨.uop, 0x30#32, 0, 0⟩ = .error .reservedSelector ∧
    decode ⟨.uop, 0x09#32, 0, 0⟩ = .error .reservedMicroOp ∧
    decode ⟨.ev, 0x63#32, 0, 0⟩ = .error .unknownEvent ∧
    decode ⟨.ev, 0x50#32, 128, 0⟩ = .error .operandRange := by decide

theorem test_encode_of_script_lines :
    encode (.mWriteAsync 0x50#7 0 0 true) = ⟨.cmd, 0x0000D012#32, 0, 0⟩ ∧
    encode (.sListenRange 0x20#7 0x27#7) = ⟨.cmd, 0x00272022#32, 0, 0⟩ ∧
    encode (.txwReceive 256) = ⟨.txw, 0x1FF#32, 0, 0⟩ ∧
    encode (.txwStart 0x10#7 .read) = ⟨.txw, 0x421#32, 0, 0⟩ := by decide

theorem test_table_words :
    decodeTableWord 32 0x00000023 = some .sStopListening ∧ decodeTableWord 16 0x200 = some .txwStop ∧
    decodeTableWord 11 0x444 = some (.txwStart 0x22#7 .write) ∧ decodeTableWord 8 0x02 = some (.bbRead .mBuf) ∧
    decodeTableWord 6 0x08 = some (.bbConfigured .mBuf) ∧ decodeTableWord 8 0x54 = some .luSStop := by decide

/-- A step runs the word placed for it (log 1): `M_BEGIN 0` as the first step after reset enables the channel. -/
theorem test_step_runs_placed_word : (got (step (State.reset.withFetchWord 32 0x10))).map (fun t => t.master.en) = some true := by
  decide

/-- A transmit word placed as the first step is taken by the line unit (log 13): the START of V45-2. -/
theorem test_step_runs_placed_transmit_word :
    (got (step (State.reset.withFetchWord 16 0x444))).map (fun t => (t.master.held, t.master.txq, t.res)) =
      some (true, [], some 0x444) := by
  decide

/-! ### Host commands of the master engine -/

/-- V41-2. -/
theorem test_begin : (got (exec (.mBegin 100000) State.reset)).map (fun t => (mView t, t.master.cls, t.master.en, t.events)) =
    some (⟨.idle, .ok, 0x5E#7, [], 0, false, false⟩, .standard, true, [.mChannelReset]) := by decide

/-- V41-13: the pads are applied by `M_BEGIN`; V41-14: the error stays. -/
theorem test_begin_applies_pads_and_keeps_error :
    (got (exec (.mBegin 400000) (withM { begun with padPending := ⟨0x0001F830#32, 2#2⟩, err := .dataNak }))).map
      (fun t => (t.master.padApplied, t.master.cls, t.master.err)) = some (⟨0x0001F830#32, 2#2⟩, .fast, .dataNak) := by decide

/-- V41-11: `M_END` in the middle of a write. -/
theorem test_end : (got (exec .mEnd (withM { writing with state := .transferring, txq := [0x001#11, 0x002#11] }))).map
    (fun t => (mView t, t.master.en, t.master.irqEn, mIrq t)) =
      some (⟨.idle, .ok, 0x5F#7, [0x001#11, 0x002#11], 0, true, true⟩, false, false, false) := by decide

/-- V41-3. -/
theorem test_write_async : (got (exec (.mWriteAsync 0x22#7 0x1000 3 true) (withM begun))).map
    (fun t => (mView t, t.master.buf, t.master.dir, t.master.sendStop, mIrq t)) =
      some (⟨.starting, .ok, 0x5F#7, [0x444#11], 0, false, false⟩, ⟨0x1000, 3, 0⟩, .write, true, false) := by
  decide

/-- V41-7: a probe ends with STOP whatever `send_stop` says. -/
theorem test_write_probe : (got (exec (.mWriteAsync 0x50#7 0 0 false) (withM begun))).map
    (fun t => (mView t, t.master.sendStop)) =
      some (⟨.starting, .ok, 0x5E#7, [0x4A0#11, 0x200#11], 0, false, false⟩, false) := by decide

/-- V41-6: the longest read, which clears the error of V41-5. -/
theorem test_read_async_256 :
    (got (exec (.mReadAsync 0x10#7 0x2000 256 true) (withM { begun with err := .invalidRequest }))).map
      (fun t => (mView t, t.master.dir)) =
      some (⟨.starting, .ok, 0x5E#7, [0x421#11, 0x1FF#11], 0, false, false⟩, .read) := by decide

/-- V41-12: words of an abandoned write and a bus still held: `master_fifos_not_empty`, `m_dir` new, `m_buf` old. -/
theorem test_read_async_stale :
    (got (exec (.mReadAsync 0x30#7 0x2000 1 true)
      (withM { writing with state := .stopped, ier := 0x5E#7, txq := [0x001#11, 0x002#11], busy := false }))).map
        (fun t => (mView t, t.master.dir, t.master.buf.ptr)) =
      some (⟨.stopping, .masterFifosNotEmpty, 0x5E#7, [0x200#11], 0, false, true⟩, .read, 0x1000) := by decide

/-- V41-10: a finished state with `M_BUSY` = 1. -/
theorem test_finished_busy : (got (exec .mFinished (withM { begun with state := .stopped, busy := true }))).map State.res =
    some (some 0) := by decide

/-- P6 step 6: `transfer_complete` with the bus held is finished. -/
theorem test_finished_held :
    (got (exec .mFinished (withM { begun with state := .transferComplete, held := true }))).map State.res =
      some (some 1) := by decide

/-- P1 step 12. -/
theorem test_get_bytes_transferred :
    (got (exec .mGetBytesTransferred (withM { begun with buf := ⟨0x1000, 3, 3⟩ }))).map State.res =
      some (some 3) := by decide

/-- P4 step 7: `address_nak` reads 9. -/
theorem test_error : (got (exec .mError (withM { begun with err := .addressNak }))).map State.res = some (some 9) := by
  decide

/-- V41-5. -/
theorem test_has_error : (got (exec .mHasError (withM { begun with err := .invalidRequest }))).map State.res =
    some (some 1) := by decide

/-- V41-13. -/
theorem test_set_pad_control : (got (exec (.mSetPadControl 0x0001F830#32) (withM begun))).map
    (fun t => (t.master.padPending, t.master.padApplied)) = some (⟨0x0001F830#32, 0#2⟩, ⟨0#32, 0#2⟩) := by decide

/-- V41-13. -/
theorem test_set_pullups : (got (exec (.mSetPullups 2#32) (withM { begun with padPending := ⟨0x0001F830#32, 0#2⟩ }))).map
    (fun t => (t.master.padPending, t.master.padApplied)) = some (⟨0x0001F830#32, 2#2⟩, ⟨0#32, 0#2⟩) := by decide

/-! ### Host commands of the slave engine -/

/-- V43-1, P5 step 8: the error is cleared, `s_addr` stays. -/
theorem test_listen : (got (exec (.sListen 0x25#7) (withS { Slave.reset with err := .bufferUnderflow, addr := 0x25#7 }))).map
    (fun t => (sView t, t.slave.mode, t.slave.ier, sIrq t, t.events)) =
      some (⟨.idle, .ok, 0x25#7, false, 0, 0, []⟩, .single, 0x3F#6, false, [.sChannelReset]) := by decide

/-- V43-2. -/
theorem test_listen2_matches : (got (exec (.sListen2 0x22#7 0x48#7) State.reset)).map
    (fun t => [0x21#7, 0x22#7, 0x23#7, 0x47#7, 0x48#7, 0x49#7].map (sMatch t.slave)) =
      some [false, true, false, false, true, false] := by decide

/-- V43-2. -/
theorem test_listen_range_matches : (got (exec (.sListenRange 0x20#7 0x27#7) State.reset)).map
    (fun t => [0x1F#7, 0x20#7, 0x25#7, 0x27#7, 0x28#7].map (sMatch t.slave)) = some [false, true, true, true, false] := by
  decide

/-- V43-2: a range whose ends are exchanged matches nothing. -/
theorem test_listen_range_empty : (got (exec (.sListenRange 0x27#7 0x20#7) State.reset)).map
    (fun t => [0x20#7, 0x24#7, 0x27#7].map (sMatch t.slave)) = some [false, false, false] := by decide

/-- V43-3. -/
theorem test_stop_listening :
    (got (exec .sStopListening (withS { transmitting with trail := true, txq := [0#8], err := .bufferUnderflow }))).map
      (fun t => (sView t, t.slave.listen, t.slave.ier, sIrq t)) =
      some (⟨.idle, .bufferUnderflow, 0x22#7, false, 0, 1, [0#8]⟩, false, 0#6, false) := by decide

/-- P3 step 1; V44-5: the state stays `receiving`. -/
theorem test_set_rx_buffer : (got (exec (.sSetRxBuffer 0x3100 4) (withS receiving))).map
    (fun t => (t.slave.rxbuf, t.slave.state)) = some (⟨0x3100, 4, 0⟩, .receiving) := by decide

/-- P3 step 2. -/
theorem test_set_tx_buffer : (got (exec (.sSetTxBuffer 0x4000 2) State.reset)).map (fun t => t.slave.txbuf) =
    some ⟨0x4000, 2, 0⟩ := by decide

/-- P3 steps 3 to 5. -/
theorem test_callback_handles :
    (got (exec (.sAfterReceive 0x100) State.reset)).map (fun t => t.slave.cbAfterRx) = some 0x100 ∧
    (got (exec (.sBeforeTransmit 0x104) State.reset)).map (fun t => t.slave.cbBeforeTx) = some 0x104 ∧
    (got (exec (.sAfterTransmit 0x108) State.reset)).map (fun t => t.slave.cbAfterTx) = some 0x108 := by decide

/-- P3 step 18. -/
theorem test_slave_error : (got (exec .sError (withS { listening with err := .bufferUnderflow }))).map State.res =
    some (some 3) ∧ (got (exec .sHasError (withS { listening with err := .bufferUnderflow }))).map State.res =
    some (some 1) := by decide

/-- V41-13, last sentence. -/
theorem test_slave_pads :
    (got (exec (.sSetPadControl 0x0001F830#32) State.reset)).map (fun t => t.slave.padPending) =
      some ⟨0x0001F830#32, 0#2⟩ ∧
    (got (exec (.sSetPullups 3#32) State.reset)).map (fun t => t.slave.padPending) = some ⟨0#32, 3#2⟩ := by decide

/-! ### Transmit words and the line unit's moves -/

/-- V45-2. -/
theorem test_take_start : (got (exec .luMTake (withM { begun with txq := [0x444#11, 0x102#11] }))).map
    (fun t => (mView t, t.res)) =
      some (⟨.idle, .ok, 0x5E#7, [0x102#11], 0, true, true⟩, some 0x444) := by decide

/-- V45-2. -/
theorem test_take_stop : (got (exec .txwStop (withM { begun with txq := [0x200#11], busy := true, held := true }))).map
    (fun t => (t.master.held, t.master.busy, t.master.stopFlag, t.res)) = some (false, true, true, some 0x200) := by
  decide

/-- V45-2: a data word changes nothing but the FIFO. -/
theorem test_take_data : (got (exec (.txwTransmit 0xAA#8) (withM { begun with txq := [0x0AA#11, 0x0BB#11] }))).map
    (fun t => (mView t, t.master.stopFlag, t.res)) =
      some (⟨.idle, .ok, 0x5E#7, [0x0BB#11], 0, false, false⟩, false, some 0x0AA) := by decide

/-- V45-2: so does a RECEIVE word. -/
theorem test_take_receive : (got (exec (.txwReceive 3) (withM { begun with txq := [0x102#11] }))).map
    (fun t => (mView t, t.res)) = some (⟨.idle, .ok, 0x5E#7, [], 0, false, false⟩, some 0x102) := by decide

/-- P1 step 4. -/
theorem test_take_start_word : (got (exec (.txwStart 0x22#7 .write) (withM { begun with txq := [0x444#11] }))).map
    (fun t => (t.master.txq, t.master.busy, t.master.held)) = some ([], true, true) := by decide

/-- U6: a reserved word in the FIFO (R62). -/
theorem test_take_reserved : exec .luMTake (withM { begun with txq := [0x300#11] }) = .fault .reservedTxWord := rfl

/-- P2 step 4, before the pass. -/
theorem test_lu_m_rx : (got (exec (.luMRx 0x58#8) (withM { reading with rxq := [0x00#8] }))).map (fun t => t.master.rxq) =
    some [0x00#8, 0x58#8] := by decide

/-- V45-1: a full receive FIFO. -/
theorem test_lu_m_rx_full : exec (.luMRx 0x58#8) (withM { reading with rxq := [1#8, 2#8, 3#8, 4#8] }) =
    .refused .moveNotEnabled := rfl

/-- V42-2: `M_FERR` alone is status 0x021 and no cause. -/
theorem test_lu_m_flag_ferr : (got (exec (.luMFlag .ferr) (withM begun))).map
    (fun t => ((mStatus t.cfg t.master).word, mIrq t)) = some (0x021#9, false) := by decide

/-- V42-2: with `FERR`, `BUSY` and `HELD` set, `NAK` makes 0x1A9 and is a cause. -/
theorem test_lu_m_flag_nak :
    (got (exec (.luMFlag .nak) (withM { begun with ferrFlag := true, busy := true, held := true }))).map
      (fun t => ((mStatus t.cfg t.master).word, mIrq t)) = some (0x1A9#9, true) := by decide

/-- V45-4: `PLTC` changes even while the channel is disabled, and sets no flag. -/
theorem test_lu_m_level_pltc : (got (exec (.luMLevel .pltc true) State.reset)).map
    (fun t => (t.master.pltc, (mStatus t.cfg t.master).word, mIrq t)) = some (true, 0x001#9, false) := by decide

/-- V45-1. -/
theorem test_lu_m_level_disabled : exec (.luMLevel .busy true) State.reset = .refused .moveNotEnabled := rfl

/-- V30-5: after `LU_S_ADDR 0x22, R` the slave status is 0x05. -/
theorem test_lu_s_addr : (got (exec (.luSAddr 0x22#7 .read) (withS listening))).map
    (fun t => ((sStatus t.slave).word, t.slave.asr, sIrq t)) = some (0x05#6, 0x22#7, true) := by decide

/-- V43-2: an address that does not match. -/
theorem test_lu_s_addr_no_match : exec (.luSAddr 0x23#7 .write) (withS listening) = .refused .moveNotEnabled := rfl

/-- V45-1: one entry fills the receive register. -/
theorem test_lu_s_rx : (got (exec (.luSRx 0x11#8 true) (withS listening))).map (fun t => t.slave.rxq) = some [0x111#9] ∧
    got (exec (.luSRx 0x12#8 false) (withS { listening with rxq := [0x111#9] })) = none := by decide

/-- P3 step 14, before the pass. -/
theorem test_lu_s_take : (got (exec .luSTake (withS { transmitting with txq := [0x58#8] }))).map
    (fun t => (t.slave.txq, t.res, sIrq t)) = some ([], some 0x58, true) := by decide

/-- V45-3. -/
theorem test_lu_s_rs : (got (exec .luSRs (withS { transmitting with txq := [0#8] }))).map
    (fun t => (t.slave.rsFlag, t.slave.txreq, t.slave.txq)) = some (true, false, []) := by decide

/-- V45-3. -/
theorem test_lu_s_stop : (got (exec .luSStop (withS { transmitting with txq := [0#8] }))).map
    (fun t => (t.slave.stopFlag, t.slave.txreq, t.slave.txq)) = some (true, false, []) := by decide

/-- V45-3: a bit error leaves the request and the waiting byte. -/
theorem test_lu_s_berr : (got (exec .luSBerr (withS { transmitting with txq := [0#8] }))).map
    (fun t => (t.slave.berrFlag, t.slave.txreq, t.slave.txq)) = some (true, true, [0#8]) := by decide

/-! ### ByteBuffer -/

/-- V40-1, V40-13: a null pointer is not checked. -/
theorem test_bb_init : (got (exec (.bbInit .mBuf 0 5) (withM writing))).map (fun t => t.master.buf) =
    some ⟨0, 5, 0⟩ := by decide

/-- U8: one byte over the top of the address space; the last byte itself is within. -/
theorem test_bb_init_top : exec (.bbInit .mBuf 0xFFFFFFFF 2) State.reset = .refused .regionWraps ∧
    (got (exec (.bbInit .mBuf 0xFFFFFFFF 1) State.reset)).isSome = true := ⟨rfl, by decide⟩

/-- V40-3. -/
theorem test_bb_write : (got (exec (.bbWrite .sRxBuf 0xAB#8) (withS { Slave.reset with rxbuf := ⟨0x100, 2, 0⟩ }))).map
    (fun t => (t.res, t.slave.rxbuf.next, t.mem)) = some (some 1, 1, [(0x100, 0xAB#8)]) := by decide

/-- V40-6. -/
theorem test_bb_write_full :
    (got (exec (.bbWrite .sRxBuf 0x03#8) (withS { Slave.reset with rxbuf := ⟨0x100, 2, 2⟩ }))).map
      (fun t => (t.res, t.slave.rxbuf.next, t.mem)) = some (some 0, 2, []) := by decide

/-- V40-8. -/
theorem test_bb_read :
    (got (exec (.bbRead .sTxBuf)
      { State.reset with slave := { Slave.reset with txbuf := ⟨0x100, 2, 0⟩ }, mem := [(0x100, 0xAB#8)] })).map
        (fun t => (t.res, t.slave.txbuf.next)) = some (some 0xAB, 1) := by decide

/-- V40-10. -/
theorem test_bb_read_past_end : exec (.bbRead .sTxBuf) (withS { Slave.reset with txbuf := ⟨0x100, 2, 2⟩ }) =
    .fault .readPastEnd := rfl

/-- V40-2, V40-5 and the half-used buffer: the six queries. -/
theorem test_bb_queries :
    [0, 1, 2].map (fun n => [Instr.bbHasData .mBuf, .bbNotStartedReading .mBuf, .bbNotStartedWriting .mBuf,
        .bbFinishedReading .mBuf, .bbFinishedWriting .mBuf, .bbConfigured .mBuf].map fun i =>
          (got (exec i (withM { begun with buf := ⟨0x100, 2, n⟩ }))).bind State.res) =
      [[some 1, some 1, some 1, some 0, some 0, some 1],
       [some 1, some 0, some 0, some 0, some 0, some 1],
       [some 0, some 0, some 0, some 1, some 1, some 1]] := by decide

/-! ### The master pass -/

/-- P1 step 4: the first pass of a write fills the FIFO. -/
theorem test_master_pass_fills :
    (got (exec .mIsr { withM writing with mem := [(0x1000, 0x01#8), (0x1001, 0xAA#8), (0x1002, 0xBB#8)] })).map mView =
      some ⟨.transferring, .ok, 0x5F#7, [0x001#11, 0x0AA#11, 0x0BB#11], 3, true, true⟩ := by decide

/-- V42-4: one byte too many for a read of one byte. -/
theorem test_master_pass_overflow :
    (got (exec .mIsr (withM { reading with buf := ⟨0x2000, 1, 0⟩, txq := [], rxq := [0x11#8, 0x22#8] }))).map
      (fun t => (mView t, t.mem)) =
      some (⟨.stopping, .bufferOverflow, 0x5E#7, [0x200#11], 1, true, true⟩, [(0x2000, 0x11#8)]) := by decide

/-! ### The slave pass -/

/-- P3 step 12: the fifth byte into a buffer of four; P5 step 2: an address match with the first request, no buffer. -/
theorem test_slave_pass_overflow :
    (got (exec .sIsr (withS { receiving with rxq := [0x055#9], rxbuf := ⟨0x3000, 4, 4⟩ }))).map
      (fun t => (sView t, t.mem)) = some (⟨.receiving, .bufferOverflow, 0x22#7, false, 4, 0, []⟩, []) ∧
    (got (exec .sIsr (withS { listening with amFlag := true, asr := 0x25#7, txreq := true }))).map sView =
      some ⟨.transmitting, .bufferUnderflow, 0x25#7, false, 0, 0, [0x00#8]⟩ := by decide

/-- P3 step 13: a repeated START: the old frame is closed before the new one's first byte is supplied; V44-6: everything in one
snapshot. -/
theorem test_slave_pass_repeated_start :
    (got (exec .sIsr { withS { receiving with
          rxbuf := ⟨0x3000, 4, 4⟩, txbuf := ⟨0x4000, 2, 0⟩, err := .bufferOverflow, rsFlag := true,
          amFlag := true, asr := 0x22#7, txreq := true } with mem := [(0x4000, 0x58#8), (0x4001, 0xA7#8)] })).map
      (fun t => (sView t, t.events)) =
      some (⟨.transmitting, .bufferOverflow, 0x22#7, false, 4, 1, [0x58#8]⟩,
        [.afterReceive 0x100 4 0x22#8, .beforeTransmit 0x104 0x22#8]) ∧
    (got (exec .sIsr { withS { receiving with
          state := .idle, rxq := [0x101#9], rxbuf := ⟨0x3000, 4, 0⟩, txbuf := ⟨0x4000, 1, 0⟩, rsFlag := true, amFlag := true,
          asr := 0x48#7, txreq := true } with mem := [(0x4000, 0x58#8)] })).map (fun t => (sView t, t.events, t.mem)) =
      some (⟨.transmitting, .ok, 0x48#7, false, 1, 1, [0x58#8]⟩,
        [.afterReceive 0x100 1 0x22#8, .beforeTransmit 0x104 0x48#8], [(0x3000, 0x01#8), (0x4000, 0x58#8)]) := by decide

/-! ### Upcalls and output events -/

/-- V44-4: the callback of `before_transmit` binds the buffer. -/
theorem test_before_transmit_binds :
    (got (exec .upBeforeTransmit { withS { listening with addr := 0x22#7, cbBeforeTx := 0x104 } with
        callbacks := [{ acts := [.command 0x25#32 0x5000 2], returns := true }] })).map
      (fun t => (t.slave.txbuf, t.events, t.callbacks)) =
      some (⟨0x5000, 2, 0⟩, [.beforeTransmit 0x104 0x22#8], []) := by decide

/-- P3 step 17; P5 step 5: no upcall with the null handle. -/
theorem test_after_transmit : (got (exec .upAfterTransmit (withS transmitting))).map State.events =
    some [.afterTransmit 0x108 0x22#8] ∧
    (got (exec .upAfterTransmit (withS { transmitting with cbAfterTx := 0 }))).map State.events = some [] := by decide

/-- P7 step 8. -/
theorem test_after_receive :
    (got (exec .upAfterReceive (withS { receiving with rxbuf := ⟨0x3000, 4, 3⟩ }))).map State.events =
      some [.afterReceive 0x100 3 0x22#8] := by decide

/-- U7: a command that is not permitted inside an upcall (R158). -/
theorem test_upcall_refuses_listen :
    exec .upAfterReceive { withS receiving with callbacks := [{ acts := [.command 0x2220#32 0 0], returns := true }] } =
      .refused .notPermittedInUpcall := rfl

/-- R105, R116, R130: P6 step 27 has the first two. -/
theorem test_output_events :
    (got (exec .mChannelReset (withM { writing with txq := [0x200#11] }))).map (fun t => (mView t, t.events)) =
      some (⟨.starting, .ok, 0x5F#7, [], 0, false, false⟩, [.mChannelReset]) ∧
    (got (exec .mRecoveryPulses State.reset)).map State.events = some [.mRecoveryPulses 9] ∧
    (got (exec .sChannelReset State.reset)).map State.events = some [.sChannelReset] := by decide

/-! ### The widths, the device regions, and a callback that never returns -/

/-- R6, R11, R16: with the narrowest registers an operand presented wider is narrowed. -/
theorem test_narrow_operands :
    (got (exec (.bbInit .mBuf 0x12FF00 0x300) { State.reset with cfg := narrow })).map (fun t => t.master.buf) =
      some ⟨0xFF00, 0x100, 0⟩ ∧
    (got (exec (.mBegin 0x1186A0) { State.reset with cfg := narrow })).map (fun t => (t.master.freq, t.master.cls)) =
      some (0x186A0, .standard) ∧
    (got (exec (.sAfterReceive 0x10100) { State.reset with cfg := narrow })).map (fun t => t.slave.cbAfterRx) =
      some 0x100 := by decide

/-- U8 at the top of a 16-bit address space. -/
theorem test_narrow_region_wraps : exec (.bbInit .sTxBuf 0xFFFF 2) { State.reset with cfg := narrow } =
    .refused .regionWraps := rfl

/-- R60: with `LEN_W` = 40, `RES` carries all forty bits. -/
theorem test_wide_result :
    (got (exec .mGetBytesTransferred
      { withM { begun with buf := ⟨0, 0xFFFFFFFFFF, 0x8000000000⟩ } with cfg := { Config.default with ptrW := 40, lenW := 40 } })).map
        State.res = some (some 0x8000000000) := by decide

/-- R45: "a model should refuse it": a buffer with one byte in a device region; the byte before the region is memory. -/
theorem test_device_region_refused :
    exec (.sSetRxBuffer 0x7FFF 2) { State.reset with cfg := platform } = .refused .deviceRegion ∧
    exec (.mReadAsync 0x22#7 0x800F 1 true) { withM begun with cfg := platform } = .refused .deviceRegion ∧
    (got (exec (.sSetRxBuffer 0x7FFF 1) { State.reset with cfg := platform })).map (fun t => t.slave.rxbuf) =
      some ⟨0x7FFF, 1, 0⟩ := ⟨rfl, rfl, by decide⟩

/-- R243: the pass stops inside the upcall: the state is still `receiving`, the upcall is delivered, the engine is held. -/
theorem test_callback_never_returns :
    (got (exec .sIsr { withS { receiving with stopFlag := true, amFlag := true, asr := 0x48#7 } with
        callbacks := [{ acts := [], returns := false }] })).map
      (fun t => (sView t, t.events, t.slave.amFlag, t.slave.hung)) =
      some (⟨.receiving, .ok, 0x22#7, false, 1, 0, []⟩, [.afterReceive 0x100 1 0x22#8], true, true) := by decide

/-- R243: while the slave is held its line unit makes no move, and the master goes on. -/
theorem test_held_slave_and_master :
    exec .luSStop (withS { receiving with hung := true }) = .refused .slaveHung ∧
    (got (step { withM writing with slave := { transmitting with hung := true } })).map (fun t => t.master.state) =
      some .transferring ∧
    (got (step { withS { transmitting with hung := true } with pending := [.rst] })).map (fun t => t.slave.hung) =
      some false := ⟨rfl, by decide, by decide⟩

/-! ### States and operands that meet the hypotheses of the statements

One theorem per statement with hypotheses, named after it; a statement of several clauses has a part per clause, at a boundary
value of the clause's range where it has one. -/

/-- `s` with one code chosen. -/
def chosen (s : State) (f : Fmt) (w : Word) (a0 a1 : Nat) : State := { s with pending := [.code ⟨f, w, a0, a1⟩] }

/-- A callback that binds a transmit buffer (V44-4). -/
def binder : Callback := { acts := [.command 0x25#32 0x5000 2], returns := true }

/-- A callback that never returns (U11). -/
def sleeper : Callback := { acts := [], returns := false }

/-- A slave pass held by a callback. -/
def held : State := withS { receiving with hung := true }

/-- A buffer with the registers a configuration allows. -/
theorem ok_of (c : Config) (b : ByteBuffer) (h : b.ptr < 2 ^ c.ptrW ∧ b.len < 2 ^ c.lenW ∧ b.next ≤ b.len ∧
    b.ptr + b.len ≤ 2 ^ c.ptrW ∧ c.onDevice b.ptr b.len = false) : b.Ok c :=
  ⟨h.1, h.2.1, h.2.2.1, h.2.2.2.1, h.2.2.2.2⟩

theorem witness_StepRunsTheDecodedInstruction : ∃ (s : State) (c : Code) (rest : List Input) (i : Instr),
    s.pending = Input.code c :: rest ∧ decode c = .ok i :=
  ⟨chosen State.reset .cmd 0x10#32 0x000186A0 0, _, _, .mBegin 100000, rfl, by decide⟩

/-- The last byte of the address space and an address one past it, which names byte 0; the first byte of a device region. -/
theorem witness_StepOnEveryOtherInput :
    (∃ (s : State) (c : Code) (rest : List Input) (e : DecodeError), s.pending = Input.code c :: rest ∧ decode c = .error e) ∧
    ([0xFFFFFFFF, 0x100000000].map fun a => Config.default.onDevice (a % 2 ^ 32) 1) = [false, false] ∧
    platform.onDevice 0x8000 1 = true ∧
    (∃ (s : State) (rest : List Input), s.pending = .memRead 0x8000 :: rest ∧ s.cfg = platform) ∧
    (∃ (s : State) (rest : List Input), s.pending = .memWrite 0x8000 0x01#8 :: rest ∧ s.cfg = platform) ∧
    (∃ (s : State) (rest : List Input), s.pending = Input.rst :: rest) ∧ (∃ s : State, s.pending = [] ∧ mIrq s = true) ∧
    (∃ s : State, s.pending = [] ∧ mIrq s = false ∧ sIrq s = true ∧ s.slave.hung = false) ∧
    (∃ s : State, s.pending = [] ∧ mIrq s = false ∧ sIrq s = false) ∧
    ∃ s : State, s.pending = [] ∧ mIrq s = false ∧ sIrq s = true ∧ s.slave.hung = true :=
  ⟨⟨chosen State.reset .cmd 0x2D#32 0 0, _, _, .unknownOpcode, rfl, by decide⟩, by decide, by decide,
    ⟨{ State.reset with pending := [.memRead 0x8000], cfg := platform }, _, rfl, rfl⟩,
    ⟨{ State.reset with pending := [.memWrite 0x8000 0x01#8], cfg := platform }, _, rfl, rfl⟩,
    ⟨{ State.reset with pending := [.rst] }, _, rfl⟩, ⟨withM writing, by decide⟩, ⟨withS transmitting, by decide⟩,
    ⟨State.reset, by decide⟩, ⟨withS { transmitting with hung := true }, by decide⟩⟩

theorem witness_DecodeEncodeAgree : ∀ i ∈ [Instr.txwReceive 1, .txwReceive 256, .mSetPullups 3#32, .mBegin 0xFFFFFFFF],
    i.wellFormed = true ∧ decode (encode i) = .ok i := by decide

theorem witness_EncodeDecodeAgree : decode ⟨.txw, 0x1FF#32, 5, 7⟩ = .ok (.txwReceive 256) := by decide

theorem witness_CommandWordIsInstanceOfARow :
    decode ⟨.cmd, 0x8000A212#32 &&& 0x0000FFFF#32, 0, 0⟩ = .ok (.mWriteAsync 0x22#7 0 0 true) ∧
    decode ⟨.cmd, 0x2C#32, 3, 0⟩ = .ok (.sSetPullups 3#32) ∧
    ∃ r ∈ commandRows, 0x2C#32 &&& r.mask = r.pat ∧ (r.pat = 0x19#32 ∨ r.pat = 0x2C#32 → 3 % 2 ^ 32 < 4) := by decide

/-- The edges of the opcode map, a reserved field (V30-1), and the first reserved pull-up selection. -/
theorem witness_RefusedCommandChangesNothing :
    (∀ w ∈ [0x0F#32, 0x1A#32, 0x1F#32, 0x2D#32], ((w.extractLsb' 0 8).toNat < 0x10 ∨
      (0x1A ≤ (w.extractLsb' 0 8).toNat ∧ (w.extractLsb' 0 8).toNat < 0x20) ∨ 0x2D ≤ (w.extractLsb' 0 8).toNat) ∧
      step (chosen State.reset .cmd w 0 0) = .refused (.notAccepted .unknownOpcode)) ∧
    (∀ r ∈ commandRows, 0x114#32 &&& r.mask ≠ r.pat) ∧ 4 ≤ 4 % 2 ^ 32 := by
  refine ⟨?_, by decide, by decide⟩
  intro w hw
  simp only [List.mem_cons, List.not_mem_nil, or_false] at hw
  obtain rfl | rfl | rfl | rfl := hw <;> exact ⟨by decide, rfl⟩

theorem witness_ReservedCodesRefused :
    ([0x3FF#11, 0x500#11, 0x600#11, 0x700#11].map (fun w => w.extractLsb' 8 3)) = [3#3, 5#3, 6#3, 7#3] ∧
    ((0x201#11).extractLsb' 8 3 = 2#3 ∧ (0x201#11).extractLsb' 0 8 ≠ 0#8) ∧ (2#2 ≠ 3#2 ∧ 9 ≤ (9#4).toNat) ∧
    (0x63#32).toNat ∉ [0x30, 0x31, 0x38, 0x39, 0x3A, 0x40, 0x41, 0x42, 0x43, 0x50, 0x51, 0x52, 0x53, 0x54, 0x55, 0x60,
      0x61, 0x62] := by decide

theorem witness_TransmitWordNumbers : (txwReceiveWord 1).toNat = 0x100 ∧ (txwReceiveWord 256).toNat = 0x1FF := by decide

/-- The invariants of a state whose master engine alone has moved. -/
theorem inv_of_master (m : Master)
    (h : (m.buf.ptr < 2 ^ 32 ∧ m.buf.len < 2 ^ 32 ∧ m.buf.next ≤ m.buf.len ∧ m.buf.ptr + m.buf.len ≤ 2 ^ 32) ∧
      m.txq.length ≤ 4 ∧ m.rxq.length ≤ 4 ∧ m.ier.getLsbD 5 = false ∧ m.freq < 2 ^ 32 ∧ m.cls = speedClass m.freq ∧
      m.irqEn = m.en ∧ ∀ w ∈ m.txq, reservedCmd w = false) : Inv (withM m) where
  cfgLegal := (by decide : Config.default.legal = true)
  mBuf := ⟨h.1.1, h.1.2.1, h.1.2.2.1, h.1.2.2.2, rfl⟩
  sRxBuf := ok_of Config.default Slave.reset.rxbuf (by decide)
  sTxBuf := ok_of Config.default Slave.reset.txbuf (by decide)
  mTxFits := h.2.1
  mRxFits := h.2.2.1
  sTxFits := Nat.zero_le 1
  sRxFits := Nat.zero_le 1
  mFeie := h.2.2.2.1
  mFreq := h.2.2.2.2.1
  cbAfterRx := Nat.two_pow_pos 32
  cbBeforeTx := Nat.two_pow_pos 32
  cbAfterTx := Nat.two_pow_pos 32
  mClass := h.2.2.2.2.2.1
  mIrqEn := h.2.2.2.2.2.2.1
  sIrqEn := rfl
  sIer := rfl
  memCanonical := rfl
  txWords := h.2.2.2.2.2.2.2

theorem writing_inv : Inv (withM writing) := inv_of_master _ (by decide)

theorem reading_inv : Inv (withM { reading with rxq := [0x11#8] }) := inv_of_master _ (by decide)

theorem witness_StepKeepsInv : ∃ s t, Inv s ∧ step s = .next t ∧ t ≠ s :=
  ⟨_, _, writing_inv, rfl, fun h => absurd (congrArg (fun u : State => u.master.state) h) (by decide)⟩

theorem witness_StepKeepsTransferRules : ∃ s t, Inv s ∧ TdieInv s ∧ ReadQueueInv s ∧
    (∀ (c : Code) (rest : List Input) (p n : Nat), s.pending = .code c :: rest → decode c ≠ .ok (.bbInit .mBuf p n)) ∧
    step s = .next t :=
  ⟨withM { reading with rxq := [0x11#8] }, _, reading_inv, fun _ h => absurd h (by decide),
    fun _ _ => by decide, (by intro c rest p n h; cases h), rfl⟩

theorem witness_ParametersNeverChange : (∃ s t, step s = .next t ∧ s.pending ≠ []) ∧
    ∃ s t, step s = .next t ∧ s.slave.hung = true ∧ s.pending.head? ≠ some .rst :=
  ⟨⟨chosen State.reset .cmd 0x11#32 0 0, _, rfl, by decide⟩, chosen held .cmd 0x7F20#32 0 0, _, rfl, rfl, by decide⟩

theorem witness_EnginesAreIndependent : (Instr.mIsr).engine = .master ∧ (Instr.sIsr).engine = .slave := by decide

/-- The four frequencies at the edges of the classes. -/
theorem witness_SpeedClassThresholds :
    [100000, 100001, 999999, 1000000].map speedClass = [.standard, .fast, .fast, .fastModePlus] := by decide

theorem witness_MEndDisables : ∃ s t, s.master.en = true ∧ exec .mEnd s = .next t := ⟨withM writing, _, rfl, rfl⟩

/-- A region that ends exactly at the top of the address space. -/
theorem witness_WriteArms : begun.en = true ∧ finished Config.default begun = true ∧ begun.txq = [] ∧ begun.rxq = [] ∧
    0 < Config.default.mTxDepth ∧ 2 % 2 ^ 32 ≠ 0 ∧ 0xFFFFFFFE % 2 ^ 32 + 2 % 2 ^ 32 ≤ 2 ^ 32 ∧
    Config.default.onDevice 0xFFFFFFFE 2 = false := by decide

/-- The longest read, on the narrowest length register, up to the first byte of a device region. -/
theorem witness_ReadArms : begun.en = true ∧ finished narrow begun = true ∧ begun.txq = [] ∧ begun.rxq = [] ∧
    1 < narrow.mTxDepth ∧ 256 % 2 ^ narrow.lenW = 256 ∧ 0xFF00 % 2 ^ narrow.ptrW + 256 ≤ 2 ^ narrow.ptrW ∧
    platform.onDevice 0x7F00 256 = false := by decide

theorem witness_ProbeArms : begun.en = true ∧ finished narrow begun = true ∧ begun.txq = [] ∧ begun.rxq = [] ∧
    1 < narrow.mTxDepth ∧ 0x200 % 2 ^ narrow.lenW = 0 := by decide

theorem witness_OversizedReadRejected : writing.en = true ∧ 256 < 257 % 2 ^ Config.default.lenW ∧
    256 < 0x1FF % 2 ^ narrow.lenW := by decide

theorem witness_BusyTransferRejected : writing.en = true ∧ finished Config.default writing = false ∧
    0 < Config.default.mTxDepth ∧ 256 % 2 ^ Config.default.lenW ≤ 256 := by decide

theorem witness_StaleFifoRejected :
    ([{ begun with txq := [0x001#11] }, { begun with rxq := [0x11#8], held := true }].map fun m =>
      (m.en, finished Config.default m, decide (m.txq ≠ [] ∨ m.rxq ≠ []))) = [(true, true, true), (true, true, true)] ∧
    0 < Config.default.mTxDepth ∧ 256 % 2 ^ Config.default.lenW ≤ 256 := by decide

/-- One byte over the top; the last byte before a device region is outside it, the next one inside. -/
theorem witness_TransferAndBindingStops : State.reset.master.en = false ∧
    (begun.en = true ∧ finished Config.default begun = true ∧ begun.txq = [] ∧ begun.rxq = [] ∧
      0 < Config.default.mTxDepth ∧ 2 ^ 32 < 0xFFFFFF01 % 2 ^ 32 + 256 % 2 ^ 32 ∧ 256 % 2 ^ 32 ≤ 256) ∧
    (finished platform begun = true ∧ 0x7F00 + 0x100 ≤ 2 ^ 32 ∧ platform.onDevice 0x7F00 0x100 = false ∧
      platform.onDevice 0x7F01 0x100 = true ∧ platform.onDevice 0x800F 1 = true ∧ platform.onDevice 0x8010 1 = false) := by
  decide

theorem witness_SlaveConfiguration : 0xFFFFFFFF % 2 ^ 32 + 1 % 2 ^ 32 ≤ 2 ^ 32 ∧
    Config.default.onDevice 0xFFFFFFFF 1 = false := by decide

theorem witness_ListenArms : ∀ x ∈ [(Instr.sListen 0x7F#7, MatchMode.single, 0x7F#7), (.sListen2 0x7F#7 0x00#7, .dual, 0x00#7),
      (.sListenRange 0x7F#7 0x00#7, .range, 0x00#7)],
    (x.1 = .sListen 0x7F#7 ∧ x.2.1 = .single ∧ x.2.2 = 0x7F#7) ∨ (x.1 = .sListen2 0x7F#7 0x00#7 ∧ x.2.1 = .dual ∧ x.2.2 = 0x00#7) ∨
      (x.1 = .sListenRange 0x7F#7 0x00#7 ∧ x.2.1 = .range ∧ x.2.2 = 0x00#7) := by decide

theorem witness_StopListeningDisables : ∃ s t, s.slave.listen = true ∧ exec .sStopListening s = .next t :=
  ⟨withS listening, _, rfl, rfl⟩

/-- Each of the four words at the head of an enabled channel's FIFO; the counts 1 and 256. -/
theorem witness_LineUnitTakesTheHead : ∀ w ∈ [txwTransmitWord 0xFF#8, txwReceiveWord 1, txwReceiveWord 256, txwStopWord,
    txwStartWord 0x7F#7 .read], ∃ s : State, s.master.en = true ∧ s.master.txq = w :: [0x200#11] :=
  fun w _ => ⟨withM { begun with txq := [w, 0x200#11] }, rfl, rfl⟩

theorem witness_MasterLineMoves : begun.en = true ∧
    ({ begun with rxq := [1#8, 2#8, 3#8] } : Master).rxq.length < Config.default.mRxDepth := by decide

theorem witness_SlaveLineMoves : sMatch listening 0x22#7 = true ∧ listening.rxq = [] ∧ listening.hung = false ∧
    ({ transmitting with txq := [0x58#8] } : Slave).txq = [0x58#8] := by decide

theorem witness_GuardsAreHard : State.reset.master.en = false ∧ begun.txq = [] ∧
    (∀ w ∈ [0x300#11, 0x5FF#11, 0x600#11, 0x7FF#11],
      w.extractLsb' 8 3 = 3#3 ∨ w.extractLsb' 8 3 = 5#3 ∨ w.extractLsb' 8 3 = 6#3 ∨ w.extractLsb' 8 3 = 7#3) ∧
    (∀ w ∈ [txwTransmitWord 0#8, txwReceiveWord 1, txwStopWord, txwStartWord 0#7 .write],
      ({ begun with txq := [0x401#11] } : Master).txq.head? ≠ some w) ∧
    Config.default.mRxDepth ≤ ({ begun with rxq := [1#8, 2#8, 3#8, 4#8] } : Master).rxq.length ∧
    sMatch listening 0x23#7 = false ∧ ({ listening with rxq := [0x111#9] } : Slave).rxq ≠ [] ∧
    listening.txq.length ≠ 1 ∧ listening.hung = false ∧ held.slave.hung = true := by decide

theorem witness_BufferInitAndQueries : (0 + 0xFFFFFFFF % 2 ^ 32 ≤ 2 ^ 32 ∧ Config.default.onDevice 0 0xFFFFFFFF = false) ∧
    ∀ x ∈ [(BufSel.mBuf, writing.buf), (.sRxBuf, receiving.rxbuf), (.sTxBuf, transmitting.txbuf)],
      (x.1 = .mBuf ∧ x.2 = (withM writing).master.buf) ∨ (x.1 = .sRxBuf ∧ x.2 = (withS receiving).slave.rxbuf) ∨
        (x.1 = .sTxBuf ∧ x.2 = (withS transmitting).slave.txbuf) := by decide

/-- The last free byte of each buffer, and a full one; a buffer that is not configured is full. -/
theorem witness_BufferWrite : ((withM { begun with buf := ⟨0x100, 2, 1⟩ }).buf .mBuf).next ≠ 2 ∧
    ((withS receiving).buf .sRxBuf).next ≠ ((withS receiving).buf .sRxBuf).len ∧
    (State.reset.buf .sTxBuf).next = (State.reset.buf .sTxBuf).len := by decide

theorem witness_BufferRead : ((withS transmitting).buf .sTxBuf).next < ((withS transmitting).buf .sTxBuf).len ∧
    (State.reset.buf .mBuf).len ≤ (State.reset.buf .mBuf).next := by decide

theorem witness_VectorsPending : mIrq (withM writing) = true ∧ mIrq State.reset = false ∧ sIrq (withS transmitting) = true ∧
    sIrq State.reset = false ∧ State.reset.slave.hung = false := by decide

/-- All four errors and a STOP together (V42-2), the pin released. -/
theorem witness_MasterErrorPass :
    (fun m : Master => mIrq (withM m) = true ∧ mErrorFlag m = true ∧ (m.pltFlag && m.pltc) = false ∧
      0 < Config.default.mTxDepth)
      { writing with nakFlag := true, arbFlag := true, ferrFlag := true, pltFlag := true, stopFlag := true } := by decide

theorem witness_RecoveryPass :
    (fun m : Master => mIrq (withM m) = true ∧ m.pltFlag = true ∧ m.pltc = true ∧ 0 < Config.default.mTxDepth)
      { writing with pltFlag := true, pltc := true } := by decide

/-- A byte that leaves room, the byte that fills the buffer, and one byte too many. -/
theorem witness_MasterReceivePass : ∀ m ∈ [{ reading with rxq := [0x11#8] },
      { reading with txq := [], rxq := [0x11#8, 0x22#8, 0x33#8], state := .transferring },
      { reading with txq := [], rxq := [0x11#8, 0x22#8], buf := ⟨0x2000, 1, 0⟩, stopFlag := true }],
    (mIrq (withM m) = true ∧ mErrorFlag m = false ∧ Config.default.mRxWatermark < m.rxq.length ∧ m.dir = .read ∧
      (m.state = .starting ∨ m.state = .transferring) ∧ m.buf.len ≠ 0 ∧ m.txq.length < Config.default.mTxDepth) ∧
    m.buf.Ok Config.default :=
  have h : ∀ m ∈ [{ reading with rxq := [0x11#8] },
      { reading with txq := [], rxq := [0x11#8, 0x22#8, 0x33#8], state := .transferring },
      { reading with txq := [], rxq := [0x11#8, 0x22#8], buf := ⟨0x2000, 1, 0⟩, stopFlag := true }],
    (mIrq (withM m) = true ∧ mErrorFlag m = false ∧ Config.default.mRxWatermark < m.rxq.length ∧ m.dir = .read ∧
      (m.state = .starting ∨ m.state = .transferring) ∧ m.buf.len ≠ 0 ∧ m.txq.length < Config.default.mTxDepth) ∧
    m.buf.ptr < 2 ^ 32 ∧ m.buf.len < 2 ^ 32 ∧ m.buf.next ≤ m.buf.len ∧ m.buf.ptr + m.buf.len ≤ 2 ^ 32 ∧
      Config.default.onDevice m.buf.ptr m.buf.len = false := by decide
  fun m hm => ⟨(h m hm).1, ok_of _ _ (h m hm).2⟩

/-- Receive data in a write, in a read that is over, in a probe, and beside a STOP flag. -/
theorem witness_UnexpectedDataDiscarded : ∀ m ∈ [{ writing with rxq := [0x11#8], txq := [0x444#11] },
      { reading with rxq := [0x11#8], state := .stopping }, { reading with rxq := [0x11#8], buf := ⟨0, 0, 0⟩ },
      { reading with rxq := [0x11#8], state := .stopping, stopFlag := true }],
    mIrq (withM m) = true ∧ mErrorFlag m = false ∧ Config.default.mRxWatermark < m.rxq.length ∧
      (m.dir = .write ∨ (m.state ≠ .starting ∧ m.state ≠ .transferring) ∨ m.buf.len = 0) ∧
      (m.ier.getLsbD 0 = false ∨ Config.default.mTxWatermark < m.txq.length) := by decide

/-- Bytes left to send; none left with a word still queued (a watermark of 1); none left and nothing queued. -/
theorem witness_MasterTransmitPass : ∀ x ∈ [(Config.default, { writing with stopFlag := true, rxq := [0x11#8] }),
      ({ Config.default with mTxWatermark := 1 }, { writing with buf := ⟨0x1000, 3, 3⟩, txq := [0x0BB#11] }),
      (Config.default, { writing with buf := ⟨0x1000, 3, 3⟩ })],
    (mIrq { withM x.2 with cfg := x.1 } = true ∧ mErrorFlag x.2 = false ∧ x.2.ier.getLsbD 0 = true ∧
      x.2.txq.length ≤ x.1.mTxWatermark ∧ x.2.dir = .write ∧ (x.2.state = .starting ∨ x.2.state = .transferring) ∧
      x.2.txq.length < x.1.mTxDepth) ∧ x.2.buf.Ok x.1 :=
  have h : ∀ x ∈ [(Config.default, { writing with stopFlag := true, rxq := [0x11#8] }),
      ({ Config.default with mTxWatermark := 1 }, { writing with buf := ⟨0x1000, 3, 3⟩, txq := [0x0BB#11] }),
      (Config.default, { writing with buf := ⟨0x1000, 3, 3⟩ })],
    (mIrq { withM x.2 with cfg := x.1 } = true ∧ mErrorFlag x.2 = false ∧ x.2.ier.getLsbD 0 = true ∧
      x.2.txq.length ≤ x.1.mTxWatermark ∧ x.2.dir = .write ∧ (x.2.state = .starting ∨ x.2.state = .transferring) ∧
      x.2.txq.length < x.1.mTxDepth) ∧ x.2.buf.ptr < 2 ^ x.1.ptrW ∧ x.2.buf.len < 2 ^ x.1.lenW ∧
      x.2.buf.next ≤ x.2.buf.len ∧ x.2.buf.ptr + x.2.buf.len ≤ 2 ^ x.1.ptrW ∧
      x.1.onDevice x.2.buf.ptr x.2.buf.len = false := by decide
  fun x hx => ⟨(h x hx).1, ok_of _ _ (h x hx).2⟩

theorem witness_MasterTransmitPass_clauses : writing.buf.next ≠ writing.buf.len ∧
    (fun m : Master => m.buf.next = m.buf.len ∧ m.txq ≠ [])
      { writing with buf := ⟨0x1000, 3, 3⟩, txq := [0x0BB#11] } ∧
    (fun m : Master => m.buf.next = m.buf.len ∧ m.txq = []) { writing with buf := ⟨0x1000, 3, 3⟩ } := by decide

theorem witness_StopForcesStopped : (∃ s t, s.master.stopFlag = true ∧ exec .mIsr s = .next t) ∧
    (fun m : Master => mIrq (withM m) = true ∧ m.stopFlag = true ∧ mErrorFlag m = false ∧
      m.rxq.length ≤ Config.default.mRxWatermark ∧
      (m.ier.getLsbD 0 = false ∨ Config.default.mTxWatermark < m.txq.length))
      { begun with state := .stopping, stopFlag := true } :=
  ⟨⟨withM { writing with stopFlag := true }, _, rfl, rfl⟩, by decide⟩

theorem witness_MasterPassNever : ∃ s t, exec .mIsr s = .next t ∧ s.master.cls = speedClass s.master.freq :=
  ⟨withM writing, _, rfl, by decide⟩

theorem witness_MasterPassCompletes : ∃ s, Inv s ∧ ReadQueueInv s ∧ 3 ≤ s.cfg.mTxDepth ∧ mIrq s = true :=
  ⟨withM { reading with rxq := [0x11#8] }, reading_inv, fun _ _ => by decide, by decide⟩

theorem witness_MasterPassQuiesces : ∃ s t, Inv s ∧ TdieInv s ∧ s.cfg.mTxWatermark = 0 ∧ exec .mIsr s = .next t :=
  ⟨withM writing, _, writing_inv, fun _ _ => by decide, rfl, rfl⟩

/-- A slave with only a received byte to serve: the last byte that fits, the first that does not, and one in no frame. -/
theorem witness_SlaveReceivePass : ∀ v ∈ [{ receiving with rxq := [0x011#9], rxbuf := ⟨0x3000, 4, 3⟩ },
      { receiving with rxq := [0x011#9], rxbuf := ⟨0x3000, 4, 4⟩ }, { receiving with rxq := [0x011#9], state := .idle }],
    v.hung = false ∧ sIrq (withS v) = true ∧ v.rxq = [0#1 ++ 0x11#8] ∧ v.amFlag = false ∧ v.stopFlag = false ∧
      v.rsFlag = false ∧ v.berrFlag = false ∧ (v.txreq = false ∨ v.txq ≠ []) := by decide

/-- The three clauses of those three states, and the start of a frame with and without a buffer. -/
theorem witness_SlaveReceivePass_clauses :
    (fun b : ByteBuffer => b.len ≠ 0 ∧ b.next ≠ b.len) ⟨0x3000, 4, 3⟩ ∧
    (fun b : ByteBuffer => b.len = 0 ∨ b.next = b.len) ⟨0x3000, 4, 4⟩ ∧ SState.idle ≠ .receiving ∧
    ∀ v ∈ [{ listening with rxq := [0x111#9] }, { receiving with state := .idle, rxq := [0x111#9] }],
      v.hung = false ∧ sIrq (withS v) = true ∧ v.rxq = [1#1 ++ 0x11#8] ∧ v.amFlag = false ∧ v.stopFlag = false ∧
        v.rsFlag = false ∧ v.berrFlag = false ∧ (v.txreq = false ∨ v.txq ≠ []) ∧
        (v.rxbuf.len = 0 ∨ 0 ≠ v.rxbuf.len) := by decide

theorem witness_SlaveEndOfFrame : ∀ v ∈ [{ receiving with stopFlag := true }, { receiving with rsFlag := true },
      { transmitting with stopFlag := true, txreq := false }, { listening with state := .aborted, stopFlag := true },
      { listening with stopFlag := true }],
    v.hung = false ∧ sIrq (withS v) = true ∧ v.rxq = [] ∧ (v.rsFlag = true ∨ v.stopFlag = true) ∧ v.berrFlag = false ∧
      v.amFlag = false ∧ (v.txreq = false ∨ v.txq ≠ []) := by decide

/-- The two states of the clauses with a callback that does something or never returns. -/
def ending (callback : Callback) (v : Slave) : State :=
  { withS { v with stopFlag := true, txreq := false } with callbacks := [callback] }

theorem witness_SlaveEndOfFrame_callbacks : ∀ c ∈ [binder, sleeper],
    (∃ s s1 u : State, s = ending c receiving ∧ sIrq s = true ∧ s.slave.rxq = [] ∧
      s1 = { s with slave := { s.slave with rsFlag := false, stopFlag := false }, res := none } ∧
      s.slave.state = .receiving ∧ afterReceive s1 = .next u ∧ u.slave.hung = !c.returns) ∧
    ∃ s s1 u : State, s = ending c transmitting ∧ sIrq s = true ∧ s.slave.rxq = [] ∧
      s1 = { s with slave := { s.slave with rsFlag := false, stopFlag := false }, res := none } ∧
      s.slave.state = .transmitting ∧ afterTransmit { s1 with slave := { s1.slave with trail := false } } = .next u ∧
      u.slave.hung = !c.returns := by
  intro c hc
  simp only [List.mem_cons, List.not_mem_nil, or_false] at hc
  obtain rfl | rfl := hc <;>
    exact ⟨⟨_, _, _, rfl, by decide, rfl, rfl, rfl, rfl, rfl⟩, _, _, _, rfl, by decide, rfl, rfl, rfl, rfl, rfl⟩

theorem witness_SlaveBitErrorAndMatch : ([{ transmitting with txreq := false, berrFlag := true },
      { listening with state := .aborted, amFlag := true, trail := true }, { transmitting with txq := [0#8], berrFlag := true, amFlag := true }].map
    fun v => (!v.hung && sIrq (withS v) && v.rxq.isEmpty && !v.rsFlag && !v.stopFlag && (!v.txreq || !v.txq.isEmpty), v.berrFlag,
      v.amFlag)) = [(true, true, false), (true, false, true), (true, true, true)] := by decide

/-- A slave with a transmit request to serve, and perhaps an address match. -/
def onlyRequest (s : State) : Prop :=
  s.slave.hung = false ∧ sIrq s = true ∧ s.slave.rxq = [] ∧ s.slave.stopFlag = false ∧ s.slave.rsFlag = false ∧
    s.slave.berrFlag = false ∧ s.slave.txreq = true ∧ s.slave.txq = []

/-- A callback that is refused a command (U7). -/
def forbidden : Callback := { acts := [.command 0x2220#32 0 0], returns := true }

/-- The first request of a read frame with its address match (V44-3, V44-4). -/
def opening (cs : List Callback) (txLen : Nat) : State :=
  { withS { listening with
      amFlag := true, asr := 0x22#7, txreq := true, cbBeforeTx := 0x104, txbuf := ⟨0x4000, txLen, 0⟩ } with
    callbacks := cs }

/-- A transmit request in an aborted frame; without a buffer; at the last byte; at the end, the first and the second time. -/
theorem witness_SlaveTransmitPass : (∀ v ∈ [{ transmitting with state := .aborted },
      { transmitting with txbuf := ⟨0, 0, 0⟩ }, transmitting, { transmitting with txbuf := ⟨0x4000, 2, 2⟩ },
      { transmitting with txbuf := ⟨0x4000, 2, 2⟩, trail := true }, (opening [] 2).slave], onlyRequest (withS v)) ∧
    ([{ transmitting with state := .aborted }, { transmitting with txbuf := ⟨0, 0, 0⟩ }, transmitting,
        { transmitting with txbuf := ⟨0x4000, 2, 2⟩ }, { transmitting with txbuf := ⟨0x4000, 2, 2⟩, trail := true }].map
      fun v => (v.state, v.txbuf.len - v.txbuf.next, v.txbuf.len, v.trail)) =
      [(.aborted, 1, 2, false), (.transmitting, 0, 0, false), (.transmitting, 1, 2, false), (.transmitting, 0, 2, false),
        (.transmitting, 0, 2, true)] := by
  unfold onlyRequest
  decide

/-- The first request of a frame, with the address match (an aborted frame ended by it too) and without it: a callback that binds
a buffer, none with no buffer bound, one that never returns, and one that is refused a command. -/
theorem witness_SlaveTransmitPass_first :
    (∃ s u : State, s = opening [binder] 0 ∧ onlyRequest s ∧ beforeTransmit (matchServed { s with res := none }) = .next u ∧
      u.slave.hung = false ∧ u.slave.txbuf.len ≠ 0) ∧
    (∃ s u : State, s = opening [] 0 ∧ onlyRequest s ∧ beforeTransmit (matchServed { s with res := none }) = .next u ∧
      u.slave.hung = false ∧ u.slave.txbuf.len = 0) ∧
    (∃ s u : State, s = opening [sleeper] 2 ∧ onlyRequest s ∧
      beforeTransmit (matchServed { s with res := none }) = .next u ∧ u.slave.hung = true) ∧
    (∃ s : State, s = opening [forbidden] 2 ∧ onlyRequest s ∧
      beforeTransmit (matchServed { s with res := none }) = .refused .notPermittedInUpcall) ∧
    (∃ s u : State, s = withS { receiving with txreq := true } ∧ onlyRequest s ∧ s.slave.amFlag = false ∧
      beforeTransmit { s with res := none } = .next u) ∧
    ∃ s : State, s.slave.state = .aborted ∧ s.slave.amFlag = true ∧ onlyRequest s ∧
      (matchServed { s with res := none }).slave.state = .idle :=
  ⟨⟨_, _, rfl, (by unfold onlyRequest; decide), rfl, rfl, by decide⟩,
    ⟨_, _, rfl, (by unfold onlyRequest; decide), rfl, rfl, rfl⟩, ⟨_, _, rfl, (by unfold onlyRequest; decide), rfl, rfl⟩,
    ⟨_, rfl, (by unfold onlyRequest; decide), rfl⟩, ⟨_, _, rfl, (by unfold onlyRequest; decide), rfl, rfl⟩,
    withS { transmitting with state := .aborted, amFlag := true }, rfl, rfl, (by unfold onlyRequest; decide), rfl⟩

/-- The snapshot of a repeated START in a given state, with a given receive FIFO and receive cursor and a list of callbacks. -/
def turning (st : SState) (q : List (BitVec 9)) (next : Nat) (cs : List Callback) (txLen : Nat) : State :=
  { withS { receiving with
      state := st, rxq := q, rxbuf := ⟨0x3000, 4, next⟩, rsFlag := true, amFlag := true, txreq := true, asr := 0x48#7,
      txbuf := ⟨0x4000, txLen, 0⟩ } with
    callbacks := cs }

/-- Each way the received byte is served: none (P3 step 13), the first of a frame (V44-6), the last that fits, one too many, and
one in no frame; and each snapshot has a vector pending. -/
theorem witness_RepeatedStartSnapshot_byte :
    (∀ s ∈ [turning .receiving [] 4 [] 2, turning .idle [0x101#9] 3 [] 2, turning .receiving [0x044#9] 3 [] 2,
        turning .receiving [0x055#9] 4 [] 2, turning .idle [0x055#9] 0 [] 2],
      s.slave.hung = false ∧ sIrq s = true ∧ s.slave.cbAfterRx ≠ 0 ∧ s.slave.cbBeforeTx ≠ 0 ∧ s.slave.txbuf.len ≠ 0) ∧
    (∃ t, ByteServed (turning .receiving [] 4 [] 2) t ∧ t.slave.state = .receiving) ∧
    (∃ t, ByteServed (turning .idle [0x101#9] 3 [] 2) t ∧ t.slave.state = .receiving ∧ t.slave.rxbuf.next = 1) ∧
    (∃ t, ByteServed (turning .receiving [0x044#9] 3 [] 2) t ∧ t.slave.rxbuf.next = 4) ∧
    (∃ t, ByteServed (turning .receiving [0x055#9] 4 [] 2) t ∧ t.slave.err = .bufferOverflow) ∧
    ∃ t, ByteServed (turning .idle [0x055#9] 0 [] 2) t ∧ t.slave.rxbuf.next = 0 :=
  ⟨by decide, ⟨_, .inl ⟨rfl, rfl⟩, rfl⟩,
    ⟨_, .inr ⟨true, 0x01#8, _, _, rfl, rfl, rfl, .inl ⟨rfl, by decide, by decide, rfl⟩⟩, rfl, rfl⟩,
    ⟨_, .inr ⟨false, 0x44#8, _, _, rfl, rfl, rfl, .inl ⟨rfl, by decide, by decide, rfl⟩⟩, rfl⟩,
    ⟨_, .inr ⟨false, 0x55#8, _, _, rfl, rfl, rfl, .inr (.inl ⟨rfl, .inr rfl, rfl⟩)⟩, rfl⟩,
    ⟨_, .inr ⟨false, 0x55#8, _, _, rfl, rfl, rfl, .inr (.inr ⟨by decide, rfl⟩)⟩, rfl⟩⟩

/-- The ways the end of frame is served: none flagged, in each of the four states; and an upcall that holds the pass, and one
that is refused. -/
theorem witness_RepeatedStartSnapshot_frame :
    (∃ s t, FrameEnded s t ∧ s = withS listening) ∧
    (∀ st ∈ [SState.idle, .aborted, .receiving, .transmitting], ∃ s t, s = turning st [] 4 [binder] 2 ∧ FrameEnded s t) ∧
    (∃ u, ClosingUpcall (turning .receiving [] 4 [sleeper] 2) (.next u) ∧ u.slave.hung = true) ∧
    ClosingUpcall (turning .transmitting [] 4 [forbidden] 2) (.refused .notPermittedInUpcall) := by
  refine ⟨⟨_, _, .inl ⟨rfl, rfl, rfl⟩, rfl⟩, fun st h => ?_, ⟨_, ⟨.inl rfl, .inl ⟨rfl, rfl⟩⟩, rfl⟩, .inl rfl, .inr ⟨rfl, rfl⟩⟩
  simp only [List.mem_cons, List.not_mem_nil, or_false] at h
  obtain rfl | rfl | rfl | rfl := h
  · exact ⟨_, _, rfl, .inr (.inl ⟨.inl rfl, rfl, rfl⟩)⟩
  · exact ⟨_, _, rfl, .inr (.inr (.inl ⟨.inl rfl, rfl, rfl⟩))⟩
  · exact ⟨_, _, rfl, .inr (.inr (.inr ⟨_, ⟨.inl rfl, .inl ⟨rfl, rfl⟩⟩, rfl, rfl⟩))⟩
  · exact ⟨_, _, rfl, .inr (.inr (.inr ⟨_, ⟨.inl rfl, .inr ⟨rfl, rfl⟩⟩, rfl, rfl⟩))⟩

theorem witness_SlavePassNever : ∃ s t, exec .sIsr s = .next t ∧ ∀ c ∈ s.callbacks, c.acts = [] :=
  ⟨{ withS transmitting with callbacks := [{ acts := [], returns := true }] }, _, rfl, by decide⟩

theorem witness_UpcallSteps : (State.reset.slave.cbAfterRx = 0 ∧ State.reset.slave.hung = false) ∧
    (receiving.cbAfterRx ≠ 0 ∧ receiving.cbBeforeTx ≠ 0 ∧ receiving.cbAfterTx ≠ 0 ∧ receiving.hung = false ∧
      (withS receiving).callbacks = []) ∧
    ∀ c ∈ [binder, sleeper], ∃ (s u : State) (e : OutEvent), s.slave.hung = false ∧ s.slave.cbAfterRx ≠ 0 ∧
      s.callbacks = c :: [] ∧ e = .afterReceive s.slave.cbAfterRx s.slave.rxbuf.next (s.slave.addr.setWidth 8) ∧
      runActs c.acts { s with res := none, events := s.events ++ [e], callbacks := [] } = .next u := by
  refine ⟨by decide, by decide, fun c hc => ?_⟩
  simp only [List.mem_cons, List.not_mem_nil, or_false] at hc
  obtain rfl | rfl := hc
  · exact ⟨{ withS receiving with callbacks := [binder] }, _, _, rfl, by decide, rfl, rfl, rfl⟩
  · exact ⟨{ withS receiving with callbacks := [sleeper] }, _, _, rfl, by decide, rfl, rfl, rfl⟩

/-- A region at the top of the address space and an empty one; a region that wraps; one in a device region. -/
theorem witness_PermittedInUpcall : decode ⟨.cmd, 0x24#32, 0xFFFFFFFF, 1⟩ = .ok (.sSetRxBuffer 0xFFFFFFFF 1) ∧
    0xFFFFFFFF % 2 ^ 32 + 1 % 2 ^ 32 ≤ 2 ^ 32 ∧ Config.default.onDevice 0xFFFFFFFF 1 = false ∧
    2 ^ 32 < 0xFFFFFFFF % 2 ^ 32 + 2 % 2 ^ 32 ∧ (0x8000 + 1 ≤ 2 ^ platform.ptrW ∧ platform.onDevice 0x8000 1 = true) ∧
    decode ⟨.cmd, 0x25#32, 0, 0⟩ = .ok (.sSetTxBuffer 0 0) ∧ decode ⟨.cmd, 0x29#32, 0, 0⟩ = .ok .sError ∧
    decode ⟨.cmd, 0x2A#32, 0, 0⟩ = .ok .sHasError ∧ decode ⟨.cmd, 0x23#32, 0, 0⟩ = .ok .sStopListening ∧
    decode ⟨.cmd, 0x2D#32, 0, 0⟩ = .error .unknownOpcode := by decide

theorem witness_PermittedInUpcall_sequence :
    (∃ t, runAct (.command 0x25#32 0x5000 2) State.reset = .next t) ∧
    runAct (.command 0x25#32 0xFFFFFFFF 2) State.reset = .refused .regionWraps := ⟨⟨_, rfl⟩, rfl⟩

/-- The byte before a device region, and its first and last byte, reached from a callback. -/
theorem witness_PermittedInUpcall_memory :
    [0x7FFF, 0x8000, 0x800F].map (fun a => platform.onDevice (a % 2 ^ platform.ptrW) 1) = [false, true, true] := by decide

theorem witness_MemoryWrittenOnlyInsideBoundRegion :
    (∃ s t, (s.buf .sRxBuf).Ok s.cfg ∧ exec (.bbWrite .sRxBuf 0xAB#8) s = .next t ∧ ¬ inRegion (s.buf .sRxBuf) 0x3004) ∧
    (∃ s t, s.master.buf.Ok s.cfg ∧ exec .mIsr s = .next t ∧ ¬ inRegion s.master.buf 0x1FFF) ∧
    (∃ s t, s.slave.rxbuf.Ok s.cfg ∧ quietCallbacks s ∧ exec .sIsr s = .next t ∧ ¬ inRegion s.slave.rxbuf 0x3004) ∧
    (∃ s t, quietCallbacks s ∧ exec .upAfterReceive s = .next t) ∧ (Instr.bbRead .sTxBuf).mayStore = false :=
  ⟨⟨withS receiving, _, ok_of _ _ (by decide), rfl, fun h => absurd h.2 (by decide)⟩,
    ⟨withM { reading with rxq := [0x11#8] }, _, ok_of _ _ (by decide), rfl, fun h => absurd h.1 (by decide)⟩,
    ⟨withS { receiving with rxq := [0x011#9] }, _, ok_of _ _ (by decide), (by intro c h; cases h), rfl,
      fun h => absurd h.2 (by decide)⟩,
    ⟨{ withS receiving with callbacks := [binder] }, _, (by intro c h a b hm; simp [binder] at h; subst h; simp at hm), rfl⟩,
    rfl⟩

theorem witness_ErrorClearedOnlyByStartOrListen :
    (∃ i s t, exec i s = .next t ∧ s.master.err ≠ .ok ∧ t.master.err = .ok) ∧
    ∃ i s t, exec i s = .next t ∧ s.slave.err ≠ .ok ∧ t.slave.err = .ok :=
  ⟨⟨.mReadAsync 0x10#7 0x2000 256 true, withM { begun with err := .invalidRequest }, _, rfl, by decide, rfl⟩,
    ⟨.sListen 0x25#7, withS { Slave.reset with err := .bufferUnderflow }, _, rfl, by decide, rfl⟩⟩

end Sys2Proof.Tests
end

section
/-! PROOFS. How a step picks what it runs, and what every step leaves of the environment's data (00_scope.md rules R5, R6;
70_reset_and_hazards.md rule R243): the statements O1 and O16. -/

namespace Sys2Proof.Machine

/-! ### What a step runs (R5) -/

/-- With something chosen, a step runs the first choice on the state without it. -/
theorem step_of_pending_cons {s : State} {i : Input} {rest : List Input} (h : s.pending = i :: rest) :
    step s = runInput i { s with pending := rest } := by
  simp only [step, h]

/-- With nothing chosen, a step serves the vectors. -/
theorem step_of_pending_nil {s : State} (h : s.pending = []) : step s = serve s := by
  simp only [step, h]

theorem runCode_of_decode_ok {c : Code} {i : Instr} (h : decode c = .ok i) (s : State) : runCode c s = exec i s := by
  simp only [runCode, h]

theorem runCode_eq_next {c : Code} {s t : State} :
    runCode c s = .next t ↔ ∃ i, decode c = .ok i ∧ exec i s = .next t := by
  cases h : decode c <;> simp [runCode, h]

/-- Settles O1: the first choice is decoded, and its instruction executed. -/
theorem stepRunsTheDecodedInstruction : Obligations.StepRunsTheDecodedInstruction := by
  intro s c rest i hp hd
  calc step s = runInput (.code c) { s with pending := rest } := step_of_pending_cons hp
    _ = exec i { s with pending := rest } := runCode_of_decode_ok hd _

/-! ### The environment's frame -/

/-- What no instruction changes: the parameters and the choices to come; outputs are only appended, callbacks only used up, and
a held slave pass stays held (R6, R243). -/
structure EnvFrame (s t : State) : Prop where
  cfg : t.cfg = s.cfg
  pending : t.pending = s.pending
  events : ∃ l, t.events = s.events ++ l
  callbacks : ∃ l, s.callbacks = l ++ t.callbacks
  hung : s.slave.hung = true → t.slave.hung = true

/-- A change of registers, memory and result that makes no output and neither holds nor frees the slave pass. -/
theorem EnvFrame.quiet (s : State) {m : Master} {v : Slave} {mem : Mem} {r : Option Nat}
    (h : v.hung = s.slave.hung := by rfl) : EnvFrame s { s with master := m, slave := v, mem := mem, res := r } :=
  ⟨rfl, rfl, ⟨[], by simp⟩, ⟨[], rfl⟩, h.trans⟩

/-- A change of registers, memory and result that makes the outputs `l` as well. -/
theorem EnvFrame.emitting (s : State) {m : Master} {v : Slave} {mem : Mem} {r : Option Nat} {l : List OutEvent}
    (h : v.hung = s.slave.hung := by rfl) :
    EnvFrame s { s with master := m, slave := v, mem := mem, res := r, events := s.events ++ l } :=
  ⟨rfl, rfl, ⟨l, rfl⟩, ⟨[], rfl⟩, h.trans⟩

theorem EnvFrame.refl (s : State) : EnvFrame s s := .quiet s

theorem EnvFrame.trans {s t u : State} (h : EnvFrame s t) (k : EnvFrame t u) : EnvFrame s u := by
  obtain ⟨l, hl⟩ := h.events
  obtain ⟨l', hl'⟩ := k.events
  obtain ⟨c, hc⟩ := h.callbacks
  obtain ⟨c', hc'⟩ := k.callbacks
  exact ⟨k.cfg.trans h.cfg, k.pending.trans h.pending, ⟨l ++ l', by rw [hl', hl, List.append_assoc]⟩,
    ⟨c ++ c', by rw [hc, hc', List.append_assoc]⟩, fun x => k.hung (h.hung x)⟩

theorem EnvFrame.withRes (s : State) (r : Option Nat) : EnvFrame s (s.withRes r) := .quiet s

theorem EnvFrame.setBuf (s : State) (sel : BufSel) (b : ByteBuffer) : EnvFrame s (s.setBuf sel b) := by
  cases sel <;> exact .quiet s

theorem MasterFrame.env {s t : State} (h : MasterFrame s t) : EnvFrame s t :=
  ⟨h.cfg, h.pending, h.events, ⟨[], h.callbacks.symm⟩, fun x => by rw [h.slave]; exact x⟩

/-- A slave handler only runs while no callback holds the pass, so there is no held pass that it could free. -/
theorem SlaveFrame.env {n k j : Nat} {s t : State} (h : SlaveFrame n k j s t) (hs : s.slave.hung = false) :
    EnvFrame s t := by
  obtain ⟨l, -, hl⟩ := h.callbacks
  exact ⟨h.cfg, h.pending, h.events, ⟨l, hl⟩, fun x => by simp [hs] at x⟩

/-! ### Operations that keep the frame -/

/-- An operation on `s` whose next state, if it has one, keeps the environment's frame. -/
def KeepsEnv (s : State) (x : Run State) : Prop := ∀ t, x = .next t → EnvFrame s t

theorem EnvFrame.next {s t : State} (h : EnvFrame s t) : KeepsEnv s (.next t) := by
  rintro _ ⟨⟩
  exact h

theorem KeepsEnv.fault (s : State) (r : Fault) : KeepsEnv s (.fault r) := by
  intro t h
  cases h

theorem KeepsEnv.refused (s : State) (r : Refusal) : KeepsEnv s (.refused r) := by
  intro t h
  cases h

/-- What keeps the frame of a state keeps the frame of what came before it. -/
theorem EnvFrame.keeps {s u : State} {x : Run State} (h : EnvFrame s u) (k : KeepsEnv u x) : KeepsEnv s x :=
  fun t ht => h.trans (k t ht)

theorem KeepsEnv.andThen {α : Type} {s : State} {x : Run α} {f : α → Run State}
    (h : ∀ a, x = .next a → KeepsEnv s (f a)) : KeepsEnv s (andThen x f) := by
  intro t ht
  obtain ⟨a, ha, hf⟩ := andThen_eq_next.mp ht
  exact h a ha t hf

theorem KeepsEnv.ite {s : State} {p : Prop} [Decidable p] {x y : Run State} (hx : KeepsEnv s x) (hy : KeepsEnv s y) :
    KeepsEnv s (if p then x else y) := by
  split
  · exact hx
  · exact hy

theorem EnvFrame.guarded {s u : State} (h : EnvFrame s u) (g : Bool) : KeepsEnv s (guarded g u) := by
  intro t ht
  obtain ⟨-, rfl⟩ := guarded_eq_next.mp ht
  exact h

/-- A slave step only has to keep the frame of a state whose slave pass is not held. -/
theorem KeepsEnv.slaveStep {s : State} {x : Run State} (h : s.slave.hung = false → KeepsEnv s x) :
    KeepsEnv s (slaveStep x s) := by
  intro t ht
  obtain ⟨hs, hx⟩ := slaveStep_eq_next.mp ht
  exact h hs t hx

theorem hostAccess_keepsEnv {a : Nat} {f : Nat → State} {s : State} (h : ∀ x, EnvFrame s (f x)) :
    KeepsEnv s (hostAccess a f s) := by
  intro t ht
  obtain ⟨-, rfl⟩ := hostAccess_eq_next.mp ht
  exact h _

/-! ### The shared operations keep the frame -/

theorem bbInit_keepsEnv (sel : BufSel) (p n : Nat) (s : State) : KeepsEnv s (bbInit sel p n s) := by
  intro t h
  obtain ⟨-, -, rfl⟩ := bbInit_eq_next.mp h
  exact .setBuf s sel _

theorem bbWrite_envFrame (sel : BufSel) (b : Byte) (s : State) : EnvFrame s (bbWrite sel b s).2 := by
  by_cases h : (s.buf sel).next = (s.buf sel).len
  · rw [bbWrite_full h]
    exact .refl s
  · rw [bbWrite_room h]
    exact (EnvFrame.quiet s).trans (.setBuf (s.memWrite _ b) sel _)

theorem bbRead_envFrame {sel : BufSel} {s : State} {r : Byte × State} (h : bbRead sel s = .next r) : EnvFrame s r.2 := by
  obtain ⟨-, rfl⟩ := bbRead_eq_next.mp h
  exact .setBuf s sel _

theorem txPush_keepsEnv (w : BitVec 11) (s : State) : KeepsEnv s (txPush w s) := by
  intro t h
  obtain ⟨-, rfl⟩ := txPush_eq_next.mp h
  exact .quiet s

theorem start_envFrame {a : Addr} {d : Dir} {s : State} {r : Bool × State} (h : start a d s = .next r) :
    EnvFrame s r.2 := by
  obtain ⟨-, rfl⟩ | ⟨-, -, rfl⟩ | ⟨-, -, -, rfl⟩ := start_eq_next h <;> exact .quiet s

theorem probe_keepsEnv (p : Nat) (s : State) : KeepsEnv s (probe p s) :=
  .andThen fun u h => (bbInit_keepsEnv .mBuf p 0 s u h).keeps (txPush_keepsEnv _ u)

theorem armWrite_keepsEnv (p n : Nat) (stop : Bool) (s : State) : KeepsEnv s (armWrite p n stop s) :=
  .ite (probe_keepsEnv p s)
    (.andThen fun u h => (bbInit_keepsEnv .mBuf p n s u h).keeps (EnvFrame.quiet u).next)

theorem armRead_keepsEnv (p n : Nat) (stop : Bool) (s : State) : KeepsEnv s (armRead p n stop s) :=
  .ite (probe_keepsEnv p s)
    (.andThen fun u h => (bbInit_keepsEnv .mBuf p n s u h).keeps
      ((EnvFrame.quiet u).keeps (txPush_keepsEnv _ _)))

theorem takeThis_keepsEnv (w : BitVec 11) (s : State) : KeepsEnv s (takeThis w s) := by
  unfold takeThis
  split
  · exact .refused s _
  · exact (EnvFrame.quiet s).guarded _

/-- An upcall that no earlier callback keeps from being made. -/
theorem upcall_keepsEnv {w : Nat} {e : OutEvent} {s : State} (hs : s.slave.hung = false) : KeepsEnv s (upcall w e s) :=
  fun _ h => (upcall_slaveFrame h).env hs

/-! ### The instructions with several branches keep the frame -/

theorem execMWriteAsync_keepsEnv (a : Addr) (p n : Nat) (stop : Bool) (s : State) :
    KeepsEnv s (execMWriteAsync a p n stop s) := by
  refine .ite (.fault s _) (.andThen fun r h => ?_)
  have f : EnvFrame s r.2 := (EnvFrame.withRes s none).trans (start_envFrame h)
  exact .ite (f.keeps (armWrite_keepsEnv _ _ _ _)) f.next

theorem execMReadAsync_keepsEnv (a : Addr) (p n : Nat) (stop : Bool) (s : State) :
    KeepsEnv s (execMReadAsync a p n stop s) := by
  refine .ite (.fault s _) (.ite (EnvFrame.quiet s).next (.andThen fun r h => ?_))
  have f : EnvFrame s r.2 := (EnvFrame.withRes s none).trans (start_envFrame h)
  exact .ite (f.keeps (armRead_keepsEnv _ _ _ _)) f.next

theorem execLuMTake_keepsEnv (s : State) : KeepsEnv s (execLuMTake s) := by
  unfold execLuMTake
  split
  · exact .refused s _
  · exact .ite (.refused s _) (.ite (.fault s _) (EnvFrame.quiet s).next)

theorem execLuSTake_keepsEnv (s : State) : KeepsEnv s (execLuSTake s) := by
  unfold execLuSTake
  split
  · exact .slaveStep fun _ => (EnvFrame.quiet s).next
  · exact .slaveStep fun _ => .refused s _

theorem execMIsr_keepsEnv (s : State) : KeepsEnv s (execMIsr s) :=
  .ite ((EnvFrame.withRes s none).keeps fun _ h => (masterPass_frame h).env) (.refused s _)

theorem execSIsr_keepsEnv (s : State) : KeepsEnv s (execSIsr s) :=
  .slaveStep fun hs => .ite ((EnvFrame.withRes s none).keeps fun _ h => (slavePass_frame h).env hs) (.refused s _)

/-- Every instruction keeps the environment's frame: by its arm, the arms that act alike together. -/
theorem exec_keepsEnv (i : Instr) (s : State) : KeepsEnv s (exec i s) := by
  cases i with
  | mEnd | mFinished | mGetBytesTransferred | mError | mHasError | mSetPadControl _ | mSetPullups _ =>
    exact (EnvFrame.quiet s).next
  | sStopListening | sAfterReceive _ | sBeforeTransmit _ | sAfterTransmit _ | sError | sHasError | sSetPadControl _
  | sSetPullups _ => exact (EnvFrame.quiet s).next
  | bbHasData _ | bbNotStartedReading _ | bbNotStartedWriting _ | bbFinishedReading _ | bbFinishedWriting _
  | bbConfigured _ => exact (EnvFrame.withRes s _).next
  | mBegin _ | sListen _ | sListen2 _ _ | sListenRange _ _ | mChannelReset | mRecoveryPulses | sChannelReset =>
    exact (EnvFrame.emitting s).next
  | sSetRxBuffer _ _ | sSetTxBuffer _ _ | bbInit _ _ _ => exact (EnvFrame.withRes s none).keeps (bbInit_keepsEnv _ _ _ _)
  | bbWrite sel b => exact ((bbWrite_envFrame sel b s).trans (.withRes _ _)).next
  | bbRead sel => exact .andThen fun r h => ((bbRead_envFrame h).trans (.withRes r.2 _)).next
  | mWriteAsync a p n stop => exact execMWriteAsync_keepsEnv a p n stop s
  | mReadAsync a p n stop => exact execMReadAsync_keepsEnv a p n stop s
  | txwTransmit _ | txwReceive _ | txwStop | txwStart _ _ => exact takeThis_keepsEnv _ s
  | luMTake => exact execLuMTake_keepsEnv s
  | luMRx _ | luMFlag _ | luMLevel _ _ => exact (EnvFrame.quiet s).guarded _
  | luSAddr _ _ | luSRx _ _ => exact .slaveStep fun _ => (EnvFrame.quiet s).guarded _
  | luSTake => exact execLuSTake_keepsEnv s
  | luSRs | luSStop | luSBerr => exact .slaveStep fun _ => (EnvFrame.quiet s).next
  | mIsr => exact execMIsr_keepsEnv s
  | sIsr => exact execSIsr_keepsEnv s
  | upAfterReceive | upBeforeTransmit | upAfterTransmit =>
    exact .slaveStep fun hs => (EnvFrame.withRes s none).keeps (upcall_keepsEnv hs)

/-! ### A step keeps the frame -/

theorem serve_keepsEnv (s : State) : KeepsEnv s (serve s) :=
  .ite (exec_keepsEnv .mIsr s) (.ite (exec_keepsEnv .sIsr s) (EnvFrame.refl s).next)

/-- Every input but the reset keeps the environment's frame. -/
theorem runInput_keepsEnv {i : Input} (hi : i ≠ .rst) (s : State) : KeepsEnv s (runInput i s) := by
  cases i with
  | code c =>
    intro t h
    obtain ⟨i, -, h⟩ := runCode_eq_next.mp h
    exact exec_keepsEnv i s t h
  | memRead a => exact hostAccess_keepsEnv fun _ => .withRes s _
  | memWrite a b => exact hostAccess_keepsEnv fun _ => .quiet s
  | rst => exact absurd rfl hi

/-- Settles O16: with nothing chosen `serve` keeps the environment's frame; a choice is used up and then keeps it, but for the
reset, which alone ends a held slave pass. -/
theorem parametersNeverChange : Obligations.ParametersNeverChange := by
  intro s t h
  cases hp : s.pending with
  | nil =>
    rw [step_of_pending_nil hp] at h
    obtain ⟨hcfg, hpending, hevents, hcallbacks, hhung⟩ := serve_keepsEnv s t h
    exact ⟨hcfg, hpending.trans hp, hevents, hcallbacks, fun hs _ => hhung hs⟩
  | cons i rest =>
    rw [step_of_pending_cons hp] at h
    by_cases hi : i = .rst
    · subst hi
      injection h with h
      subst h
      exact ⟨rfl, rfl, ⟨[], by simp [applyReset]⟩, ⟨[], rfl⟩, fun _ hr => absurd rfl hr⟩
    · obtain ⟨hcfg, hpending, hevents, hcallbacks, hhung⟩ := runInput_keepsEnv hi _ t h
      exact ⟨hcfg, hpending, hevents, hcallbacks, fun hs _ => hhung hs⟩

end Sys2Proof.Machine
end

section
/-! PROOFS. An instruction of one engine neither reads nor writes a register of the other (10_state.md rule R10): the statement
O17. -/

namespace Sys2Proof.Machine

/-! ### Outcomes that differ in the registers an operation ignores -/

/-- The state with other registers in the slave engine's place. -/
def withSlave (v : Slave) (s : State) : State := { s with slave := v }

/-- The state with other registers in the master engine's place. -/
def withMaster (m : Master) (s : State) : State := { s with master := m }

/-- The outcome `y` is the outcome `x`, with what it hands on changed by `g`. -/
def Follows {α : Type} (g : α → α) (y x : Run α) : Prop := y = andThen x fun a => .next (g a)

/-- An operation that neither reads nor writes the registers `g` replaces. -/
def Ignores (g : State → State) (op : State → Run State) : Prop := ∀ s, Follows g (op (g s)) (op s)

theorem mapNext_eq_andThen (g : State → State) (x : Run State) : mapNext g x = andThen x fun a => .next (g a) := by
  cases x <;> rfl

theorem Ignores.eq_mapNext {g : State → State} {op : State → Run State} (h : Ignores g op) (s : State) :
    op (g s) = mapNext g (op s) := (h s).trans (mapNext_eq_andThen g (op s)).symm

/-- The operation at a state that `g` makes of another one. -/
theorem Ignores.of_eq {g : State → State} {op : State → Run State} (h : Ignores g op) {s t : State} (e : t = g s) :
    Follows g (op t) (op s) := e ▸ h s

section
variable {α β : Type} {g : α → α} {h : β → β}

theorem Follows.next {a b : α} (e : b = g a) : Follows g (.next b) (.next a) := congrArg _ e

theorem Follows.fault (r : Fault) : Follows g (.fault r) (.fault r) := rfl

theorem Follows.refused (r : Refusal) : Follows g (.refused r) (.refused r) := rfl

theorem Follows.ite {p : Prop} [Decidable p] {x x' y y' : Run α} (hx : Follows g x' x) (hy : Follows g y' y) :
    Follows g (if p then x' else y') (if p then x else y) := by
  split
  · exact hx
  · exact hy

theorem Follows.andThen {x x' : Run α} {f f' : α → Run β} (hx : Follows g x' x) (hf : ∀ a, Follows h (f' (g a)) (f a)) :
    Follows h (andThen x' f') (andThen x f) := by
  subst hx
  cases x with
  | next a => exact hf a
  | fault r => exact .fault r
  | refused r => exact .refused r

end

theorem Follows.guarded {g : State → State} {s t : State} (c : Bool) (e : t = g s) :
    Follows g (guarded c t) (guarded c s) := .ite (.next e) (.refused _)

theorem Ignores.whenFlag {g : State → State} {op : State → Run State} (h : Ignores g op) (b : Bool) :
    Ignores g (whenFlag b op) := fun s => .ite (h s) (.next rfl)

/-! ### The operations on a ByteBuffer -/

/-- What `g` replaces holds neither the buffer `sel` nor anything else that an operation on that buffer reads or writes. -/
structure Apart (g : State → State) (sel : BufSel) : Prop where
  cfg : ∀ s, (g s).cfg = s.cfg
  mem : ∀ s, (g s).mem = s.mem
  buf : ∀ s, (g s).buf sel = s.buf sel
  setBuf : ∀ s b, (g s).setBuf sel b = g (s.setBuf sel b)
  memWrite : ∀ s a x, (g s).memWrite a x = g (s.memWrite a x)
  withRes : ∀ s r, (g s).withRes r = g (s.withRes r)

theorem withSlave_apart (v : Slave) {sel : BufSel} (h : sel.engine = .master) : Apart (withSlave v) sel := by
  cases sel with
  | mBuf => exact ⟨fun _ => rfl, fun _ => rfl, fun _ => rfl, fun _ _ => rfl, fun _ _ _ => rfl, fun _ _ => rfl⟩
  | sRxBuf | sTxBuf => cases h

theorem withMaster_apart (m : Master) {sel : BufSel} (h : sel.engine = .slave) : Apart (withMaster m) sel := by
  cases sel with
  | mBuf => cases h
  | sRxBuf | sTxBuf =>
    exact ⟨fun _ => rfl, fun _ => rfl, fun _ => rfl, fun _ _ => rfl, fun _ _ _ => rfl, fun _ _ => rfl⟩

section
variable {g : State → State} {sel : BufSel} (h : Apart g sel)
include h

theorem bbInit_ignores (p n : Nat) : Ignores g (bbInit sel p n) := by
  intro s
  unfold bbInit
  simp only [h.cfg, h.setBuf]
  exact .ite (.refused _) (.ite (.refused _) (.next rfl))

theorem bbWrite_apart (b : Byte) (s : State) : bbWrite sel b (g s) = ((bbWrite sel b s).1, g (bbWrite sel b s).2) := by
  unfold bbWrite
  simp only [h.cfg, h.buf, h.memWrite, h.setBuf]
  split <;> rfl

theorem bbRead_follows (s : State) : Follows (Prod.map id g) (bbRead sel (g s)) (bbRead sel s) := by
  unfold bbRead
  simp only [h.cfg, h.mem, h.buf, h.setBuf]
  exact .ite (.next rfl) (.fault _)

theorem execBbWrite_ignores (b : Byte) : Ignores g (execBbWrite sel b) := by
  intro s
  unfold execBbWrite
  rw [bbWrite_apart h, h.withRes]
  exact .next rfl

theorem execBbRead_ignores : Ignores g (execBbRead sel) := fun s =>
  .andThen (bbRead_follows h s) fun r => .next (h.withRes r.2 _)

/-- A micro-operation that only answers a question about its buffer. -/
theorem query_ignores (f : ByteBuffer → Bool) : Ignores g fun s => .next (s.withRes (resBit (f (s.buf sel)))) := by
  intro s
  dsimp only
  rw [h.buf, h.withRes]
  exact .next rfl

end

/-! ### The master's operations do not see the slave engine -/

section
variable (v : Slave)

theorem txPush_ignoresSlave (w : BitVec 11) : Ignores (withSlave v) (txPush w) := fun _ => .ite (.fault _) (.next rfl)

theorem abort_ignoresSlave : Ignores (withSlave v) abort := fun _ =>
  .ite (.andThen ((txPush_ignoresSlave v _).of_eq rfl) fun _ => .next rfl) (.next rfl)

theorem start_ignoresSlave (a : Addr) (d : Dir) (s : State) :
    Follows (Prod.map id (withSlave v)) (start a d (withSlave v s)) (start a d s) :=
  .ite (.andThen (abort_ignoresSlave v _) fun _ => .next rfl)
    (.ite (.andThen ((txPush_ignoresSlave v _).of_eq rfl) fun _ => .next rfl)
      (.andThen ((abort_ignoresSlave v).of_eq rfl) fun _ => .next rfl))

theorem probe_ignoresSlave (p : Nat) : Ignores (withSlave v) (probe p) := fun _ =>
  .andThen (bbInit_ignores (withSlave_apart v rfl) _ _ _) (txPush_ignoresSlave v _)

theorem armWrite_ignoresSlave (p n : Nat) (stop : Bool) : Ignores (withSlave v) (armWrite p n stop) := fun s =>
  .ite (probe_ignoresSlave v p s) (.andThen (bbInit_ignores (withSlave_apart v rfl) _ _ _) fun _ => .next rfl)

theorem armRead_ignoresSlave (p n : Nat) (stop : Bool) : Ignores (withSlave v) (armRead p n stop) := fun s =>
  .ite (probe_ignoresSlave v p s)
    (.andThen (bbInit_ignores (withSlave_apart v rfl) _ _ _) fun _ => (txPush_ignoresSlave v _).of_eq rfl)

theorem execMWriteAsync_ignoresSlave (a : Addr) (p n : Nat) (stop : Bool) :
    Ignores (withSlave v) (execMWriteAsync a p n stop) := fun s =>
  .ite (.fault _) (.andThen (start_ignoresSlave v a .write (s.withRes none)) fun r =>
    .ite (armWrite_ignoresSlave v _ _ _ r.2) (.next rfl))

theorem execMReadAsync_ignoresSlave (a : Addr) (p n : Nat) (stop : Bool) :
    Ignores (withSlave v) (execMReadAsync a p n stop) := fun s =>
  .ite (.fault _) (.ite (.next rfl) (.andThen (start_ignoresSlave v a .read (s.withRes none)) fun r =>
    .ite (armRead_ignoresSlave v _ _ _ r.2) (.next rfl)))

theorem takeThis_ignoresSlave (w : BitVec 11) : Ignores (withSlave v) (takeThis w) := by
  intro s
  unfold takeThis
  dsimp only [withSlave]
  split
  · exact .refused _
  · exact .guarded _ rfl

theorem execLuMTake_ignoresSlave : Ignores (withSlave v) execLuMTake := by
  intro s
  unfold execLuMTake
  dsimp only [withSlave]
  split
  · exact .refused _
  · exact .ite (.refused _) (.ite (.fault _) (.next rfl))

theorem completeTransfer_ignoresSlave : Ignores (withSlave v) completeTransfer := fun _ =>
  .ite (.andThen (txPush_ignoresSlave v _ _) fun _ => .next rfl) (.next rfl)

theorem recordErrors_withSlave (r : MStatus) (s : State) :
    recordErrors r (withSlave v s) = withSlave v (recordErrors r s) := by
  rw [recordErrors_eq, recordErrors_eq]
  rfl

theorem handleErrors_ignoresSlave (r : MStatus) : Ignores (withSlave v) (handleErrors r) := by
  intro s
  unfold handleErrors
  rw [recordErrors_withSlave]
  exact .andThen (abort_ignoresSlave v _) fun u => .next (apply_ite (withSlave v) (r.plt && u.master.pltc) (recover u) u).symm

theorem drainRx_withSlave (q : List Byte) (s : State) : drainRx q (withSlave v s) = withSlave v (drainRx q s) := by
  induction q generalizing s with
  | nil => rfl
  | cons b rest ih =>
    simp only [drainRx, bbWrite_apart (withSlave_apart v (sel := .mBuf) rfl), ← ih]
    split <;> rfl

theorem handleRda_ignoresSlave : Ignores (withSlave v) handleRda := by
  intro s
  refine .ite ?_ (.next rfl)
  simp only [show ((enterTransferring (withSlave v s)).mapMaster fun m => { m with rxq := [] }) =
    withSlave v ((enterTransferring s).mapMaster fun m => { m with rxq := [] }) from rfl, drainRx_withSlave]
  exact .ite (completeTransfer_ignoresSlave v _) (.next rfl)

theorem fillTx_ignoresSlave (k : Nat) : Ignores (withSlave v) (fillTx k) := by
  induction k with
  | zero => exact fun _ => .next rfl
  | succ k ih =>
    exact fun s => .ite (.andThen (bbRead_follows (withSlave_apart v rfl) s) fun _ => .andThen (txPush_ignoresSlave v _ _) ih)
      (.next rfl)

theorem handleTdr_ignoresSlave : Ignores (withSlave v) handleTdr := fun s =>
  .ite (.andThen (fillTx_ignoresSlave v _ (enterTransferring s)) fun u =>
    .ite (completeTransfer_ignoresSlave v (u.mapMaster clearTdie)) (.next rfl)) (.next rfl)

theorem masterPass_ignoresSlave (r : MStatus) : Ignores (withSlave v) (masterPass r) := fun s =>
  .andThen ((handleErrors_ignoresSlave v r).whenFlag _ s) fun s1 =>
    .andThen ((handleRda_ignoresSlave v).whenFlag _ s1) fun s2 =>
      .andThen ((handleTdr_ignoresSlave v).whenFlag _ s2) fun s3 =>
        Ignores.whenFlag (op := handleStop) (fun _ => .next rfl) _ s3

theorem execMIsr_ignoresSlave : Ignores (withSlave v) execMIsr := fun s =>
  .ite (masterPass_ignoresSlave v _ (s.withRes none)) (.refused _)


/-- The instructions of the master engine, by their arms. -/
theorem exec_ignoresSlave {i : Instr} (hi : i.engine = .master) : Ignores (withSlave v) (exec i) := by
  cases i with
  | mBegin _ | mEnd | mFinished | mGetBytesTransferred | mError | mHasError | mSetPadControl _ | mSetPullups _
  | mChannelReset | mRecoveryPulses => exact fun _ => .next rfl
  | mWriteAsync a p n stop => exact execMWriteAsync_ignoresSlave v a p n stop
  | mReadAsync a p n stop => exact execMReadAsync_ignoresSlave v a p n stop
  | txwTransmit _ | txwReceive _ | txwStop | txwStart _ _ => exact takeThis_ignoresSlave v _
  | bbInit sel p n => exact fun s => bbInit_ignores (withSlave_apart v hi) p n (s.withRes none)
  | bbWrite sel b => exact execBbWrite_ignores (withSlave_apart v hi) b
  | bbRead sel => exact execBbRead_ignores (withSlave_apart v hi)
  | bbHasData sel => exact query_ignores (withSlave_apart v hi) _
  | bbNotStartedReading sel => exact query_ignores (withSlave_apart v hi) _
  | bbNotStartedWriting sel => exact query_ignores (withSlave_apart v hi) _
  | bbFinishedReading sel => exact query_ignores (withSlave_apart v hi) _
  | bbFinishedWriting sel => exact query_ignores (withSlave_apart v hi) _
  | bbConfigured sel => exact query_ignores (withSlave_apart v hi) _
  | luMTake => exact execLuMTake_ignoresSlave v
  | luMRx _ | luMFlag _ | luMLevel _ _ => exact fun _ => .guarded _ rfl
  | mIsr => exact execMIsr_ignoresSlave v
  | _ => cases hi

end

/-! ### The slave's operations do not see the master engine -/

section
variable (m : Master)

theorem permittedCommand_ignoresMaster (i : Instr) : Ignores (withMaster m) (permittedCommand i) := by
  cases i with
  | sSetRxBuffer p n => exact bbInit_ignores (withMaster_apart m rfl) p n
  | sSetTxBuffer p n => exact bbInit_ignores (withMaster_apart m rfl) p n
  | sError | sHasError => exact fun _ => .next rfl
  | _ => exact fun _ => .refused _

theorem runAct_ignoresMaster (a : HostAct) : Ignores (withMaster m) (runAct a) := by
  intro s
  cases a with
  | command c a0 a1 =>
    unfold runAct
    dsimp only
    split
    · exact permittedCommand_ignoresMaster m _ s
    · exact .refused _
  | memRead _ | memWrite _ _ => exact .ite (.refused _) (.next rfl)

theorem runActs_ignoresMaster (acts : List HostAct) : Ignores (withMaster m) (runActs acts) := by
  induction acts with
  | nil => exact fun _ => .next rfl
  | cons a rest ih => exact fun s => .andThen (runAct_ignoresMaster m a s) ih

theorem afterCallback_withMaster (b : Bool) (s : State) :
    afterCallback b (withMaster m s) = withMaster m (afterCallback b s) := by
  rw [afterCallback_eq, afterCallback_eq]
  rfl

theorem upcall_ignoresMaster (w : Nat) (e : OutEvent) : Ignores (withMaster m) (upcall w e) := by
  refine fun s => .ite (.next rfl) ?_
  dsimp only [withMaster]
  split
  · exact .next rfl
  · exact .andThen ((runActs_ignoresMaster m _).of_eq rfl) fun u => .next (afterCallback_withMaster m _ u)

theorem afterReceive_ignoresMaster : Ignores (withMaster m) afterReceive := fun s => upcall_ignoresMaster m _ _ s

theorem beforeTransmit_ignoresMaster : Ignores (withMaster m) beforeTransmit := fun s => upcall_ignoresMaster m _ _ s

theorem afterTransmit_ignoresMaster : Ignores (withMaster m) afterTransmit := fun s => upcall_ignoresMaster m _ _ s

variable {m} in
theorem Follows.andLive {x x' : Run State} {f : State → Run State} (hx : Follows (withMaster m) x' x)
    (hf : Ignores (withMaster m) f) : Follows (withMaster m) (andLive x' f) (andLive x f) :=
  hx.andThen fun _ => .ite (.next rfl) (hf _)

variable {m} in
theorem Follows.slaveStep {x x' : Run State} {s : State} (hx : Follows (withMaster m) x' x) :
    Follows (withMaster m) (slaveStep x' (withMaster m s)) (slaveStep x s) := .ite (.refused _) hx

theorem execLuSTake_ignoresMaster : Ignores (withMaster m) execLuSTake := by
  intro s
  unfold execLuSTake
  dsimp only [withMaster]
  split
  · exact .slaveStep (.next rfl)
  · exact .slaveStep (.refused _)

theorem startFrame_withMaster (sof : Bool) (s : State) :
    startFrame sof (withMaster m s) = withMaster m (startFrame sof s) := by cases sof <;> rfl

theorem storeOrDiscard_withMaster (b : Byte) (s : State) :
    storeOrDiscard b (withMaster m s) = withMaster m (storeOrDiscard b s) := by
  unfold storeOrDiscard
  simp only [bbWrite_apart (withMaster_apart m (sel := .sRxBuf) rfl), apply_ite (withMaster m)]
  rfl

theorem handleRx_ignoresMaster : Ignores (withMaster m) handleRx := by
  intro s
  unfold handleRx
  dsimp only [withMaster]
  split
  · exact .next rfl
  · refine .next ?_
    rw [← storeOrDiscard_withMaster, ← startFrame_withMaster]
    rfl

theorem handleEof_ignoresMaster (r : SStatus) : Ignores (withMaster m) (handleEof r) := by
  intro s
  unfold handleEof
  dsimp only [withMaster, State.mapSlave]
  split
  · exact .andLive ((afterReceive_ignoresMaster m).of_eq rfl) fun _ => .next rfl
  · exact .andLive ((afterTransmit_ignoresMaster m).of_eq rfl) fun _ => .next rfl
  · exact .next rfl
  · exact .next rfl

theorem handleBerr_ignoresMaster : Ignores (withMaster m) handleBerr := fun _ => .next rfl

theorem handleAm_ignoresMaster : Ignores (withMaster m) handleAm := by
  intro s
  rw [handleAm_eq, handleAm_eq]
  exact .next rfl

theorem supplyByte_ignoresMaster : Ignores (withMaster m) supplyByte := fun s =>
  .ite (.ite (.andThen (bbRead_follows (withMaster_apart m rfl) s) fun _ => .next rfl) (.ite (.next rfl) (.next rfl)))
    (.next rfl)

theorem startTransmit_ignoresMaster : Ignores (withMaster m) startTransmit := fun s =>
  .ite (.next rfl) (.andLive (beforeTransmit_ignoresMaster m s) fun _ => .next rfl)

theorem handleTx_ignoresMaster : Ignores (withMaster m) handleTx := fun s =>
  .ite (.next rfl) (.andLive (startTransmit_ignoresMaster m s) (supplyByte_ignoresMaster m))

theorem slavePass_ignoresMaster (r : SStatus) : Ignores (withMaster m) (slavePass r) := fun s =>
  .andThen ((handleRx_ignoresMaster m).whenFlag _ s) fun s1 =>
    .andLive ((handleEof_ignoresMaster m r).whenFlag _ s1) fun s2 =>
      .andThen ((handleBerr_ignoresMaster m).whenFlag _ s2) fun s3 =>
        .andThen ((handleAm_ignoresMaster m).whenFlag _ s3) ((handleTx_ignoresMaster m).whenFlag _)

theorem execSIsr_ignoresMaster : Ignores (withMaster m) execSIsr := fun s =>
  .slaveStep (.ite (slavePass_ignoresMaster m _ (s.withRes none)) (.refused _))

/-- The instructions of the slave engine, by their arms. -/
theorem exec_ignoresMaster {i : Instr} (hi : i.engine = .slave) : Ignores (withMaster m) (exec i) := by
  cases i with
  | sListen _ | sListen2 _ _ | sListenRange _ _ | sStopListening | sAfterReceive _ | sBeforeTransmit _ | sAfterTransmit _
  | sError | sHasError | sSetPadControl _ | sSetPullups _ | sChannelReset => exact fun _ => .next rfl
  | sSetRxBuffer p n => exact fun s => bbInit_ignores (withMaster_apart m rfl) p n (s.withRes none)
  | sSetTxBuffer p n => exact fun s => bbInit_ignores (withMaster_apart m rfl) p n (s.withRes none)
  | bbInit sel p n => exact fun s => bbInit_ignores (withMaster_apart m hi) p n (s.withRes none)
  | bbWrite sel b => exact execBbWrite_ignores (withMaster_apart m hi) b
  | bbRead sel => exact execBbRead_ignores (withMaster_apart m hi)
  | bbHasData sel => exact query_ignores (withMaster_apart m hi) _
  | bbNotStartedReading sel => exact query_ignores (withMaster_apart m hi) _
  | bbNotStartedWriting sel => exact query_ignores (withMaster_apart m hi) _
  | bbFinishedReading sel => exact query_ignores (withMaster_apart m hi) _
  | bbFinishedWriting sel => exact query_ignores (withMaster_apart m hi) _
  | bbConfigured sel => exact query_ignores (withMaster_apart m hi) _
  | luSAddr _ _ | luSRx _ _ => exact fun _ => .slaveStep (.guarded _ rfl)
  | luSTake => exact execLuSTake_ignoresMaster m
  | luSRs | luSStop | luSBerr => exact fun _ => .slaveStep (.next rfl)
  | upAfterReceive => exact fun s => .slaveStep (afterReceive_ignoresMaster m (s.withRes none))
  | upBeforeTransmit => exact fun s => .slaveStep (beforeTransmit_ignoresMaster m (s.withRes none))
  | upAfterTransmit => exact fun s => .slaveStep (afterTransmit_ignoresMaster m (s.withRes none))
  | sIsr => exact execSIsr_ignoresMaster m
  | _ => cases hi

end

/-! ### The engines are independent -/

/-- Settles O17: every instruction of an engine ignores the registers of the other, by its arm. -/
theorem enginesAreIndependent : Obligations.EnginesAreIndependent :=
  ⟨fun _ s v hi => (exec_ignoresSlave v hi).eq_mapNext s, fun _ s m hi => (exec_ignoresMaster m hi).eq_mapNext s⟩

/-- An instruction of the slave engine leaves the master engine alone: independence, with the master engine's own registers put
in their place. -/
theorem exec_master_eq {i : Instr} (hi : i.engine = .slave) {s t : State} (h : exec i s = .next t) :
    t.master = s.master := by
  have e : exec i s = mapNext (withMaster s.master) (exec i s) := (exec_ignoresMaster s.master hi).eq_mapNext s
  rw [h] at e
  injection e with e
  exact (congrArg State.master e :)

end Sys2Proof.Machine
end

section
/-! PROOFS. The invariants of 10_state.md rule R38 hold at reset and are kept by every step: the statements O11, O13 and O14. -/

namespace Sys2Proof.Machine

/-! ### What holds of an operation's next state -/

/-- The operation's next state, if it has one, satisfies `P`. (`KeepsEnv s` is this for the environment's frame of `s`.) -/
def Ensures (P : State → Prop) (x : Run State) : Prop := ∀ t, x = .next t → P t

section
variable {P : State → Prop} {s t : State} {x y : Run State}

theorem Ensures.next (h : P t) : Ensures P (.next t) := by
  rintro _ ⟨⟩
  exact h

theorem Ensures.fault (r : Fault) : Ensures P (.fault r) := fun _ h => nomatch h

theorem Ensures.refused (r : Refusal) : Ensures P (.refused r) := fun _ h => nomatch h

theorem Ensures.ite {p : Prop} [Decidable p] (hx : p → Ensures P x) (hy : ¬ p → Ensures P y) :
    Ensures P (if p then x else y) := by
  split
  · exact hx ‹_›
  · exact hy ‹_›

theorem Ensures.andThen {α : Type} {x : Run α} {f : α → Run State} (h : ∀ a, x = .next a → Ensures P (f a)) :
    Ensures P (andThen x f) := by
  intro t ht
  obtain ⟨a, ha, hf⟩ := andThen_eq_next.mp ht
  exact h a ha t hf

theorem Ensures.guarded {g : Bool} (h : g = true → P t) : Ensures P (guarded g t) := by
  intro u hu
  obtain ⟨hg, rfl⟩ := guarded_eq_next.mp hu
  exact h hg

theorem Ensures.slaveStep (h : Ensures P x) : Ensures P (slaveStep x s) :=
  fun t ht => h t (slaveStep_eq_next.mp ht).2

/-- A handler that keeps `P` keeps it also where it runs on a flag of the snapshot only. -/
theorem Ensures.whenFlag {f : State → Run State} (hf : ∀ u, P u → Ensures P (f u)) (b : Bool) (h : P s) :
    Ensures P (whenFlag b f s) := .ite (fun _ => hf s h) (fun _ => .next h)

end

/-! ### Operations that hold to a property -/

/-- A host access is to an address of `PTR_W` bits. -/
theorem hostAccess_ensures {P : State → Prop} {a : Nat} {f : Nat → State} {s : State}
    (h : ∀ x, x < 2 ^ s.cfg.ptrW → P (f x)) : Ensures P (hostAccess a f s) :=
  .ite (fun _ => .refused _) fun _ => .next (h _ (s.cfg.ptrBits_lt a))

section
variable {P : State → Prop} {s : State} (h : ∀ w rest, s.master.txq = w :: rest → P (takeWord w rest s))
include h

/-- The line unit takes only the head of the transmit FIFO, whether or not it is told which word that is. -/
theorem takeThis_ensures (w : BitVec 11) : Ensures P (takeThis w s) := by
  unfold takeThis
  split
  · exact .refused _
  · rename_i v rest hq
    refine .guarded fun hg => ?_
    obtain ⟨-, rfl⟩ : s.master.en = true ∧ v = w := by simpa using hg
    exact h _ _ hq

theorem execLuMTake_ensures : Ensures P (execLuMTake s) := by
  unfold execLuMTake
  split
  · exact .refused _
  · exact .ite (fun _ => .refused _) fun _ => .ite (fun _ => .fault _) fun _ => .next (h _ _ ‹_›)

end

/-- What each handler of the master pass keeps, the pass keeps. -/
theorem masterPass_ensures {P : State → Prop} {r : MStatus} (herr : ∀ u, P u → Ensures P (handleErrors r u))
    (hrda : ∀ u, P u → Ensures P (handleRda u)) (htdr : ∀ u, P u → Ensures P (handleTdr u))
    (hstop : ∀ u, P u → Ensures P (handleStop u)) {s : State} (h : P s) : Ensures P (masterPass r s) :=
  .andThen fun s1 h1 => .andThen fun s2 h2 => .andThen fun s3 h3 =>
    have k1 : P s1 := Ensures.whenFlag herr _ h s1 h1
    have k2 : P s2 := Ensures.whenFlag hrda _ k1 s2 h2
    have k3 : P s3 := Ensures.whenFlag htdr _ k2 s3 h3
    .whenFlag hstop _ k3

/-! ### What the invariants do not speak of -/

theorem Inv.withRes {s : State} (h : Inv s) (r : Option Nat) : Inv (s.withRes r) := { h with }

theorem Inv.emit {s : State} (h : Inv s) (e : OutEvent) : Inv (emit e s) := { h with }

theorem Inv.withPending {s : State} (h : Inv s) (l : List Input) : Inv { s with pending := l } := { h with }

/-- The transmit FIFO has room for two words (R6). -/
theorem Inv.two_le_mTxDepth {s : State} (h : Inv s) : 2 ≤ s.cfg.mTxDepth := by
  have := h.cfgLegal
  simp only [Config.legal, Bool.and_eq_true, decide_eq_true_eq] at this
  omega

/-! ### The values that make up sound registers -/

/-- A buffer that is not configured is sound (R39). -/
theorem ByteBuffer.Ok.reset (c : Config) : ByteBuffer.reset.Ok c :=
  ⟨Nat.two_pow_pos _, Nat.two_pow_pos _, le_rfl, Nat.zero_le _, c.onDevice_zero 0⟩

theorem clearTdie_feie {m : Master} (h : m.ier.getLsbD 5 = false) : (clearTdie m).ier.getLsbD 5 = false := by
  rw [clearTdie_ier, BitVec.getLsbD_and, h, Bool.false_and]

theorem setTdie_feie {m : Master} (h : m.ier.getLsbD 5 = false) : (setTdie m).ier.getLsbD 5 = false := by
  rw [setTdie_ier, BitVec.getLsbD_or, h]
  rfl

theorem reservedCmd_transmit (d : Byte) : reservedCmd (txwTransmitWord d) = false := by simp [reservedCmd]

theorem reservedCmd_receive (n : Nat) : reservedCmd (txwReceiveWord n) = false := by simp [reservedCmd]

theorem reservedCmd_start (a : Addr) (d : Dir) : reservedCmd (txwStartWord a d) = false := by simp [reservedCmd]

/-- Taking a word changes one flag and two levels at most (R171). -/
theorem takeEffect_eq (w : BitVec 11) (m : Master) :
    ∃ stop busy held : Bool, takeEffect w m = { m with stopFlag := stop, busy := busy, held := held } := by
  unfold takeEffect
  split
  · exact ⟨m.stopFlag, true, true, rfl⟩
  · split
    · exact ⟨true, m.busy, false, rfl⟩
    · exact ⟨m.stopFlag, m.busy, m.held, rfl⟩

/-! ### The invariants at reset -/

/-- The reset input keeps the parameters and caller memory (R231); all else the invariants speak of is sound at its reset
value. -/
theorem inv_applyReset {s : State} (hc : s.cfg.legal = true) (hm : memWf s.cfg.ptrW s.mem = true) :
    Inv (applyReset s) where
  cfgLegal := hc
  mBuf := .reset _
  sRxBuf := .reset _
  sTxBuf := .reset _
  mTxFits := Nat.zero_le _
  mRxFits := Nat.zero_le _
  sTxFits := Nat.zero_le _
  sRxFits := Nat.zero_le _
  mFeie := (by decide : (0#7).getLsbD 5 = false)
  mFreq := Nat.two_pow_pos _
  cbAfterRx := Nat.two_pow_pos _
  cbBeforeTx := Nat.two_pow_pos _
  cbAfterTx := Nat.two_pow_pos _
  mClass := rfl
  mIrqEn := rfl
  sIrqEn := rfl
  sIer := rfl
  memCanonical := hm
  txWords := List.forall_mem_nil _

/-- Settles O11: the power-on values are those of `State.reset`, and no byte of caller memory has been written. -/
theorem resetRegisterValues : Obligations.ResetRegisterValues := ⟨rfl, rfl, memRead_nil⟩

/-- Settles O13: power-on is a reset of the default configuration; the channel is disabled and no transfer is in progress. -/
theorem resetMeetsInvariants : Obligations.ResetMeetsInvariants :=
  ⟨inv_applyReset (s := State.reset) (by decide) rfl, fun he _ => absurd he (by decide), fun hd _ => absurd hd (by decide)⟩

/-! ### The shared operations keep the invariants -/

theorem bbInit_inv {s : State} (h : Inv s) (sel : BufSel) (p n : Nat) : Ensures Inv (bbInit sel p n s) := by
  intro t ht
  obtain ⟨hf, hd, rfl⟩ := bbInit_eq_next.mp ht
  cases sel with
  | mBuf => exact { h with mBuf := ok_of_bound hf hd }
  | sRxBuf => exact { h with sRxBuf := ok_of_bound hf hd }
  | sTxBuf => exact { h with sTxBuf := ok_of_bound hf hd }

/-- Moving on the cursor of a buffer that has room. -/
theorem Inv.advance {s : State} (h : Inv s) {sel : BufSel} (hn : (s.buf sel).next ≠ (s.buf sel).len) :
    Inv (s.setBuf sel ((s.buf sel).advance s.cfg)) := by
  cases sel with
  | mBuf => exact { h with mBuf := h.mBuf.advance hn }
  | sRxBuf => exact { h with sRxBuf := h.sRxBuf.advance hn }
  | sTxBuf => exact { h with sTxBuf := h.sTxBuf.advance hn }

theorem Inv.memWrite {s : State} (h : Inv s) {a : Nat} (ha : a < 2 ^ s.cfg.ptrW) (b : Byte) : Inv (s.memWrite a b) :=
  { h with memCanonical := memWf_memWrite _ _ _ ha h.memCanonical }

theorem bbWrite_inv {s : State} (h : Inv s) (sel : BufSel) (b : Byte) : Inv (bbWrite sel b s).2 := by
  by_cases hn : (s.buf sel).next = (s.buf sel).len
  · rw [bbWrite_full hn]
    exact h
  · rw [bbWrite_room hn]
    have k : Inv (s.memWrite ((s.buf sel).cursor s.cfg) b) := h.memWrite (ByteBuffer.cursor_lt _ _) b
    simpa using k.advance (sel := sel) (by simpa using hn)

theorem bbRead_inv {s : State} (h : Inv s) {sel : BufSel} {r : Byte × State} (hr : bbRead sel s = .next r) : Inv r.2 := by
  obtain ⟨hn, rfl⟩ := bbRead_eq_next.mp hr
  exact h.advance (Nat.ne_of_lt hn)

/-- A queued word has one of the four command values (R62). -/
theorem txPush_inv {s : State} (h : Inv s) {w : BitVec 11} (hw : reservedCmd w = false) : Ensures Inv (txPush w s) := by
  intro t ht
  obtain ⟨hd, rfl⟩ := txPush_eq_next.mp ht
  exact { h with
    mTxFits := by simpa using hd
    txWords := by simpa [or_imp, forall_and, hw] using h.txWords }

theorem Inv.afterAbort {s : State} (h : Inv s) : Inv { s with master := afterAbort s.master } := by
  have hd := h.two_le_mTxDepth
  have hi := clearTdie_feie h.mFeie
  cases hh : s.master.held <;> simp only [Machine.afterAbort, hh, if_true, Bool.false_eq_true, if_false]
  · exact { h with mTxFits := Nat.zero_le _, mRxFits := Nat.zero_le _, mFeie := hi, txWords := List.forall_mem_nil _ }
  · exact { h with
      mTxFits := (show 1 ≤ s.cfg.mTxDepth by omega), mRxFits := Nat.zero_le _, mFeie := hi
      txWords := List.forall_mem_singleton.mpr rfl }

theorem Inv.afterStart {s : State} (h : Inv s) (a : Addr) (d : Dir) :
    Inv { s with master := afterStart a d s.master } := by
  have hd := h.two_le_mTxDepth
  exact { h with
    mTxFits := (show 1 ≤ s.cfg.mTxDepth by omega), mRxFits := Nat.zero_le _
    txWords := List.forall_mem_singleton.mpr (reservedCmd_start a d) }

theorem start_inv {s : State} (h : Inv s) {a : Addr} {d : Dir} {r : Bool × State} (hr : start a d s = .next r) :
    Inv r.2 := by
  obtain ⟨-, rfl⟩ | ⟨-, -, rfl⟩ | ⟨-, -, -, rfl⟩ := start_eq_next hr
  · exact { h.afterAbort with }
  · exact { h.afterAbort with }
  · exact h.afterStart a d

/-- `M_BEGIN` and bus recovery put the channel into a sound state with any frequency of `FREQ_W` bits (R90, R116). -/
theorem Inv.beginChannel {s : State} (h : Inv s) {f : Nat} (hf : f < 2 ^ s.cfg.freqW) : Inv (beginChannel f s) :=
  { h with
    mTxFits := Nat.zero_le _, mRxFits := Nat.zero_le _, mFeie := (by decide : mIerBegin.getLsbD 5 = false)
    mFreq := hf, mClass := rfl, mIrqEn := rfl
    txWords := List.forall_mem_nil _ }

theorem Inv.recover {s : State} (h : Inv s) : Inv (recover s) := by
  rw [recover_eq]
  exact { h.beginChannel h.mFreq with }

theorem Inv.channelReset {s : State} (h : Inv s) : Inv (channelReset s) :=
  { h with mTxFits := Nat.zero_le _, mRxFits := Nat.zero_le _, txWords := List.forall_mem_nil _ }

/-! ### The master's instructions keep the invariants -/

theorem probe_inv {s : State} (h : Inv s) (p : Nat) : Ensures Inv (probe p s) :=
  .andThen fun u hu => txPush_inv (bbInit_inv h _ _ _ u hu) rfl

theorem armWrite_inv {s : State} (h : Inv s) (p n : Nat) (stop : Bool) : Ensures Inv (armWrite p n stop s) := by
  refine .ite (fun _ => probe_inv h p) fun _ => .andThen fun u hu => .next ?_
  have k : Inv u := bbInit_inv h _ _ _ u hu
  exact { k with mFeie := setTdie_feie k.mFeie }

theorem armRead_inv {s : State} (h : Inv s) (p n : Nat) (stop : Bool) : Ensures Inv (armRead p n stop s) := by
  refine .ite (fun _ => probe_inv h p) fun _ => .andThen fun u hu => ?_
  have k : Inv u := bbInit_inv h _ _ _ u hu
  exact txPush_inv (s := u.mapMaster fun m => { m with sendStop := stop }) { k with } (reservedCmd_receive n)

theorem execMWriteAsync_inv {s : State} (h : Inv s) (a : Addr) (p n : Nat) (stop : Bool) :
    Ensures Inv (execMWriteAsync a p n stop s) :=
  .ite (fun _ => .fault _) fun _ => .andThen fun r hr =>
    have k : Inv r.2 := start_inv (h.withRes none) hr
    .ite (fun _ => armWrite_inv k _ _ _) fun _ => .next k

theorem execMReadAsync_inv {s : State} (h : Inv s) (a : Addr) (p n : Nat) (stop : Bool) :
    Ensures Inv (execMReadAsync a p n stop s) :=
  .ite (fun _ => .fault _) fun _ => .ite (fun _ => .next { h with }) fun _ => .andThen fun r hr =>
    have k : Inv r.2 := start_inv (h.withRes none) hr
    .ite (fun _ => armRead_inv k _ _ _) fun _ => .next k

/-- The line unit takes the head of the transmit FIFO. -/
theorem Inv.takeWord {s : State} (h : Inv s) {w : BitVec 11} {rest : List (BitVec 11)} (hq : s.master.txq = w :: rest) :
    Inv (takeWord w rest s) := by
  have hl := h.mTxFits
  have hw := h.txWords
  rw [hq] at hl hw
  obtain ⟨stop, busy, held, e⟩ := takeEffect_eq w { s.master with txq := rest }
  rw [Machine.takeWord, State.mapMaster, e]
  exact { h with mTxFits := Nat.le_of_succ_le hl, txWords := (List.forall_mem_cons.mp hw).2 }

theorem execLuMRx_inv {s : State} (h : Inv s) (b : Byte) : Ensures Inv (execLuMRx b s) :=
  .guarded fun hg => { h with mRxFits := by simpa using (Bool.and_eq_true_iff.mp hg).2 }

theorem execLuMFlag_inv {s : State} (h : Inv s) (f : MFlag) : Ensures Inv (execLuMFlag f s) :=
  .guarded fun _ => by cases f <;> exact { h with }

theorem execLuMLevel_inv {s : State} (h : Inv s) (l : MLevel) (v : Bool) : Ensures Inv (execLuMLevel l v s) :=
  .guarded fun _ => by cases l <;> exact { h with }

/-! ### The master pass keeps the invariants -/

theorem completeTransfer_inv {s : State} (h : Inv s) : Ensures Inv (completeTransfer s) :=
  .ite (fun _ => .andThen fun u hu => .next { txPush_inv h rfl u hu with }) fun _ => .next { h with }

theorem handleErrors_inv (r : MStatus) (s : State) (h : Inv s) : Ensures Inv (handleErrors r s) := by
  intro t ht
  obtain ⟨-, rfl⟩ := handleErrors_eq_next.mp ht
  rw [recordErrors_eq]
  have k : Inv { s with master := afterAbort s.master } := h.afterAbort
  split
  · rw [recover_eq]
    exact { k.recover with }
  · exact { k with }

theorem drainRx_inv (q : List Byte) {s : State} (h : Inv s) : Inv (drainRx q s) := by
  induction q generalizing s with
  | nil => exact h
  | cons b rest ih =>
    apply ih
    have k : Inv (bbWrite .mBuf b s).2 := bbWrite_inv h .mBuf b
    split
    · exact k
    · exact { k with }

theorem handleRda_inv (s : State) (h : Inv s) : Ensures Inv (handleRda s) := by
  have k : Inv (drainRx s.master.rxq ((enterTransferring s).mapMaster fun m => { m with rxq := [] })) :=
    drainRx_inv _ { h with mRxFits := Nat.zero_le _ }
  exact .ite (fun _ => .ite (fun _ => completeTransfer_inv k) fun _ => .next k)
    fun _ => .next { h with mRxFits := Nat.zero_le _ }

theorem fillTx_inv (k : Nat) {s : State} (h : Inv s) : Ensures Inv (fillTx k s) := by
  induction k generalizing s with
  | zero => exact .next h
  | succ k ih =>
    refine .ite (fun _ => .andThen fun r hr => .andThen fun u hu => ?_) fun _ => .next h
    exact ih (txPush_inv (bbRead_inv h hr) (reservedCmd_transmit _) u hu)

theorem Inv.clearTdie {s : State} (h : Inv s) : Inv (s.mapMaster clearTdie) := { h with mFeie := clearTdie_feie h.mFeie }

theorem handleTdr_inv (s : State) (h : Inv s) : Ensures Inv (handleTdr s) := by
  refine .ite (fun _ => .andThen fun u hu => ?_) fun _ => .next h
  have k : Inv u := fillTx_inv _ (s := enterTransferring s) { h with } u hu
  exact .ite (fun _ => completeTransfer_inv k.clearTdie) fun _ => .next k

theorem handleStop_inv (s : State) (h : Inv s) : Ensures Inv (handleStop s) := .next { h.clearTdie with }

theorem execMIsr_inv {s : State} (h : Inv s) : Ensures Inv (execMIsr s) :=
  .ite (fun _ => masterPass_ensures (handleErrors_inv _) handleRda_inv handleTdr_inv handleStop_inv (h.withRes none))
    fun _ => .refused _

/-! ### The slave's handlers and upcalls keep the invariants -/

/-- What a handler of the slave pass leaves alone keeps the invariants, but for the bound on what it pushes. -/
theorem SlaveFrame.inv {n k j : Nat} {s t : State} (f : SlaveFrame n k j s t) (h : Inv s) (ht : t.slave.txq.length ≤ 1) :
    Inv t := by
  obtain ⟨hrx, hbt, htx⟩ := f.handles
  constructor
  case sRxBuf => exact f.rxOk h.sRxBuf
  case sTxBuf => exact f.txOk h.sTxBuf
  case sTxFits => exact ht
  case sRxFits => exact f.rxq.2.trans h.sRxFits
  case memCanonical => exact f.memOk h.memCanonical
  all_goals simp only [f.cfg, f.master, hrx, hbt, htx, f.irqEn, f.ier, f.listen]
  exacts [h.cfgLegal, h.mBuf, h.mTxFits, h.mRxFits, h.mFeie, h.mFreq, h.cbAfterRx, h.cbBeforeTx, h.cbAfterTx, h.mClass,
    h.mIrqEn, h.sIrqEn, h.sIer, h.txWords]

theorem upcall_inv {s : State} (h : Inv s) (w : Nat) (e : OutEvent) : Ensures Inv (upcall w e s) := fun _ ht =>
  have f := upcall_slaveFrame ht
  f.inv h (f.txq.trans h.sTxFits)

/-- A pass whose snapshot has no transmit request pushes no byte. -/
theorem slavePass_frame_of_no_request {r : SStatus} (hr : r.tdr = false) {s t : State} (h : slavePass r s = .next t) :
    SlaveFrame 1 1 0 s t := by
  obtain ⟨s1, h1, h⟩ := andThen_eq_next.mp h
  refine (whenFlag_slaveFrame handleRx_frame h1).trans
    (andLive_slaveFrame (n' := 0) (k' := 0) (j' := 0) (whenFlag_slaveFrame fun k => (handleEof_frame k).1) ?_ h)
  intro s2 h
  obtain ⟨s3, h3, h⟩ := andThen_eq_next.mp h
  obtain ⟨s4, h4, h5⟩ := andThen_eq_next.mp h
  rw [hr, whenFlag_false] at h5
  injection h5 with h5
  subst h5
  exact (whenFlag_slaveFrame (fun k => (handleBerr_frame k).1) h3).trans
    (whenFlag_slaveFrame (fun k => (handleAm_frame k).1) h4)

/-- The snapshot has a transmit request only while `s_txq` is empty (R34), so that the byte of the pass fits. -/
theorem slavePass_inv {s : State} (h : Inv s) : Ensures Inv (slavePass (sStatus s.slave) s) := by
  intro t ht
  cases hr : (sStatus s.slave).tdr with
  | false =>
    have f := slavePass_frame_of_no_request hr ht
    exact f.inv h (f.txq.trans h.sTxFits)
  | true =>
    have f := slavePass_frame ht
    have he : s.slave.txq = [] := by simpa using (Bool.and_eq_true_iff.mp hr).2
    exact f.inv h (by simpa [he] using f.txq)

theorem execSIsr_inv {s : State} (h : Inv s) : Ensures Inv (execSIsr s) :=
  .slaveStep (.ite (fun _ => slavePass_inv (h.withRes none)) fun _ => .refused _)

/-! ### The slave's other instructions keep the invariants -/

theorem Inv.listenCommon {s : State} (h : Inv s) (mode : MatchMode) (a b : Addr) : Inv (listenCommon mode a b s) :=
  { h with sTxFits := Nat.zero_le _, sRxFits := Nat.zero_le _, sIrqEn := rfl, sIer := rfl }

theorem execLuSRx_inv {s : State} (h : Inv s) (b : Byte) (sof : Bool) : Ensures Inv (execLuSRx b sof s) :=
  .slaveStep (.guarded fun hg => { h with sRxFits := by simp [List.isEmpty_iff.mp hg] })

theorem execLuSTake_inv {s : State} (h : Inv s) : Ensures Inv (execLuSTake s) := by
  unfold execLuSTake
  split
  · exact .slaveStep (.next { h with sTxFits := Nat.zero_le _ })
  · exact .slaveStep (.refused _)

/-! ### Every instruction and every step keep the invariants -/

/-- Every instruction keeps the invariants: by its arm, the arms that act alike together. -/
theorem exec_inv (i : Instr) {s : State} (h : Inv s) : Ensures Inv (exec i s) := by
  cases i with
  | mBegin f => exact .next ((h.beginChannel (s.cfg.freqBits_lt f)).withRes none)
  | mEnd => exact .next { h with mIrqEn := rfl }
  | mFinished | mGetBytesTransferred | mError | mHasError | sError | sHasError => exact .next (h.withRes _)
  | bbHasData _ | bbNotStartedReading _ | bbNotStartedWriting _ | bbFinishedReading _ | bbFinishedWriting _
  | bbConfigured _ => exact .next (h.withRes _)
  | mSetPadControl _ | mSetPullups _ | sSetPadControl _ | sSetPullups _ => exact .next { h with }
  | mWriteAsync a p n stop => exact execMWriteAsync_inv h a p n stop
  | mReadAsync a p n stop => exact execMReadAsync_inv h a p n stop
  | sListen _ | sListen2 _ _ | sListenRange _ _ => exact .next ((h.listenCommon _ _ _).withRes none)
  | sStopListening => exact .next { h with sIrqEn := rfl, sIer := rfl }
  | sSetRxBuffer _ _ | sSetTxBuffer _ _ | bbInit _ _ _ => exact bbInit_inv (h.withRes none) _ _ _
  | sAfterReceive w => exact .next { h with cbAfterRx := s.cfg.ptrBits_lt w }
  | sBeforeTransmit w => exact .next { h with cbBeforeTx := s.cfg.ptrBits_lt w }
  | sAfterTransmit w => exact .next { h with cbAfterTx := s.cfg.ptrBits_lt w }
  | txwTransmit _ | txwReceive _ | txwStop | txwStart _ _ => exact takeThis_ensures (fun _ _ => h.takeWord) _
  | bbWrite sel b => exact .next ((bbWrite_inv h sel b).withRes _)
  | bbRead sel => exact .andThen fun r hr => .next ((bbRead_inv h hr).withRes _)
  | mIsr => exact execMIsr_inv h
  | sIsr => exact execSIsr_inv h
  | upAfterReceive | upBeforeTransmit | upAfterTransmit => exact .slaveStep (upcall_inv (h.withRes none) _ _)
  | luMTake => exact execLuMTake_ensures fun _ _ => h.takeWord
  | luMRx b => exact execLuMRx_inv h b
  | luMFlag f => exact execLuMFlag_inv h f
  | luMLevel l v => exact execLuMLevel_inv h l v
  | luSAddr _ _ => exact .slaveStep (.guarded fun _ => { h with })
  | luSRx b sof => exact execLuSRx_inv h b sof
  | luSTake => exact execLuSTake_inv h
  | luSRs | luSStop => exact .slaveStep (.next { h with sTxFits := Nat.zero_le _ })
  | luSBerr => exact .slaveStep (.next { h with })
  | mChannelReset => exact .next (h.withRes none).channelReset
  | mRecoveryPulses | sChannelReset => exact .next ((h.withRes none).emit _)

theorem runInput_inv (i : Input) {s : State} (h : Inv s) : Ensures Inv (runInput i s) := by
  cases i with
  | code c =>
    intro t ht
    obtain ⟨i, -, he⟩ := runCode_eq_next.mp ht
    exact exec_inv i h t he
  | memRead a => exact hostAccess_ensures fun _ _ => h.withRes _
  | memWrite a b => exact hostAccess_ensures fun _ hx => (h.memWrite hx b).withRes none
  | rst => exact .next (inv_applyReset h.cfgLegal h.memCanonical)

theorem serve_inv {s : State} (h : Inv s) : Ensures Inv (serve s) :=
  .ite (fun _ => exec_inv .mIsr h) fun _ => .ite (fun _ => exec_inv .sIsr h) fun _ => .next h

/-- Settles O14: what a step runs, an instruction, a host access, the reset or a vector, keeps the invariants. -/
theorem stepKeepsInv : Obligations.StepKeepsInv := by
  intro s t h ht
  cases hp : s.pending with
  | nil =>
    rw [step_of_pending_nil hp] at ht
    exact serve_inv h t ht
  | cons i rest =>
    rw [step_of_pending_cons hp] at ht
    exact runInput_inv i (h.withPending rest) t ht

end Sys2Proof.Machine
end

section
/-! PROOFS. Every step but a `BB_INIT` of `m_buf` keeps the rules of a transfer in progress (10_state.md rule R38 item 5,
41_master_commands.md rule R96): the statement O15. -/

namespace Sys2Proof.Machine

/-- The two rules of a transfer in progress: when `TDIE` may be set, and how many words a read queues. -/
structure TransferRules (s : State) : Prop where
  tdie : TdieInv s
  queue : ReadQueueInv s

/-- On an enabled channel `TDIE` is clear. -/
def TdieClear (m : Master) : Prop := m.en = true → mTdie m = false

/-! ### When the rules hold -/

/-- The rules speak of the master engine only. -/
theorem TransferRules.of_master_eq {s t : State} (h : TransferRules s) (e : t.master = s.master) : TransferRules t := by
  obtain ⟨ht, hq⟩ := h
  unfold TdieInv at ht
  unfold ReadQueueInv at hq
  exact ⟨by rwa [TdieInv, e], by rwa [ReadQueueInv, e]⟩

/-- Where no transfer is starting or transferring, only `TDIE` matters. -/
theorem TransferRules.of_not_moving {s : State} (ht : TdieClear s.master) (hm : s.master.state.moving = false) :
    TransferRules s where
  tdie he h := by simp [ht he] at h
  queue _ h := by simp [hm] at h

/-- Where no transfer is starting or transferring, `TDIE` is clear. -/
theorem TransferRules.tdieClear_of_not_moving {s : State} (h : TransferRules s) (hm : s.master.state.moving = false) :
    TdieClear s.master := by
  intro he
  by_contra ht
  obtain ⟨-, -, h⟩ := h.tdie he (by simpa using ht)
  simp [hm] at h

/-- During a read `TDIE` is clear. -/
theorem TransferRules.tdieClear_of_read {s : State} (h : TransferRules s) (hd : s.master.dir = .read) :
    TdieClear s.master := by
  intro he
  by_contra ht
  obtain ⟨h, -, -⟩ := h.tdie he (by simpa using ht)
  simp [hd] at h

theorem tdieClear_clearTdie (m : Master) : TdieClear (clearTdie m) := by
  intro _
  rw [mTdie, clearTdie_ier, BitVec.getLsbD_and]
  exact Bool.and_false _

theorem moving_of_finished {c : Config} {m : Master} (h : finished c m = true) : m.state.moving = false := by
  have hf : m.state.finished = true := (Bool.and_eq_true_iff.mp h).1
  cases hs : m.state <;> simp [hs, MState.finished, MState.code] at hf <;> rfl

/-- After an abort nothing is in progress, whatever error or direction is recorded then (R94). -/
theorem afterAbort_rules (s : State) (d : Dir) (e : ErrorCode) :
    TransferRules { s with master := { afterAbort s.master with dir := d, err := e } } :=
  .of_not_moving (tdieClear_clearTdie s.master) (by cases h : s.master.held <;> simp [afterAbort, h, MState.moving])

theorem beginChannel_rules (f : Nat) (s : State) : TransferRules (beginChannel f s) :=
  .of_not_moving (fun _ => (by decide : mIerBegin.getLsbD 0 = false)) rfl

/-! ### The transfer commands -/

/-- A transfer whose START word alone is queued (R93). -/
structure Started (d : Dir) (s : State) : Prop where
  dir : s.master.dir = d
  clear : TdieClear s.master
  queued : s.master.txq.length ≤ 1
  moving : s.master.state.moving = true

/-- A refused `start` has aborted; a successful one starts a transfer on an engine that was finished, so with `TDIE` clear. -/
theorem start_rules {a : Addr} {d : Dir} {s : State} (h : TransferRules s) {r : Bool × State}
    (hr : start a d s = .next r) : if r.1 then Started d r.2 else TransferRules r.2 := by
  obtain ⟨-, rfl⟩ | ⟨-, -, rfl⟩ | ⟨hf, -, -, rfl⟩ := start_eq_next hr
  · exact afterAbort_rules s s.master.dir _
  · exact afterAbort_rules s d _
  · exact ⟨rfl, h.tdieClear_of_not_moving (moving_of_finished hf), le_rfl, rfl⟩

theorem Started.bbInit {d : Dir} {s : State} (h : Started d s) {p n : Nat} {t : State}
    (ht : bbInit .mBuf p n s = .next t) : Started d t ∧ t.master.buf.len = s.cfg.lenBits n := by
  obtain ⟨-, -, rfl⟩ := bbInit_eq_next.mp ht
  exact ⟨{ h with }, rfl⟩

/-- One word more after the START word. -/
theorem Started.txPush {d : Dir} {s : State} (h : Started d s) (w : BitVec 11) : Ensures TransferRules (txPush w s) := by
  intro t ht
  obtain ⟨-, rfl⟩ := txPush_eq_next.mp ht
  refine ⟨fun he ht => ?_, fun _ _ => ?_⟩
  · exact absurd ((h.clear he).symm.trans ht) Bool.false_ne_true
  · simpa using h.queued

theorem Started.probe {d : Dir} {s : State} (h : Started d s) (p : Nat) : Ensures TransferRules (probe p s) :=
  .andThen fun _ hu => (h.bbInit hu).1.txPush _

/-- A write of length above 0 is the one transfer that sets `TDIE` (R95). -/
theorem Started.armWrite {s : State} (h : Started .write s) (p : Nat) {n : Nat} (hn : s.cfg.lenBits n = n) (stop : Bool) :
    Ensures TransferRules (armWrite p n stop s) := by
  refine .ite (fun _ => h.probe p) fun h0 => .andThen fun u hu => .next ?_
  obtain ⟨k, hl⟩ := h.bbInit hu
  refine ⟨fun _ _ => ⟨k.dir, ?_, k.moving⟩, fun hd _ => ?_⟩
  · show u.master.buf.len ≠ 0
    rwa [hl, hn]
  · exact absurd (k.dir.symm.trans hd) (by decide)

theorem Started.armRead {s : State} (h : Started .read s) (p n : Nat) (stop : Bool) :
    Ensures TransferRules (armRead p n stop s) := by
  refine .ite (fun _ => h.probe p) fun _ => .andThen fun u hu => ?_
  have k : Started .read u := (h.bbInit hu).1
  exact Started.txPush (d := .read) (s := u.mapMaster fun m => { m with sendStop := stop }) { k with } _

theorem execMWriteAsync_rules {s : State} (h : TransferRules s) (a : Addr) (p n : Nat) (stop : Bool) :
    Ensures TransferRules (execMWriteAsync a p n stop s) := by
  refine .ite (fun _ => .fault _) fun _ => .andThen fun r hr => ?_
  have hc : r.2.cfg = s.cfg := (start_envFrame hr).cfg
  have k := start_rules (s := s.withRes none) { h with } hr
  split at k
  · exact .ite (fun _ => k.armWrite p (by rw [hc, Config.lenBits_lenBits]) stop) fun hn => absurd ‹_› hn
  · exact .ite (fun hp => absurd hp ‹_›) fun _ => .next k

theorem execMReadAsync_rules {s : State} (h : TransferRules s) (a : Addr) (p n : Nat) (stop : Bool) :
    Ensures TransferRules (execMReadAsync a p n stop s) := by
  refine .ite (fun _ => .fault _) fun _ => .ite (fun _ => .next { h with }) fun _ => .andThen fun r hr => ?_
  have k := start_rules (s := s.withRes none) { h with } hr
  split at k
  · exact .ite (fun _ => k.armRead p _ stop) fun hn => absurd ‹_› hn
  · exact .ite (fun hp => absurd hp ‹_›) fun _ => .next k

/-! ### The line unit -/

/-- Taking a word only makes the queue shorter (R171). -/
theorem TransferRules.takeWord {s : State} (h : TransferRules s) {w : BitVec 11} {rest : List (BitVec 11)}
    (hq : s.master.txq = w :: rest) : TransferRules (takeWord w rest s) := by
  obtain ⟨stop, busy, held, e⟩ := takeEffect_eq w { s.master with txq := rest }
  rw [Machine.takeWord, State.mapMaster, e]
  refine ⟨h.tdie, fun hd hm => ?_⟩
  have hl := h.queue hd hm
  rw [hq] at hl
  exact Nat.le_of_succ_le hl

/-! ### The master pass -/

/-- The end of a transfer for which `TDIE` is clear. -/
theorem completeTransfer_rules {s : State} (h : TdieClear s.master) : Ensures TransferRules (completeTransfer s) := by
  intro t ht
  obtain ⟨-, rfl⟩ := completeTransfer_eq_next.mp ht
  exact .of_not_moving h (by cases s.master.sendStop <;> rfl)

theorem handleErrors_rules (r : MStatus) (s : State) : Ensures TransferRules (handleErrors r s) := by
  intro t ht
  obtain ⟨-, rfl⟩ := handleErrors_eq_next.mp ht
  split
  · exact beginChannel_rules _ _
  · exact (afterAbort_rules (recordErrors r s) _ _).of_master_eq rfl

/-- The drain loop changes none of the registers the rules speak of (R117). -/
theorem drainRx_rules (q : List Byte) {s : State} (h : TransferRules s) : TransferRules (drainRx q s) := by
  obtain ⟨mem, x, e, heq, -, -⟩ := drainRx_frame q s
  rw [heq]
  exact { h with }

theorem drainRx_tdieClear (q : List Byte) {s : State} (h : TdieClear s.master) : TdieClear (drainRx q s).master := by
  obtain ⟨mem, x, e, heq, -, -⟩ := drainRx_frame q s
  rw [heq]
  exact h

/-- Received data is served during a read, which has no word to queue before its end. -/
theorem handleRda_rules (s : State) (h : TransferRules s) : Ensures TransferRules (handleRda s) := by
  refine .ite (fun hp => ?_) fun _ => .next { h with }
  obtain ⟨⟨hd, hm⟩, -⟩ : (s.master.dir = .read ∧ s.master.state.moving = true) ∧ s.master.buf.configured = true := by
    simpa [readInProgress] using hp
  have hc : TdieClear s.master := h.tdieClear_of_read hd
  have hs : TransferRules ((enterTransferring s).mapMaster fun m => { m with rxq := [] }) :=
    ⟨fun he ht => absurd ((hc he).symm.trans ht) Bool.false_ne_true, fun _ _ => h.queue hd hm⟩
  exact .ite (fun _ => completeTransfer_rules (drainRx_tdieClear _ hc)) fun _ => .next (drainRx_rules _ hs)

/-- Transmit space is served during a write, whose `TDIE` is cleared with its last byte (R118). -/
theorem handleTdr_rules (s : State) (h : TransferRules s) : Ensures TransferRules (handleTdr s) := by
  refine .ite (fun hp => ?_) fun _ => .next h
  obtain ⟨⟨ht, hd⟩, hm⟩ : (mTdie s.master = true ∧ s.master.dir = .write) ∧ s.master.state.moving = true := by
    simpa [writeInProgress] using hp
  refine .andThen fun u hu => ?_
  rw [enterTransferring_moving hm] at hu
  obtain ⟨x, l, rfl, -⟩ := fillTx_frame hu
  refine .ite (fun _ => completeTransfer_rules (tdieClear_clearTdie _)) fun _ =>
    .next ⟨fun he _ => ⟨hd, (h.tdie he ht).2.1, rfl⟩, fun hr _ => ?_⟩
  exact absurd (hd.symm.trans hr) (by decide)

theorem handleStop_rules (s : State) : Ensures TransferRules (handleStop s) :=
  .next (.of_not_moving (tdieClear_clearTdie s.master) rfl)

theorem execMIsr_rules {s : State} (h : TransferRules s) : Ensures TransferRules (execMIsr s) :=
  .ite (fun _ => masterPass_ensures (s := s.withRes none) (fun u _ => handleErrors_rules _ u) handleRda_rules
    handleTdr_rules (fun u _ => handleStop_rules u) { h with }) fun _ => .refused _

/-! ### Every instruction but one and every step keep the rules -/

/-- A cursor that moves on leaves the length of its buffer alone. -/
theorem bbWrite_rules {s : State} (h : TransferRules s) (sel : BufSel) (b : Byte) : TransferRules (bbWrite sel b s).2 := by
  by_cases hn : (s.buf sel).next = (s.buf sel).len
  · rw [bbWrite_full hn]
    exact h
  · rw [bbWrite_room hn]
    cases sel <;> exact { h with }

theorem bbRead_rules {s : State} (h : TransferRules s) {sel : BufSel} {r : Byte × State} (hr : bbRead sel s = .next r) :
    TransferRules r.2 := by
  obtain ⟨-, rfl⟩ := bbRead_eq_next.mp hr
  cases sel <;> exact { h with }

/-- The instructions of the master engine, by their arms; those of the slave engine leave the master engine alone (R10). -/
theorem exec_rules {i : Instr} (hi : ∀ p n, i ≠ .bbInit .mBuf p n) {s : State} (h : TransferRules s) :
    Ensures TransferRules (exec i s) := by
  cases he : i.engine with
  | slave => exact fun t ht => h.of_master_eq (exec_master_eq he ht)
  | master =>
    cases i with
    | mBegin _ => exact .next { beginChannel_rules _ s with }
    | mEnd => exact .next (.of_not_moving (fun he => nomatch (he : false = true)) rfl)
    | mFinished | mGetBytesTransferred | mError | mHasError | mSetPadControl _ | mSetPullups _ | bbHasData _
    | bbNotStartedReading _ | bbNotStartedWriting _ | bbFinishedReading _ | bbFinishedWriting _ | bbConfigured _
    | mRecoveryPulses => exact .next { h with }
    | mWriteAsync a p n stop => exact execMWriteAsync_rules h a p n stop
    | mReadAsync a p n stop => exact execMReadAsync_rules h a p n stop
    | txwTransmit _ | txwReceive _ | txwStop | txwStart _ _ => exact takeThis_ensures (fun _ _ => h.takeWord) _
    | bbInit sel p n =>
      cases sel with
      | mBuf => exact absurd rfl (hi p n)
      | sRxBuf | sTxBuf => cases he
    | bbWrite sel b => exact .next { bbWrite_rules h sel b with }
    | bbRead sel => exact .andThen fun r hr => .next { bbRead_rules h hr with }
    | mIsr => exact execMIsr_rules h
    | luMTake => exact execLuMTake_ensures fun _ _ => h.takeWord
    | luMRx _ => exact .guarded fun _ => { h with }
    | luMFlag f => exact .guarded fun _ => by cases f <;> exact { h with }
    | luMLevel l v => exact .guarded fun _ => by cases l <;> exact { h with }
    | mChannelReset => exact .next { h with queue := fun _ _ => Nat.zero_le _ }
    | _ => cases he

theorem runInput_rules {i : Input} (hi : ∀ c p n, i = .code c → decode c ≠ .ok (.bbInit .mBuf p n)) {s : State}
    (h : TransferRules s) : Ensures TransferRules (runInput i s) := by
  cases i with
  | code c =>
    intro t ht
    obtain ⟨i, hd, he⟩ := runCode_eq_next.mp ht
    exact exec_rules (fun p n e => hi c p n rfl (e ▸ hd)) h t he
  | memRead a => exact .ite (fun _ => .refused _) fun _ => .next { h with }
  | memWrite a b => exact .ite (fun _ => .refused _) fun _ => .next { h with }
  | rst => exact .next (.of_not_moving (fun he => nomatch (he : false = true)) rfl)

theorem serve_rules {s : State} (h : TransferRules s) : Ensures TransferRules (serve s) :=
  .ite (fun _ => execMIsr_rules h) fun _ =>
    .ite (fun _ _ ht => h.of_master_eq (exec_master_eq (i := .sIsr) rfl ht)) fun _ => .next h

/-- Settles O15: whatever a step runs but `BB_INIT` of `m_buf` keeps the two rules, without the other invariants. -/
theorem stepKeepsTransferRules : Obligations.StepKeepsTransferRules := by
  intro s t _ htdie hqueue hi ht
  have h : TransferRules s := ⟨htdie, hqueue⟩
  have k : TransferRules t := by
    cases hp : s.pending with
    | nil =>
      rw [step_of_pending_nil hp] at ht
      exact serve_rules h t ht
    | cons i rest =>
      rw [step_of_pending_cons hp] at ht
      exact runInput_rules (fun c p n e => hi c rest p n (e ▸ hp)) (s := { s with pending := rest }) { h with } t ht
  exact ⟨k.tdie, k.queue⟩

end Sys2Proof.Machine
end

section
/-! PROOFS. Caller memory changes only where a `BB_WRITE` stores, inside the region of the buffer it writes (20_memory.md rule
R42, 40_bytebuffer.md rule R81): the statement O59. -/

namespace Sys2Proof.Machine

/-! ### What stores nothing keeps every property of caller memory -/

/-- Caller memory has the property `Q`: that it is a given memory, or what it holds at an address. -/
def MemHas (Q : Mem → Prop) (s : State) : Prop := Q s.mem

section
variable {Q : Mem → Prop} {s : State} (h : MemHas Q s)
include h

theorem bbInit_memHas (sel : BufSel) (p n : Nat) : Ensures (MemHas Q) (bbInit sel p n s) := by
  intro t ht
  obtain ⟨-, -, rfl⟩ := bbInit_eq_next.mp ht
  rwa [MemHas, State.setBuf_mem]

theorem bbRead_memHas {sel : BufSel} {r : Byte × State} (hr : bbRead sel s = .next r) : MemHas Q r.2 := by
  obtain ⟨-, rfl⟩ := bbRead_eq_next.mp hr
  rwa [MemHas, State.setBuf_mem]

theorem txPush_memHas (w : BitVec 11) : Ensures (MemHas Q) (txPush w s) := by
  intro t ht
  obtain ⟨-, rfl⟩ := txPush_eq_next.mp ht
  exact h

theorem start_memHas {a : Addr} {d : Dir} {r : Bool × State} (hr : start a d s = .next r) : MemHas Q r.2 := by
  obtain ⟨-, rfl⟩ | ⟨-, -, rfl⟩ | ⟨-, -, -, rfl⟩ := start_eq_next hr <;> exact h

theorem probe_memHas (p : Nat) : Ensures (MemHas Q) (probe p s) :=
  .andThen fun u hu => txPush_memHas (bbInit_memHas h _ _ _ u hu) _

theorem armWrite_memHas (p n : Nat) (stop : Bool) : Ensures (MemHas Q) (armWrite p n stop s) :=
  .ite (fun _ => probe_memHas h p) fun _ => .andThen fun u hu => .next (bbInit_memHas h _ _ _ u hu)

theorem armRead_memHas (p n : Nat) (stop : Bool) : Ensures (MemHas Q) (armRead p n stop s) :=
  .ite (fun _ => probe_memHas h p) fun _ => .andThen fun u hu =>
    have k : MemHas Q u := bbInit_memHas h _ _ _ u hu
    txPush_memHas (s := u.mapMaster fun m => { m with sendStop := stop }) k _

theorem execMWriteAsync_memHas (a : Addr) (p n : Nat) (stop : Bool) :
    Ensures (MemHas Q) (execMWriteAsync a p n stop s) :=
  .ite (fun _ => .fault _) fun _ => .andThen fun _ hr =>
    have k := start_memHas (s := s.withRes none) h hr
    .ite (fun _ => armWrite_memHas k _ _ _) fun _ => .next k

theorem execMReadAsync_memHas (a : Addr) (p n : Nat) (stop : Bool) :
    Ensures (MemHas Q) (execMReadAsync a p n stop s) :=
  .ite (fun _ => .fault _) fun _ => .ite (fun _ => .next h) fun _ => .andThen fun _ hr =>
    have k := start_memHas (s := s.withRes none) h hr
    .ite (fun _ => armRead_memHas k _ _ _) fun _ => .next k

theorem execLuSTake_memHas : Ensures (MemHas Q) (execLuSTake s) := by
  unfold execLuSTake
  split
  · exact .slaveStep (.next h)
  · exact .slaveStep (.refused _)

/-- An instruction that cannot store keeps every property of caller memory: by its arm, the arms that act alike together. -/
theorem exec_memHas {i : Instr} (hi : i.mayStore = false) : Ensures (MemHas Q) (exec i s) := by
  cases i with
  | mBegin _ | mEnd | mFinished | mGetBytesTransferred | mError | mHasError | mSetPadControl _ | mSetPullups _ =>
    exact .next h
  | sListen _ | sListen2 _ _ | sListenRange _ _ | sStopListening | sAfterReceive _ | sBeforeTransmit _ | sAfterTransmit _
  | sError | sHasError | sSetPadControl _ | sSetPullups _ => exact .next h
  | bbHasData _ | bbNotStartedReading _ | bbNotStartedWriting _ | bbFinishedReading _ | bbFinishedWriting _
  | bbConfigured _ => exact .next h
  | mChannelReset | mRecoveryPulses | sChannelReset => exact .next h
  | mWriteAsync a p n stop => exact execMWriteAsync_memHas h a p n stop
  | mReadAsync a p n stop => exact execMReadAsync_memHas h a p n stop
  | sSetRxBuffer _ _ | sSetTxBuffer _ _ | bbInit _ _ _ => exact bbInit_memHas (s := s.withRes none) h _ _ _
  | bbRead sel => exact .andThen fun _ hr => .next (bbRead_memHas h hr)
  | txwTransmit _ | txwReceive _ | txwStop | txwStart _ _ => exact takeThis_ensures (fun _ _ _ => h) _
  | luMTake => exact execLuMTake_ensures fun _ _ _ => h
  | luMRx _ | luMFlag _ | luMLevel _ _ => exact .guarded fun _ => h
  | luSAddr _ _ | luSRx _ _ => exact .slaveStep (.guarded fun _ => h)
  | luSTake => exact execLuSTake_memHas h
  | luSRs | luSStop | luSBerr => exact .slaveStep (.next h)
  | bbWrite _ _ | mIsr | sIsr | upAfterReceive | upBeforeTransmit | upAfterTransmit => cases hi

end

/-! ### `BB_WRITE` stores inside the region of its buffer -/

theorem ByteBuffer.Ok.cursor_inRegion {c : Config} {b : ByteBuffer} (h : b.Ok c) (hn : b.next ≠ b.len) :
    inRegion b (b.cursor c) := by
  obtain ⟨hlt, -, hc⟩ := h.room hn
  rw [hc]
  exact ⟨Nat.le_add_right _ _, Nat.add_lt_add_left hlt _⟩

/-- Outside the region of its buffer `BB_WRITE` changes no byte (R42, R81). -/
theorem memRead_bbWrite_outside {sel : BufSel} {s : State} (hok : (s.buf sel).Ok s.cfg) {a : Nat}
    (ha : ¬ inRegion (s.buf sel) a) (b : Byte) : memRead (bbWrite sel b s).2.mem a = memRead s.mem a := by
  by_cases hn : (s.buf sel).next = (s.buf sel).len
  · rw [bbWrite_full hn]
  · have hc : a ≠ (s.buf sel).cursor s.cfg := fun e => ha (e ▸ hok.cursor_inRegion hn)
    rw [bbWrite_room hn, State.setBuf_mem, State.memWrite_mem, memRead_memWrite, if_neg hc]

/-! ### The master pass stores inside the region of `m_buf` -/

/-- `m_buf` is sound, and outside its region caller memory holds `v` at `a`. -/
structure OutsideMBuf (a : Nat) (v : Byte) (s : State) : Prop where
  ok : s.master.buf.Ok s.cfg
  outside : ¬ inRegion s.master.buf a
  byte : memRead s.mem a = v

theorem completeTransfer_memHas {Q : Mem → Prop} {s : State} (h : MemHas Q s) :
    Ensures (MemHas Q) (completeTransfer s) := by
  intro t ht
  obtain ⟨-, rfl⟩ := completeTransfer_eq_next.mp ht
  exact h

/-- Recording errors, the abort and the recovery store nothing and leave `m_buf` alone. -/
theorem handleErrors_outsideMBuf {a : Nat} {v : Byte} (r : MStatus) (s : State) (h : OutsideMBuf a v s) :
    Ensures (OutsideMBuf a v) (handleErrors r s) := by
  intro t ht
  obtain ⟨-, rfl⟩ := handleErrors_eq_next.mp ht
  rw [recordErrors_eq]
  split
  · rw [recover_eq]
    exact { h with }
  · exact { h with }

/-- The drain loop stores between the cursor and the end of `m_buf` (R117). -/
theorem OutsideMBuf.drainRx {a : Nat} {v : Byte} {s : State} (h : OutsideMBuf a v s) (q : List Byte) :
    memRead (drainRx q s).mem a = v := by
  obtain ⟨hok, ha, hv⟩ := h
  obtain ⟨mem, heq, hmem⟩ := drainRx_spec q s hok
  have hcur := hok.cursor
  rw [heq, hmem a, if_neg, hv]
  unfold inRegion at ha
  unfold ByteBuffer.room
  omega

theorem handleRda_outsideMBuf {a : Nat} {v : Byte} {s : State} (h : OutsideMBuf a v s) :
    Ensures (MemHas fun m => memRead m a = v) (handleRda s) := by
  have k : OutsideMBuf a v ((enterTransferring s).mapMaster fun m => { m with rxq := [] }) := { h with }
  exact .ite (fun _ => .ite (fun _ => completeTransfer_memHas (k.drainRx _)) fun _ => .next (k.drainRx _))
    fun _ => .next h.byte

/-- The transmit side of the pass only reads caller memory (R118). -/
theorem handleTdr_memHas {Q : Mem → Prop} (s : State) (h : MemHas Q s) : Ensures (MemHas Q) (handleTdr s) := by
  refine .ite (fun _ => .andThen fun u hu => ?_) fun _ => .next h
  obtain ⟨x, l, rfl, -⟩ := fillTx_frame hu
  exact .ite (fun _ => completeTransfer_memHas h) fun _ => .next h

theorem handleStop_memHas {Q : Mem → Prop} (s : State) (h : MemHas Q s) : Ensures (MemHas Q) (handleStop s) := .next h

/-- Only the drain loop stores, and it finds `m_buf` as the pass found it. -/
theorem execMIsr_outsideMBuf {a : Nat} {v : Byte} {s : State} (h : OutsideMBuf a v s) :
    Ensures (MemHas fun m => memRead m a = v) (execMIsr s) :=
  .ite (fun _ => .andThen fun s1 h1 => .andThen fun s2 h2 => .andThen fun s3 h3 =>
    have k1 : OutsideMBuf a v s1 := Ensures.whenFlag (handleErrors_outsideMBuf _) _ (s := s.withRes none) { h with } s1 h1
    have k2 : MemHas (fun m => memRead m a = v) s2 :=
      Ensures.ite (fun _ => handleRda_outsideMBuf k1) (fun _ => .next k1.byte) s2 h2
    have k3 := Ensures.whenFlag handleTdr_memHas _ k2 s3 h3
    .whenFlag handleStop_memHas _ k3) fun _ => .refused _

/-! ### The slave pass and the upcalls store inside the region of `s_rxbuf`, or where a callback does -/

theorem Ensures.andLive {P : State → Prop} {x : Run State} {f : State → Run State} (hx : Ensures P x)
    (hf : ∀ u, P u → Ensures P (f u)) : Ensures P (andLive x f) := by
  intro t ht
  obtain ⟨u, hu, ⟨-, rfl⟩ | ⟨-, h⟩⟩ := andLive_eq_next.mp ht
  · exact hx u hu
  · exact hf u (hx u hu) t h

/-- No callback to come writes a byte itself, and caller memory holds `v` at `a`. -/
structure QuietByte (a : Nat) (v : Byte) (s : State) : Prop where
  quiet : quietCallbacks s
  byte : memRead s.mem a = v

/-- Callbacks are only used up, so they stay quiet. -/
theorem SlaveFrame.quiet {n k j : Nat} {s t : State} (f : SlaveFrame n k j s t) (h : quietCallbacks s) :
    quietCallbacks t := by
  obtain ⟨l, -, hl⟩ := f.callbacks
  exact fun c hc => h c (hl ▸ List.mem_append_right l hc)

theorem QuietByte.of_frame {a : Nat} {v : Byte} {n k j : Nat} {s t : State} (h : QuietByte a v s)
    (f : SlaveFrame n k j s t) (hm : quietCallbacks s → t.mem = s.mem) : QuietByte a v t :=
  ⟨f.quiet h.quiet, by rw [hm h.quiet]; exact h.byte⟩

/-- The received byte is stored inside the region of `s_rxbuf`, whether or not the cursor is rewound before (R151, R152). -/
theorem memRead_storeOrDiscard_outside {s : State} (hok : s.slave.rxbuf.Ok s.cfg) {a : Nat}
    (ha : ¬ inRegion s.slave.rxbuf a) (b : Byte) : memRead (storeOrDiscard b s).mem a = memRead s.mem a := by
  have k := memRead_bbWrite_outside (sel := .sRxBuf) hok ha b
  unfold storeOrDiscard
  split
  · split
    · dsimp only
      split <;> exact k
    · rfl
  · rfl

theorem memRead_handleRx_outside {s t : State} (hok : s.slave.rxbuf.Ok s.cfg) {a : Nat}
    (ha : ¬ inRegion s.slave.rxbuf a) (h : handleRx s = .next t) : memRead t.mem a = memRead s.mem a := by
  unfold handleRx at h
  split at h
  · injection h with h
    rw [h]
  · rename_i e rest _
    injection h with h
    subst h
    cases hs : entrySof e with
    | false => exact memRead_storeOrDiscard_outside (s := s.mapSlave fun v => { v with rxq := rest }) hok ha _
    | true =>
      exact memRead_storeOrDiscard_outside (s := startFrame true (s.mapSlave fun v => { v with rxq := rest }))
        hok.rewind ha _

theorem whenFlag_handleRx_quietByte {a : Nat} {v : Byte} {s : State} (hok : s.slave.rxbuf.Ok s.cfg)
    (ha : ¬ inRegion s.slave.rxbuf a) (h : QuietByte a v s) (b : Bool) : Ensures (QuietByte a v) (whenFlag b handleRx s) :=
  .ite (fun _ _ ht => ⟨(handleRx_frame ht).quiet h.quiet, (memRead_handleRx_outside hok ha ht).trans h.byte⟩)
    fun _ => .next h

theorem handleEof_quietByte {a : Nat} {v : Byte} (r : SStatus) (s : State) (h : QuietByte a v s) :
    Ensures (QuietByte a v) (handleEof r s) := by
  intro t ht
  obtain ⟨f, -, hm⟩ := handleEof_frame ht
  exact h.of_frame f hm

theorem handleBerr_quietByte {a : Nat} {v : Byte} (s : State) (h : QuietByte a v s) :
    Ensures (QuietByte a v) (handleBerr s) := .next { h with }

theorem handleAm_quietByte {a : Nat} {v : Byte} (s : State) (h : QuietByte a v s) :
    Ensures (QuietByte a v) (handleAm s) := by
  rw [handleAm_eq]
  exact .next { h with }

theorem handleTx_quietByte {a : Nat} {v : Byte} (s : State) (h : QuietByte a v s) :
    Ensures (QuietByte a v) (handleTx s) := by
  intro t ht
  obtain ⟨f, hm⟩ := handleTx_frame ht
  exact h.of_frame f hm

/-- Only the received byte is stored, before the pass makes any upcall that could bind another buffer. -/
theorem slavePass_quietByte {a : Nat} {v : Byte} {r : SStatus} {s : State} (hok : s.slave.rxbuf.Ok s.cfg)
    (ha : ¬ inRegion s.slave.rxbuf a) (h : QuietByte a v s) : Ensures (QuietByte a v) (slavePass r s) :=
  .andThen fun s1 h1 =>
    have k1 := whenFlag_handleRx_quietByte hok ha h _ s1 h1
    .andLive (.whenFlag (handleEof_quietByte r) _ k1) fun _ k2 => .andThen fun s3 h3 =>
      have k3 := Ensures.whenFlag handleBerr_quietByte _ k2 s3 h3
      .andThen fun s4 h4 =>
        have k4 := Ensures.whenFlag handleAm_quietByte _ k3 s4 h4
        .whenFlag handleTx_quietByte _ k4

theorem execSIsr_quietByte {a : Nat} {v : Byte} {s : State} (hok : s.slave.rxbuf.Ok s.cfg)
    (ha : ¬ inRegion s.slave.rxbuf a) (h : QuietByte a v s) : Ensures (QuietByte a v) (execSIsr s) :=
  .slaveStep (.ite (fun _ => slavePass_quietByte (s := s.withRes none) hok ha { h with }) fun _ => .refused _)

/-- An upcall whose callback writes nothing itself changes no byte (R158). -/
theorem upcall_mem {s : State} (h : quietCallbacks s) (w : Nat) (e : OutEvent) :
    Ensures (fun t => t.mem = s.mem) (upcall w e s) := fun _ ht => (upcall_frame ht).2 h

theorem exec_upcall_mem {i : Instr} (hi : i = .upAfterReceive ∨ i = .upBeforeTransmit ∨ i = .upAfterTransmit) {s : State}
    (h : quietCallbacks s) : Ensures (fun t => t.mem = s.mem) (exec i s) := by
  obtain rfl | rfl | rfl := hi <;> exact .slaveStep (upcall_mem (s := s.withRes none) h _ _)

/-! ### Over all instructions -/

/-- Settles O59: the three ways a `BB_WRITE` is made store inside its buffer's region, a quiet upcall stores nothing, and no
other instruction can store. -/
theorem memoryWrittenOnlyInsideBoundRegion : Obligations.MemoryWrittenOnlyInsideBoundRegion := by
  refine ⟨fun s t sel b a hok ht ha => ?_, fun s t a hok ht ha => ?_, fun s t a hok hq ht ha => ?_,
    fun s t i hi hq ht => ?_, fun s t i hi ht => ?_⟩
  · injection ht with ht
    subst ht
    exact memRead_bbWrite_outside hok ha b
  · exact execMIsr_outsideMBuf ⟨hok, ha, rfl⟩ t ht
  · exact (execSIsr_quietByte hok ha ⟨hq, rfl⟩ t ht).byte
  · exact exec_upcall_mem hi hq t ht
  · exact exec_memHas (Q := (· = s.mem)) rfl hi t ht

end Sys2Proof.Machine
end

section
/-! PROOFS. The decoder read backwards, one lemma per kind of word, and its agreement with the encoder (30_encoding.md rules R56,
R57, R62, R70, R71): the statements O3, O4 and O5. -/

namespace Sys2Proof

/-! ### Command headers (R56, R59) -/

theorem ifInstance_eq_ok {w mask pat : Word} {i j : Instr} :
    ifInstance w mask pat j = .ok i ↔ w &&& mask = pat ∧ j = i := by
  unfold ifInstance isInstance
  split <;> simp_all

theorem ifPullup_eq_ok {w pat arg0 : Word} {f : Word → Instr} {i : Instr} :
    ifPullup w pat arg0 f = .ok i ↔ w &&& maskH = pat ∧ pullupArgOk arg0 = true ∧ f arg0 = i := by
  unfold ifPullup isInstance
  split
  · split <;> simp_all
  · simp_all

/-- A field in its place is the word under the field's own mask. -/
theorem extractLsb'_shiftLeft (w : Word) (k n : Nat) :
    (w.extractLsb' k n).setWidth 32 <<< k = w &&& ((BitVec.allOnes n).setWidth 32 <<< k) := by
  ext i hi
  by_cases hk : i < k
  · simp [hk]
  · have hki : k + (i - k) = i := by omega
    simp [hk, hki, hi, Bool.and_comm]

theorem cmdA_placed (w : Word) : (cmdA w).setWidth 32 <<< 8 = w &&& 0x00007F00#32 := extractLsb'_shiftLeft w 8 7

theorem cmdB_placed (w : Word) : (cmdB w).setWidth 32 <<< 16 = w &&& 0x007F0000#32 := extractLsb'_shiftLeft w 16 7

theorem cmdS_placed (w : Word) : (BitVec.ofBool (cmdS w)).setWidth 32 <<< 15 = w &&& 0x00008000#32 := by
  have hbit : BitVec.ofBool (cmdS w) = w.extractLsb' 15 1 := by
    ext i hi
    obtain rfl : i = 0 := by omega
    simp [cmdS]
  rw [hbit]
  exact extractLsb'_shiftLeft w 15 1

/-- A word that matches a row is the row's match and the bits the mask does not compare. -/
theorem eq_or_of_match {w mask pat : Word} (h : w &&& mask = pat) : pat ||| (w &&& ~~~mask) = w := by
  have hmask : mask ||| ~~~mask = BitVec.allOnes 32 := BitVec.or_not_self mask
  rw [← h, ← BitVec.and_or_distrib_left, hmask, BitVec.and_allOnes]

/-! A word that matches a row is the header made of the row's opcode and of the fields its format uses. -/

theorem cmdWord_of_maskH {w : Word} {op : BitVec 8} (h : w &&& maskH = op.setWidth 32) :
    cmdWord op 0#7 false 0#7 = w := by
  simpa [cmdWord, maskH] using eq_or_of_match h

theorem cmdWord_of_maskHA {w : Word} {op : BitVec 8} (h : w &&& maskHA = op.setWidth 32) :
    cmdWord op (cmdA w) false 0#7 = w := by
  simpa [cmdWord, cmdA_placed, maskHA] using eq_or_of_match h

theorem cmdWord_of_maskHAB {w : Word} {op : BitVec 8} (h : w &&& maskHAB = op.setWidth 32) :
    cmdWord op (cmdA w) false (cmdB w) = w := by
  simpa [cmdWord, cmdA_placed, cmdB_placed, BitVec.or_assoc, ← BitVec.and_or_distrib_left, maskHAB] using eq_or_of_match h

theorem cmdWord_of_maskHASPL {w : Word} {op : BitVec 8} (h : w &&& maskHASPL = op.setWidth 32) :
    cmdWord op (cmdA w) (cmdS w) 0#7 = w := by
  simpa [cmdWord, cmdA_placed, cmdS_placed, BitVec.or_assoc, ← BitVec.and_or_distrib_left, maskHASPL]
    using eq_or_of_match h

/-! ### Transmit words (R62) -/

@[simp] theorem txwCmd_append (c : BitVec 3) (d : Byte) : txwCmd (c ++ d) = c := BitVec.extractLsb'_append_eq_left

@[simp] theorem txwData_append (c : BitVec 3) (d : Byte) : txwData (c ++ d) = d := BitVec.extractLsb'_append_eq_right

/-- A transmit word is made of its two fields. -/
theorem txw_fields (w : BitVec 11) : txwCmd w ++ txwData w = w :=
  (BitVec.extractLsb'_append_extractLsb'_eq_extractLsb' rfl).trans BitVec.extractLsb'_eq_self

theorem txwCmd_cases (c : BitVec 3) :
    c = 0#3 ∨ c = 1#3 ∨ c = 2#3 ∨ c = 4#3 ∨ c = 3#3 ∨ c = 5#3 ∨ c = 6#3 ∨ c = 7#3 := by
  decide +revert

theorem decodeTxw_transmit (d : Byte) : decodeTxw (0b000#3 ++ d) = .ok (.txwTransmit d) := by simp [decodeTxw]

theorem decodeTxw_receive (d : Byte) : decodeTxw (0b001#3 ++ d) = .ok (.txwReceive (d.toNat + 1)) := by simp [decodeTxw]

theorem decodeTxw_stop (d : Byte) :
    decodeTxw (0b010#3 ++ d) = if d = 0#8 then .ok .txwStop else .error .reservedTxWord := by simp [decodeTxw]

theorem decodeTxw_start (d : Byte) :
    decodeTxw (0b100#3 ++ d) = .ok (.txwStart (d.extractLsb' 1 7) (dirOfBit (d.getLsbD 0))) := by simp [decodeTxw]

theorem decodeTxw_reserved {c : BitVec 3} (hc : c = 3#3 ∨ c = 5#3 ∨ c = 6#3 ∨ c = 7#3) (d : Byte) :
    decodeTxw (c ++ d) = .error .reservedTxWord := by
  obtain rfl | rfl | rfl | rfl := hc <;> simp [decodeTxw]

/-- A RECEIVE word with data `d` is that of `d + 1` bytes, a legal count. -/
theorem txwReceiveWord_succ (d : Byte) : txwReceiveWord (d.toNat + 1) = 0b001#3 ++ d := by simp [txwReceiveWord]

theorem receiveCountOk_succ (d : Byte) : receiveCountOk (d.toNat + 1) = true := by
  have hd := d.isLt
  simp only [receiveCountOk, Bool.and_eq_true, decide_eq_true_eq]
  omega

theorem txwStartWord_eq_append (a : Addr) (d : Dir) :
    txwStartWord a d = 0b100#3 ++ (a ++ BitVec.ofBool (dirBit d) : Byte) := BitVec.append_assoc

/-- The data byte of a START word is made of its address and its direction bit. -/
theorem startData_fields (d : Byte) : (d.extractLsb' 1 7 ++ BitVec.ofBool (d.getLsbD 0) : Byte) = d := by
  have hbit : d.extractLsb' 0 1 = BitVec.ofBool (d.getLsbD 0) := by
    ext i hi
    obtain rfl : i = 0 := by omega
    simp
  rw [← hbit]
  exact (BitVec.extractLsb'_append_extractLsb'_eq_extractLsb' rfl).trans BitVec.extractLsb'_eq_self

/-- The transmit word that is read is the whole encoded form of the instruction, which is well formed. -/
theorem decodeTxw_eq_ok {w : BitVec 11} {i : Instr} (h : decodeTxw w = .ok i) :
    i.wellFormed = true ∧ encode i = encodeTx w := by
  obtain ⟨c, d, rfl⟩ : ∃ (c : BitVec 3) (d : Byte), c ++ d = w := ⟨_, _, txw_fields w⟩
  obtain rfl | rfl | rfl | rfl | hc := txwCmd_cases c
  · cases (decodeTxw_transmit d).symm.trans h
    exact ⟨rfl, rfl⟩
  · cases (decodeTxw_receive d).symm.trans h
    exact ⟨receiveCountOk_succ d, congrArg encodeTx (txwReceiveWord_succ d)⟩
  · rw [decodeTxw_stop] at h
    split at h
    · next hd =>
      subst hd
      cases h
      exact ⟨rfl, rfl⟩
    · cases h
  · cases (decodeTxw_start d).symm.trans h
    exact ⟨rfl, by rw [encode, txwStartWord_eq_append, dirBit_dirOfBit, startData_fields]⟩
  · cases (decodeTxw_reserved hc d).symm.trans h

/-! ### Operands in words of their own (log 9) -/

theorem map_eq_ok {α : Type} {x : Except DecodeError α} {f : α → Instr} {i : Instr} :
    x.map f = .ok i ↔ ∃ a, x = .ok a ∧ f a = i := by
  cases x <;> simp [Except.map]

theorem twoOperands_eq_ok {α β : Type} {x : Except DecodeError α} {y : Except DecodeError β} {f : α → β → Instr}
    {i : Instr} : twoOperands x y f = .ok i ↔ ∃ a b, x = .ok a ∧ y = .ok b ∧ f a b = i := by
  cases x <;> cases y <;> simp [twoOperands]

/-! ### Micro-operations and events (R70, R71) -/

/-- A word of 6 bits is made of a selector and a micro-operation code. -/
theorem uop_fields {w : Word} (h : w.toNat < 64) : (w.extractLsb' 4 2 ++ w.extractLsb' 0 4).setWidth 32 = w := by
  have hf : w.extractLsb' 4 2 ++ w.extractLsb' 0 4 = w.extractLsb' 0 6 :=
    BitVec.extractLsb'_append_extractLsb'_eq_extractLsb' rfl
  rw [hf]
  apply BitVec.eq_of_toNat_eq
  simp
  omega

theorem selBits_of_decodeSel {b : BitVec 2} {sel : BufSel} (h : decodeSel b.toNat = .ok sel) : selBits sel = b := by
  apply BitVec.eq_of_toNat_eq
  unfold decodeSel at h
  split at h <;> cases h <;> simp_all [selBits]

/-- The branch with an operand that may be out of range is `BB_WRITE`'s; the last branch is the reserved codes'. -/
theorem decodeUopOn_eq_ok {n : Nat} {sel : BufSel} {a0 a1 : Nat} {i : Instr} (h : decodeUopOn n sel a0 a1 = .ok i) :
    i.wellFormed = true ∧ ∃ x y, encode i = encodeUop (BitVec.ofNat 4 n) sel x y := by
  unfold decodeUopOn at h
  split at h
  case h_2 =>
    obtain ⟨b, -, rfl⟩ := map_eq_ok.mp h
    exact ⟨rfl, _, _, rfl⟩
  case h_10 => cases h
  all_goals
    cases h
    exact ⟨rfl, _, _, rfl⟩

/-- The branches with operands that may be out of range are those of `LU_M_RX`, `LU_M_FLAG`, and of `LU_M_LEVEL`, `LU_S_ADDR`,
`LU_S_RX`; the last branch is that of the codes R71 does not list. -/
theorem decodeEv_eq_ok {w : Word} {a0 a1 : Nat} {i : Instr} (h : decodeEv w a0 a1 = .ok i) :
    i.wellFormed = true ∧ ∃ x y, encode i = encodeEv w x y := by
  have hw : BitVec.ofNat 32 w.toNat = w := by simp
  unfold decodeEv at h
  generalize w.toNat = n at h hw
  subst hw
  split at h
  case h_7 | h_8 =>
    obtain ⟨_, -, rfl⟩ := map_eq_ok.mp h
    exact ⟨rfl, _, _, rfl⟩
  case h_9 | h_10 | h_11 =>
    obtain ⟨_, _, -, -, rfl⟩ := twoOperands_eq_ok.mp h
    exact ⟨rfl, _, _, rfl⟩
  case h_19 => cases h
  all_goals
    cases h
    exact ⟨rfl, _, _, rfl⟩

/-! ### What the decoder reads, whatever the kind of word -/

/-- A well-formed instruction whose encoded form is the word `w` of kind `f`. -/
structure ReadFrom (f : Fmt) (w : Word) (i : Instr) : Prop where
  wellFormed : i.wellFormed = true
  fmt : (encode i).fmt = f
  word : (encode i).word = w

/-- What a command header is read as, and that it matches the instruction's row of the opcode map (R57). -/
structure CommandRead (w : Word) (i : Instr) : Prop extends ReadFrom .cmd w i where
  rowFmt : (rowOf i).fmt = .cmd
  rowMatch : w &&& (rowOf i).mask = (rowOf i).pat

/-- The branches that are not of the formats `H0`, `HP` and `HPL` are those of the two transfer commands, of the two pull-up
commands, of `S_LISTEN`, and of the two other listen commands; the last branch is that of the opcodes outside the map. -/
theorem decodeCmd_eq_ok {w : Word} {a0 a1 : Nat} {i : Instr} (h : decodeCmd w a0 a1 = .ok i) : CommandRead w i := by
  unfold decodeCmd at h
  split at h
  case h_3 | h_4 =>
    obtain ⟨hw, rfl⟩ := ifInstance_eq_ok.mp h
    exact ⟨⟨rfl, rfl, cmdWord_of_maskHASPL hw⟩, rfl, hw⟩
  case h_10 | h_23 =>
    obtain ⟨hw, harg, rfl⟩ := ifPullup_eq_ok.mp h
    exact ⟨⟨harg, rfl, cmdWord_of_maskH hw⟩, rfl, hw⟩
  case h_11 =>
    obtain ⟨hw, rfl⟩ := ifInstance_eq_ok.mp h
    exact ⟨⟨rfl, rfl, cmdWord_of_maskHA hw⟩, rfl, hw⟩
  case h_12 | h_13 =>
    obtain ⟨hw, rfl⟩ := ifInstance_eq_ok.mp h
    exact ⟨⟨rfl, rfl, cmdWord_of_maskHAB hw⟩, rfl, hw⟩
  case h_24 => cases h
  all_goals
    obtain ⟨hw, rfl⟩ := ifInstance_eq_ok.mp h
    exact ⟨⟨rfl, rfl, cmdWord_of_maskH hw⟩, rfl, hw⟩

theorem decodeUop_eq_ok {w : Word} {a0 a1 : Nat} {i : Instr} (h : decodeUop w a0 a1 = .ok i) : ReadFrom .uop w i := by
  unfold decodeUop at h
  split at h
  · next hw =>
    split at h
    · next sel hsel =>
      obtain ⟨hwf, x, y, he⟩ := decodeUopOn_eq_ok h
      refine ⟨hwf, by rw [he]; rfl, ?_⟩
      calc (encode i).word = (selBits sel ++ BitVec.ofNat 4 (w.extractLsb' 0 4).toNat).setWidth 32 := by rw [he]; rfl
        _ = (w.extractLsb' 4 2 ++ w.extractLsb' 0 4).setWidth 32 := by
          rw [selBits_of_decodeSel hsel, BitVec.ofNat_toNat, BitVec.setWidth_eq]
        _ = w := uop_fields hw
    · cases h
  · cases h

theorem decode_eq_ok {c : Code} {i : Instr} (h : decode c = .ok i) : ReadFrom c.fmt c.word i := by
  obtain ⟨f, w, a0, a1⟩ := c
  cases f with
  | cmd => exact (decodeCmd_eq_ok h).toReadFrom
  | txw =>
    simp only [decode] at h
    split at h
    · next hw =>
      obtain ⟨hwf, he⟩ := decodeTxw_eq_ok h
      have hword : (w.setWidth 11).setWidth 32 = w := BitVec.eq_of_toNat_eq (by simp; omega)
      exact ⟨hwf, by rw [he]; rfl, by rw [he]; exact hword⟩
    · cases h
  | uop => exact decodeUop_eq_ok h
  | ev =>
    obtain ⟨hwf, x, y, he⟩ := decodeEv_eq_ok h
    exact ⟨hwf, by rw [he]; rfl, by rw [he]; rfl⟩

/-! ### Decoder and encoder agree -/

/-- Settles O3: each word is evaluated. -/
theorem decodeOfSpecWords : Obligations.DecodeOfSpecWords := by
  unfold Obligations.DecodeOfSpecWords
  decide

/-- Settles O4: by the format of the instruction's encoded form, whose fields are read back one by one; an instruction without
operands is a fixed word. -/
theorem decodeEncodeAgree : Obligations.DecodeEncodeAgree := by
  intro i hi
  cases i with
  | mSetPullups v | sSetPullups v =>
    have harg : pullupArgOk v = true := hi
    simp [encode, encodePlain, decode, decodeCmd, ifPullup_eq_ok, cmdWord_maskH, harg]
  | mBegin n | mSetPadControl v | sSetRxBuffer p n | sSetTxBuffer p n | sAfterReceive n | sBeforeTransmit n
  | sAfterTransmit n | sSetPadControl v =>
    simp [encode, encodePlain, decode, decodeCmd, ifInstance_eq_ok, cmdWord_maskH]
  | mWriteAsync a p n s | mReadAsync a p n s =>
    simp [encode, decode, decodeCmd, ifInstance_eq_ok, cmdWord_maskHASPL]
  | sListen a => simp [encode, decode, decodeCmd, ifInstance_eq_ok, cmdWord_maskHA]
  | sListen2 a b | sListenRange a b => simp [encode, decode, decodeCmd, ifInstance_eq_ok, cmdWord_maskHAB]
  | txwTransmit d => exact (decode_encodeTx _).trans (decodeTxw_transmit d)
  | txwReceive n =>
    have hn : 1 ≤ n ∧ n ≤ 256 := by simpa [Instr.wellFormed, receiveCountOk] using hi
    have hdata : (BitVec.ofNat 8 (n - 1)).toNat + 1 = n := by rw [BitVec.toNat_ofNat]; omega
    rw [encode, decode_encodeTx, txwReceiveWord, decodeTxw_receive, hdata]
  | txwStart a d =>
    obtain ⟨ha, hd⟩ := txwData_start a d
    rw [txwStartWord_eq_append, txwData_append] at ha hd
    rw [encode, decode_encodeTx, txwStartWord_eq_append, decodeTxw_start, ha, hd, dirOfBit_dirBit]
  | bbInit sel | bbRead sel | bbHasData sel | bbNotStartedReading sel | bbNotStartedWriting sel | bbFinishedReading sel
  | bbFinishedWriting sel | bbConfigured sel => simp [encode, decodeUopOn]
  | bbWrite sel b => simp [encode, decodeUopOn, map_eq_ok]
  | luMRx x | luMFlag x => simp [encode, encodeEv, decode, decodeEv, map_eq_ok]
  | luMLevel x y | luSAddr x y | luSRx x y => simp [encode, encodeEv, decode, decodeEv, twoOperands_eq_ok]
  | _ => rfl

/-- Settles O5: the decoder read backwards, and O4 for what was read. -/
theorem encodeDecodeAgree : Obligations.EncodeDecodeAgree := by
  intro c i h
  obtain ⟨hwf, hfmt, hword⟩ := decode_eq_ok h
  exact ⟨hwf, hfmt, hword, (decodeEncodeAgree i hwf).trans h.symm⟩

end Sys2Proof
end

section
/-! PROOFS. Which words are accepted, which are refused and by what name, and the numbers of the encodings (30_encoding.md rules
R57, R59, R62, R64 to R67, R70, R71): the statements O6, O8, O9 and O10. -/

namespace Sys2Proof

/-! ### The rows of the opcode map (R57) -/

theorem rowOf_mem_commandRows {i : Instr} (h : (rowOf i).fmt = .cmd) : rowOf i ∈ commandRows := by
  cases i <;> simp_all [rowOf, commandRows]

theorem row_of_decodeCmd {w : Word} {a0 a1 : Nat} {i : Instr} (h : decodeCmd w a0 a1 = .ok i) :
    rowOf i ∈ commandRows ∧ w &&& (rowOf i).mask = (rowOf i).pat :=
  have hread := decodeCmd_eq_ok h
  ⟨rowOf_mem_commandRows hread.rowFmt, hread.rowMatch⟩

/-- Every row of the map compares the opcode. -/
theorem cmdOp_mask_of_mem_commandRows : ∀ r ∈ commandRows, cmdOp r.mask = 0xFF#8 := by decide

/-- The opcode of a word that matches a row is the row's. -/
theorem cmdOp_of_row {r : Row} (hr : r ∈ commandRows) {w : Word} (hw : w &&& r.mask = r.pat) : cmdOp w = cmdOp r.pat := by
  have hmask : BitVec.extractLsb' 0 8 r.mask = BitVec.allOnes 8 := cmdOp_mask_of_mem_commandRows r hr
  unfold cmdOp
  rw [← hw, BitVec.extractLsb'_and, hmask, BitVec.and_allOnes]

/-- A pull-up command's row is matched by one word. -/
theorem eq_pat_of_pullup_row {r : Row} (hr : r ∈ commandRows) (hp : r.pat = 0x19#32 ∨ r.pat = 0x2C#32) {w : Word}
    (hw : w &&& r.mask = r.pat) : w = r.pat := by
  have hmask : ∀ r ∈ commandRows, r.pat = 0x19#32 ∨ r.pat = 0x2C#32 → r.mask = maskH := by decide
  rw [hmask r hr hp] at hw
  exact BitVec.and_allOnes.symm.trans hw

theorem pullupArgOk_ofNat {a : Nat} : pullupArgOk (BitVec.ofNat 32 a) = true ↔ a % 2 ^ 32 < 4 := by simp [pullupArgOk]

/-- A pull-up command is read only with `ARG0[31:2]` zero (R59). -/
theorem pullup_arg_of_decodeCmd {w : Word} (hw : w = 0x19#32 ∨ w = 0x2C#32) {a0 a1 : Nat} {i : Instr}
    (h : decodeCmd w a0 a1 = .ok i) : a0 % 2 ^ 32 < 4 := by
  obtain rfl | rfl := hw
  all_goals
    obtain ⟨-, harg, -⟩ := ifPullup_eq_ok.mp h
    exact pullupArgOk_ofNat.mp harg

/-- Row by row: the word's opcode selects the row's own branch of the decoder. The tenth and the last row
are those of the pull-up commands. -/
theorem decodeCmd_of_row {r : Row} (hr : r ∈ commandRows) {w : Word} (hw : w &&& r.mask = r.pat) {a0 : Nat}
    (hp : r.pat = 0x19#32 ∨ r.pat = 0x2C#32 → a0 % 2 ^ 32 < 4) (a1 : Nat) : ∃ i, decodeCmd w a0 a1 = .ok i := by
  unfold decodeCmd
  rw [cmdOp_of_row hr hw]
  fin_cases hr
  on_goal 23 => exact ⟨_, ifPullup_eq_ok.mpr ⟨hw, pullupArgOk_ofNat.mpr (hp (.inr rfl)), rfl⟩⟩
  on_goal 10 => exact ⟨_, ifPullup_eq_ok.mpr ⟨hw, pullupArgOk_ofNat.mpr (hp (.inl rfl)), rfl⟩⟩
  all_goals exact ⟨_, ifInstance_eq_ok.mpr ⟨hw, rfl⟩⟩

/-- Settles O6: a word that is read matches the row of the instruction read, and a word that matches a row is read; the rows
are compared pair by pair. -/
theorem commandWordIsInstanceOfARow : Obligations.CommandWordIsInstanceOfARow := by
  refine ⟨fun w a0 a1 => ⟨?_, ?_⟩, fun w a0 a1 i h => ?_, by decide⟩
  · rintro ⟨i, h⟩
    obtain ⟨hr, hw⟩ := row_of_decodeCmd h
    exact ⟨_, hr, hw, fun hp => pullup_arg_of_decodeCmd (eq_pat_of_pullup_row hr hp hw ▸ hp) h⟩
  · rintro ⟨r, hr, hw, hp⟩
    exact decodeCmd_of_row hr hw hp a1
  · exact row_of_decodeCmd h

/-! ### Reserved codes (R62, R70, R71) -/

theorem exists_selBits_eq {b : BitVec 2} (h : b ≠ 3#2) : ∃ sel, selBits sel = b := by
  have hb : b = 0#2 ∨ b = 1#2 ∨ b = 2#2 := by decide +revert
  obtain rfl | rfl | rfl := hb
  · exact ⟨.mBuf, rfl⟩
  · exact ⟨.sRxBuf, rfl⟩
  · exact ⟨.sTxBuf, rfl⟩

theorem decodeUopOn_reserved {n : Nat} (h : 9 ≤ n) (sel : BufSel) (a0 a1 : Nat) :
    decodeUopOn n sel a0 a1 = .error .reservedMicroOp := by
  unfold decodeUopOn
  split
  case h_10 => rfl
  all_goals omega

/-- Settles O8: by the fields the reserved word is made of, and for events by the decoder's list of codes. -/
theorem reservedCodesRefused : Obligations.ReservedCodesRefused := by
  refine ⟨fun w hc => ?_, fun w hc hd => ?_, fun u a0 a1 => ?_, fun b u a0 a1 hb hu => ?_, fun w a0 a1 hw => ?_⟩
  · rw [← txw_fields w]
    exact (decode_encodeTx _).trans (decodeTxw_reserved hc _)
  · have hw : 0b010#3 ++ txwData w = w := hc ▸ txw_fields w
    calc decode (encodeTx w) = decodeTxw (0b010#3 ++ txwData w) := by rw [decode_encodeTx, hw]
      _ = .error .reservedTxWord := by rw [decodeTxw_stop, if_neg (show txwData w ≠ 0#8 from hd)]
  · exact decode_uop 3#2 u a0 a1
  · obtain ⟨sel, rfl⟩ := exists_selBits_eq hb
    exact (decode_encodeUop u sel a0 a1).trans (decodeUopOn_reserved hu sel a0 a1)
  · show decodeEv w a0 a1 = _
    unfold decodeEv
    split <;> simp_all

/-! ### The encodings as numbers -/

/-- A START word as an opcode and two shifted fields. -/
theorem txwStartWord_eq_or (a : Addr) (d : Dir) :
    txwStartWord a d = 0x400#11 ||| a.setWidth 11 <<< 1 ||| (BitVec.ofBool (dirBit d)).setWidth 11 := by
  rw [txwStartWord, BitVec.append_def _ (BitVec.ofBool (dirBit d)), BitVec.append_def (0b100#3) a]
  simp [BitVec.shiftLeftZeroExtend_eq, BitVec.shiftLeft_or_distrib]

/-- Settles O9: a word made of appended fields is the disjunction of the shifted fields. -/
theorem transmitWordNumbers : Obligations.TransmitWordNumbers := by
  refine ⟨fun d => ?_, fun n h1 h2 => ?_, rfl, fun a => ?_, fun a => ?_⟩
  · rw [txwTransmitWord, BitVec.append_def (0b000#3) d]
    simp [BitVec.shiftLeftZeroExtend_eq]
  · have hlt : n - 1 < 2 ^ 8 := by omega
    calc (txwReceiveWord n).toNat = 1 <<< 8 ||| (n - 1) := by
          rw [txwReceiveWord, BitVec.toNat_append, BitVec.toNat_ofNat, BitVec.toNat_ofNat, Nat.mod_eq_of_lt hlt]
      _ = 0x100 + (n - 1) := (Nat.shiftLeft_add_eq_or_of_lt hlt 1).symm
  · simp [txwStartWord_eq_or, dirBit]
  · simp [txwStartWord_eq_or, dirBit]

/-- Settles O10: each code is evaluated. -/
theorem registerEncodings : Obligations.RegisterEncodings := by
  unfold Obligations.RegisterEncodings
  decide

end Sys2Proof
end

section
/-! PROOFS. The steps that run no instruction: refused codes, host accesses, the reset input, and the vectors
(30_encoding.md rule R59, 60_exceptions.md rule R205, 70_reset_and_hazards.md rules R230, R241): the statements O2 and O7. -/

namespace Sys2Proof.Machine

/-! ### Refused codes (R59) -/

/-- A code that decodes to nothing is refused, by the decoder's reason. -/
theorem step_of_decode_error {s : State} {c : Code} {rest : List Input} {e : DecodeError} (hp : s.pending = .code c :: rest)
    (h : decode c = .error e) : step s = .refused (.notAccepted e) := by
  rw [step_of_pending_cons hp]
  simp only [runInput, runCode, h]

theorem step_of_not_decoded {s : State} {c : Code} {rest : List Input} (hp : s.pending = .code c :: rest)
    (h : ∀ i, decode c ≠ .ok i) : ∃ e, step s = .refused (.notAccepted e) := by
  cases hd : decode c with
  | ok i => exact absurd hd (h i)
  | error e => exact ⟨e, step_of_decode_error hp hd⟩

/-- The opcodes of the map (R57), as the ranges R59 leaves. -/
theorem cmdOp_pat_of_mem_commandRows : ∀ r ∈ commandRows, 0x10 ≤ (cmdOp r.pat).toNat ∧ (cmdOp r.pat).toNat < 0x2D ∧
    ((cmdOp r.pat).toNat < 0x1A ∨ 0x20 ≤ (cmdOp r.pat).toNat) := by decide

/-- Settles O7: what is read matches a row of the map (O6), so its opcode is in the map. -/
theorem refusedCommandChangesNothing : Obligations.RefusedCommandChangesNothing := by
  refine ⟨fun s rest w a0 a1 hp hop => ?_, fun s rest w a0 a1 hp hrows => ?_, fun s rest w a0 a1 hp hw harg => ?_⟩ <;>
    refine step_of_not_decoded hp fun i h => ?_
  · obtain ⟨hr, hw⟩ := row_of_decodeCmd h
    have heq : w.extractLsb' 0 8 = cmdOp (rowOf i).pat := cmdOp_of_row hr hw
    have hmap := cmdOp_pat_of_mem_commandRows _ hr
    rw [heq] at hop
    omega
  · obtain ⟨hr, hw⟩ := row_of_decodeCmd h
    exact hrows _ hr hw
  · exact absurd (pullup_arg_of_decodeCmd hw h) (Nat.not_lt.mpr harg)

/-! ### Host accesses and the vectors (R205, R241) -/

/-- A host access is executed at the narrowed address, unless a device region is there (log 12, log 15). -/
theorem hostAccess_outcome (a : Nat) (f : Nat → State) (s : State) :
    (s.cfg.onDevice (a % 2 ^ s.cfg.ptrW) 1 = false → hostAccess a f s = .next (f (a % 2 ^ s.cfg.ptrW))) ∧
    (s.cfg.onDevice (a % 2 ^ s.cfg.ptrW) 1 = true → hostAccess a f s = .refused .deviceRegion) :=
  ⟨fun h => hostAccess_eq_next.mpr ⟨h, rfl⟩, fun h => if_pos h⟩

theorem serve_of_mIrq {s : State} (h : mIrq s = true) : serve s = exec .mIsr s := if_pos h

theorem serve_of_not_mIrq {s : State} (h : mIrq s = false) :
    serve s = if sIrq s && !s.slave.hung then exec .sIsr s else .next s := if_neg (by simp [h])

/-- Settles O2: with something chosen the first choice is run, with nothing chosen the vectors are served. -/
theorem stepOnEveryOtherInput : Obligations.StepOnEveryOtherInput := by
  refine ⟨fun s c rest e hp hd => step_of_decode_error hp hd, fun s a x rest hx hp => ?_, fun s a x b rest hx hp => ?_,
    fun s rest hp => step_of_pending_cons hp, fun s hp hm => ?_, fun s hp hm hv hh => ?_, fun s hp hm hv => ?_⟩
  · subst hx
    rw [step_of_pending_cons hp, runInput]
    exact hostAccess_outcome a _ { s with pending := rest }
  · subst hx
    rw [step_of_pending_cons hp, runInput]
    exact hostAccess_outcome a _ { s with pending := rest }
  · rw [step_of_pending_nil hp, serve_of_mIrq hm]
  · rw [step_of_pending_nil hp, serve_of_not_mIrq hm]
    simp [hv, hh]
  · rw [step_of_pending_nil hp, serve_of_not_mIrq hm]
    obtain hv | hv := hv <;> simp [hv]

end Sys2Proof.Machine
end

section
/-! PROOFS. The nine ByteBuffer micro-operations as steps of their own (40_bytebuffer.md rules R80 to R88): the statements O37, O38
and O39. -/

namespace Sys2Proof.Machine

/-! ### Binding and the queries (R80, R83 to R88) -/

/-- A bound region that neither wraps nor reaches into a device region is accepted, whichever buffer it is for. -/
theorem execBbInit_of_fits {s : State} {p n q k : Nat} (hq : q = p % 2 ^ s.cfg.ptrW) (hk : k = n % 2 ^ s.cfg.lenW)
    (hfit : q + k ≤ 2 ^ s.cfg.ptrW) (hdev : s.cfg.onDevice q k = false) (sel : BufSel) :
    execBbInit sel p n s = .next ((s.withRes none).setBuf sel ⟨q, k, 0⟩) := by
  subst hq hk
  exact bbInit_eq_next.mpr ⟨hfit, hdev, rfl⟩

/-- A query that tests a property `P` of its buffer answers 1 or 0 and changes nothing else. -/
theorem query_outcome (s : State) (P : Prop) [Decidable P] :
    (.next (s.withRes (resBit (decide P))) : Run State) = .next { s with res := some (if P then 1 else 0) } := by
  by_cases h : P <;> simp [h, resBit, State.withRes]

/-- `BB_CONFIGURED` tests for a length above 0, the opposite of length 0. -/
theorem execBbConfigured_outcome (sel : BufSel) (s : State) :
    execBbConfigured sel s = .next { s with res := some (if (s.buf sel).len = 0 then 0 else 1) } := by
  refine (query_outcome s (0 < (s.buf sel).len)).trans ?_
  simp only [Nat.pos_iff_ne_zero, ite_not]

/-- Settles O37: the binding is accepted for each buffer, and each query tests its buffer's registers. -/
theorem bufferInitAndQueries : Obligations.BufferInitAndQueries := by
  refine ⟨fun s p n q k hq hk hfit hdev => ?_, fun s sel b hb => ?_⟩
  · have h := execBbInit_of_fits hq hk hfit hdev
    exact ⟨h .mBuf, h .sRxBuf, h .sTxBuf⟩
  · obtain rfl : b = s.buf sel := by obtain ⟨rfl, rfl⟩ | ⟨rfl, rfl⟩ | ⟨rfl, rfl⟩ := hb <;> rfl
    exact ⟨query_outcome s _, query_outcome s _, query_outcome s _, query_outcome s _, query_outcome s _,
      execBbConfigured_outcome sel s⟩

/-! ### Writing and reading (R81, R82) -/

/-- Caller memory holds no buffer, so that the two can be changed in either order. -/
theorem setBuf_memWrite (s : State) (sel : BufSel) (b : ByteBuffer) (a : Nat) (v : Byte) :
    (s.memWrite a v).setBuf sel b = { s.setBuf sel b with mem := memWrite s.mem a v } := by
  cases sel <;> rfl

/-- Past the end of a buffer `BB_READ` is fault U1. -/
theorem bbRead_fault {sel : BufSel} {s : State} (h : (s.buf sel).len ≤ (s.buf sel).next) :
    bbRead sel s = .fault .readPastEnd :=
  if_neg (by simpa [ByteBuffer.hasData] using h)

/-- Settles O38: with room `BB_WRITE` stores at the cursor and moves it on, without room it changes nothing. -/
theorem bufferWrite : Obligations.BufferWrite := by
  refine ⟨fun s sel x hroom => ⟨memWrite s.mem ((s.buf sel).cursor s.cfg) x, ?_, fun a => memRead_memWrite _ _ _ _⟩,
    fun s sel x hfull => ?_⟩ <;>
    show execBbWrite sel x s = _
  · rw [execBbWrite, bbWrite_room hroom, setBuf_memWrite]
    rfl
  · rw [execBbWrite, bbWrite_full hfull]
    rfl

/-- Settles O39: below the length `BB_READ` completes, at the length or past it faults. -/
theorem bufferRead : Obligations.BufferRead := by
  refine ⟨fun s sel hdata => ?_, fun s sel hend => ?_⟩ <;> show execBbRead sel s = _
  · rw [execBbRead, bbRead_eq_next.mpr ⟨hdata, rfl⟩]
    rfl
  · rw [execBbRead, bbRead_fault hend, andThen_fault]

end Sys2Proof.Machine
end

section
/-! PROOFS. A pending master pass completes, and no master pass reads past the end of a buffer (40_bytebuffer.md rule R82,
41_master_commands.md rule R103): the statement O48. -/

namespace Sys2Proof.Machine

/-! ### Operations that complete -/

/-- The operation ends in a next state: it neither faults nor is refused. -/
def Completes (x : Run State) : Prop := ∃ t, x = .next t

theorem Completes.next (s : State) : Completes (.next s) := ⟨s, rfl⟩

theorem Completes.ite {p : Prop} [Decidable p] {x y : Run State} (hx : p → Completes x) (hy : ¬ p → Completes y) :
    Completes (if p then x else y) := by
  split
  · exact hx ‹_›
  · exact hy ‹_›

theorem Completes.andThen {x : Run State} {f : State → Run State} (hx : Completes x)
    (hf : ∀ u, x = .next u → Completes (f u)) : Completes (andThen x f) := by
  obtain ⟨u, rfl⟩ := hx
  exact hf u rfl

theorem Completes.whenFlag {b : Bool} {f : State → Run State} {s : State} (h : Completes (f s)) :
    Completes (whenFlag b f s) := .ite (fun _ => h) fun _ => .next s

/-! ### The handlers of the master pass complete -/

/-- The end of a transfer queues at most its STOP word. -/
theorem completeTransfer_completes {s : State} (h : s.master.txq.length < s.cfg.mTxDepth) :
    Completes (completeTransfer s) := ⟨_, completeTransfer_eq_next.mpr ⟨fun _ => h, rfl⟩⟩

/-- The abort empties the transmit FIFO before it queues its STOP word (R94). -/
theorem handleErrors_completes (r : MStatus) {s : State} (h : 0 < s.cfg.mTxDepth) : Completes (handleErrors r s) :=
  ⟨_, handleErrors_eq_next.mpr ⟨fun _ => h, rfl⟩⟩

/-- A read in progress has at most two words queued when its STOP word is: the third of a FIFO of three. -/
theorem handleRda_completes {s : State} (hq : ReadQueueInv s) (hd : 3 ≤ s.cfg.mTxDepth) : Completes (handleRda s) := by
  refine .ite (fun hp => .ite (fun _ => completeTransfer_completes ?_) fun _ => .next _) fun _ => .next _
  obtain ⟨⟨hdir, hm⟩, -⟩ : (s.master.dir = .read ∧ s.master.state.moving = true) ∧ s.master.buf.configured = true := by
    simpa [readInProgress] using hp
  obtain ⟨mem, x, e, heq, -, -⟩ :=
    drainRx_frame (enterTransferring s).master.rxq ((enterTransferring s).mapMaster fun m => { m with rxq := [] })
  rw [heq]
  exact Nat.lt_of_lt_of_le (Nat.lt_succ_of_le (hq hdir hm)) hd

/-- The fill loop stops where the transmit FIFO is full, and a write queues its STOP word on an empty FIFO (R118). -/
theorem handleTdr_completes {s : State} (h : Inv s) : Completes (handleTdr s) := by
  have hd : 0 < s.cfg.mTxDepth := Nat.lt_of_lt_of_le Nat.zero_lt_two h.two_le_mTxDepth
  have hfill := fillTx_spec (s.cfg.mTxDepth - s.master.txq.length) (enterTransferring s) h.mBuf
    (Nat.add_sub_cancel' h.mTxFits).le
  refine .ite (fun _ => .andThen ⟨_, hfill⟩ fun u hu => .ite (fun hp => completeTransfer_completes ?_) fun _ => .next u)
    fun _ => .next s
  obtain ⟨-, hempty⟩ : u.master.buf.finishedReading = true ∧ u.master.txq = [] := by simpa using hp
  have hcfg : u.cfg = s.cfg := by
    obtain ⟨x, l, rfl, -⟩ := fillTx_frame hu
    rfl
  rwa [State.mapMaster_master, clearTdie_txq, State.mapMaster_cfg, hempty, hcfg]

/-- After the errors are served, or where there are none, no read has more than two words queued. -/
theorem whenFlag_handleErrors_queue {b : Bool} {r : MStatus} {s : State} (hq : ReadQueueInv s) :
    Ensures ReadQueueInv (whenFlag b (handleErrors r) s) :=
  .ite (fun _ t ht => (handleErrors_rules r s t ht).queue) fun _ => .next hq

theorem masterPass_completes (r : MStatus) {s : State} (h : Inv s) (hq : ReadQueueInv s) (hd : 3 ≤ s.cfg.mTxDepth) :
    Completes (masterPass r s) :=
  .andThen (.whenFlag (handleErrors_completes r (Nat.zero_lt_of_lt hd))) fun s1 h1 =>
    have k1 : Inv s1 := Ensures.whenFlag (handleErrors_inv r) _ h s1 h1
    have q1 : ReadQueueInv s1 := whenFlag_handleErrors_queue hq s1 h1
    have d1 : 3 ≤ s1.cfg.mTxDepth := by rwa [(whenFlag_frame handleErrors_frame h1).cfg]
    .andThen (.whenFlag (handleRda_completes q1 d1)) fun s2 h2 =>
      have k2 : Inv s2 := Ensures.whenFlag handleRda_inv _ k1 s2 h2
      .andThen (.whenFlag (handleTdr_completes k2)) fun _ _ => .whenFlag (.next _)

/-! ### The faults of the master pass -/

/-- The one fault the operation can end in is the push into a full transmit FIFO, U4. -/
def FaultsOnlyOnPush {α : Type} (x : Run α) : Prop := ∀ r, x = .fault r → r = .txFifoFull

section
variable {α β : Type}

theorem FaultsOnlyOnPush.next (a : α) : FaultsOnlyOnPush (.next a) := fun _ h => nomatch h

theorem FaultsOnlyOnPush.refused (r : Refusal) : FaultsOnlyOnPush (.refused r : Run α) := fun _ h => nomatch h

theorem FaultsOnlyOnPush.ite {p : Prop} [Decidable p] {x y : Run α} (hx : p → FaultsOnlyOnPush x)
    (hy : ¬ p → FaultsOnlyOnPush y) : FaultsOnlyOnPush (if p then x else y) := by
  split
  · exact hx ‹_›
  · exact hy ‹_›

theorem FaultsOnlyOnPush.andThen {x : Run α} {f : α → Run β} (hx : FaultsOnlyOnPush x)
    (hf : ∀ a, FaultsOnlyOnPush (f a)) : FaultsOnlyOnPush (andThen x f) := by
  intro r h
  obtain h | ⟨a, -, h⟩ := andThen_eq_fault.mp h
  · exact hx r h
  · exact hf a r h

end

theorem FaultsOnlyOnPush.whenFlag {f : State → Run State} (hf : ∀ u, FaultsOnlyOnPush (f u)) (b : Bool) (s : State) :
    FaultsOnlyOnPush (whenFlag b f s) := .ite (fun _ => hf s) fun _ => .next s

theorem txPush_faults (w : BitVec 11) (s : State) : FaultsOnlyOnPush (txPush w s) := by
  refine .ite (fun _ r h => ?_) fun _ => .next _
  injection h with h
  exact h.symm

theorem abort_faults (s : State) : FaultsOnlyOnPush (abort s) :=
  .ite (fun _ => .andThen (txPush_faults _ _) fun _ => .next _) fun _ => .next _

theorem handleErrors_faults (r : MStatus) (s : State) : FaultsOnlyOnPush (handleErrors r s) :=
  .andThen (abort_faults _) fun _ => .next _

theorem completeTransfer_faults (s : State) : FaultsOnlyOnPush (completeTransfer s) :=
  .ite (fun _ => .andThen (txPush_faults _ s) fun _ => .next _) fun _ => .next _

theorem handleRda_faults (s : State) : FaultsOnlyOnPush (handleRda s) :=
  .ite (fun _ => .ite (fun _ => completeTransfer_faults _) fun _ => .next _) fun _ => .next _

/-- The fill loop reads only while the buffer has data, so that no read is past its end (R118). -/
theorem fillTx_faults (k : Nat) (s : State) : FaultsOnlyOnPush (fillTx k s) := by
  induction k generalizing s with
  | zero => exact .next s
  | succ k ih =>
    refine .ite (fun hdata => .andThen ?_ fun r => .andThen (txPush_faults _ r.2) ih) fun _ => .next s
    rw [bbRead_eq_next.mpr ⟨by simpa [ByteBuffer.hasData] using hdata, rfl⟩]
    exact .next _

theorem handleTdr_faults (s : State) : FaultsOnlyOnPush (handleTdr s) :=
  .ite (fun _ => .andThen (fillTx_faults _ _) fun u => .ite (fun _ => completeTransfer_faults _) fun _ => .next u)
    fun _ => .next s

theorem execMIsr_faults (s : State) : FaultsOnlyOnPush (execMIsr s) :=
  .ite (fun _ => .andThen (.whenFlag (handleErrors_faults _) _ _) fun s1 =>
    .andThen (.whenFlag handleRda_faults _ s1) fun s2 => .andThen (.whenFlag handleTdr_faults _ s2) fun s3 =>
      .whenFlag (f := handleStop) (fun _ => .next _) _ s3) fun _ => .refused _

/-- Settles O48: under the invariants every push of the pass has room; without them, the one fault of a pass is a push that has
none. -/
theorem masterPassCompletes : Obligations.MasterPassCompletes := by
  refine ⟨fun s h hq hd hirq => ?_, fun s h => nomatch execMIsr_faults s _ h⟩
  have hpass : exec .mIsr s = masterPass (mStatus s.cfg s.master) (s.withRes none) := if_pos hirq
  rw [hpass]
  exact masterPass_completes _ (h.withRes none) hq hd

end Sys2Proof.Machine
end

section
/-! PROOFS. The transfer commands of the master engine (41_master_commands.md rules R93 to R97) and where a binding stops
(20_memory.md rules R41, R45): the statements O21 to O27. -/

namespace Sys2Proof.Machine

/-! ### Where a binding stops (R41, R45) -/

/-- A region that wraps is refused, whichever buffer it is for. -/
theorem bbInit_of_wraps {s : State} {p n : Nat} (h : 2 ^ s.cfg.ptrW < s.cfg.ptrBits p + s.cfg.lenBits n) (sel : BufSel) :
    bbInit sel p n s = .refused .regionWraps :=
  if_pos (decide_eq_false (Nat.not_le_of_lt h))

/-- A region that does not wrap but reaches into a device region is refused, whichever buffer it is for. -/
theorem bbInit_of_onDevice {s : State} {p n : Nat} (h : s.cfg.ptrBits p + s.cfg.lenBits n ≤ 2 ^ s.cfg.ptrW)
    (hdev : s.cfg.onDevice (s.cfg.ptrBits p) (s.cfg.lenBits n) = true) (sel : BufSel) :
    bbInit sel p n s = .refused .deviceRegion := by
  simp [bbInit, regionFits, h, hdev]

/-- A length narrowed before the binding is not narrowed further. -/
theorem bbInit_lenBits (sel : BufSel) (p n : Nat) (s : State) : bbInit sel p (s.cfg.lenBits n) s = bbInit sel p n s := by
  simp only [bbInit, Config.lenBits_lenBits]

/-- Two regions that share an address, in terms of their ends. -/
theorem max_lt_min_iff_exists_mem (p n b m : Nat) :
    max p b < min (p + n) (b + m) ↔ ∃ a, p ≤ a ∧ a < p + n ∧ b ≤ a ∧ a < b + m :=
  ⟨fun h => ⟨max p b, by omega⟩, fun ⟨a, h⟩ => by omega⟩

/-- A region is over a device when it shares an address with a device region (R45). -/
theorem onDevice_iff (c : Config) (q k : Nat) :
    c.onDevice q k = true ↔ ∃ r ∈ c.devices, ∃ a, q ≤ a ∧ a < q + k ∧ r.base ≤ a ∧ a < r.base + r.size := by
  simp only [Config.onDevice, List.any_eq_true, decide_eq_true_eq, max_lt_min_iff_exists_mem]

/-! ### The two commands as one (R95, R96) -/

/-- `i` asks for a transfer in the direction `d`, of a length that its command accepts. -/
def AsksTransfer (c : Config) (a : Addr) (p n : Nat) (stop : Bool) (d : Dir) (i : Instr) : Prop :=
  (d = .write ∧ i = .mWriteAsync a p n stop) ∨ (d = .read ∧ i = .mReadAsync a p n stop ∧ n % 2 ^ c.lenW ≤ 256)

/-- What a transfer command does after a successful `start`. -/
def armTransfer (d : Dir) (p n : Nat) (stop : Bool) : State → Run State :=
  match d with
  | .write => armWrite p n stop
  | .read => armRead p n stop

/-- The state a successful `start` of a transfer command leaves; the receive FIFO was empty and stays as it was. -/
def startedState (a : Addr) (d : Dir) (s : State) : State :=
  { s with
    master := { clearFlags s.master with dir := d, err := .ok, state := .starting, txq := [txwStartWord a d] },
    res := none }

theorem afterStart_of_rxq_nil {m : Master} (h : m.rxq = []) (a : Addr) (d : Dir) :
    afterStart a d m = { clearFlags m with dir := d, err := .ok, state := .starting, txq := [txwStartWord a d] } := by
  simp [afterStart, clearFlags, h]

section
variable {s : State} {a : Addr} {p n : Nat} {stop : Bool} {d : Dir} {i : Instr}

/-- A command of either direction, without the direction named. -/
theorem exists_asksTransfer {c : Config}
    (h : i = .mWriteAsync a p n stop ∨ (i = .mReadAsync a p n stop ∧ n % 2 ^ c.lenW ≤ 256)) :
    ∃ d, AsksTransfer c a p n stop d i :=
  h.elim (fun h => ⟨.write, .inl ⟨rfl, h⟩⟩) fun h => ⟨.read, .inr ⟨rfl, h⟩⟩

/-- On an enabled channel both commands run `start`, and arm the transfer where it succeeds. -/
theorem exec_transfer (hi : AsksTransfer s.cfg a p n stop d i) (hen : s.master.en = true) :
    exec i s = andThen (start a d (s.withRes none)) fun r =>
      if r.1 then armTransfer d p (s.cfg.lenBits n) stop r.2 else .next r.2 := by
  obtain ⟨rfl, rfl⟩ | ⟨rfl, rfl, hlen⟩ := hi
  · exact if_neg (ne_false_of_eq_true hen)
  · exact (if_neg (ne_false_of_eq_true hen)).trans (if_neg (Nat.not_lt_of_le hlen))

/-- Before `M_BEGIN` both commands fault (U5). -/
theorem exec_transfer_of_not_begun (hen : s.master.en = false) :
    exec (.mWriteAsync a p n stop) s = .fault .notBegun ∧ exec (.mReadAsync a p n stop) s = .fault .notBegun :=
  ⟨if_pos hen, if_pos hen⟩

/-- On a finished engine with empty FIFOs the transfer is armed behind its START word. -/
theorem exec_transfer_of_ready (hi : AsksTransfer s.cfg a p n stop d i) (hen : s.master.en = true)
    (hf : finished s.cfg s.master = true) (ht : s.master.txq = []) (hr : s.master.rxq = []) (hd : 0 < s.cfg.mTxDepth) :
    exec i s = armTransfer d p (s.cfg.lenBits n) stop (startedState a d s) := by
  rw [exec_transfer hi hen, start_ready (s := s.withRes none) hf ht hr hd, State.withRes_master,
    afterStart_of_rxq_nil hr]
  rfl

/-- Where `start` does not succeed, the command ends with the state `start` left. -/
theorem exec_transfer_of_not_started {t : State} (hi : AsksTransfer s.cfg a p n stop d i) (hen : s.master.en = true)
    (h : start a d (s.withRes none) = .next (false, t)) : exec i s = .next t := by
  rw [exec_transfer hi hen, h]
  rfl

/-! ### Arming (R95, R96) -/

/-- A length of 0 makes a probe of a transfer in either direction. -/
theorem armTransfer_zero (d : Dir) (p : Nat) (stop : Bool) (s : State) : armTransfer d p 0 stop s = probe p s := by
  cases d <;> rfl

/-- A binding that is refused refuses the transfer, a probe's too. -/
theorem armTransfer_of_refused {r : Refusal} (h : bbInit .mBuf p n s = .refused r) :
    armTransfer d p n stop s = .refused r := by
  by_cases hn : n = 0
  · subst hn
    rw [armTransfer_zero, probe, h, andThen_refused]
  · cases d <;> simp [armTransfer, armWrite, armRead, hn, h]

/-- A probe binds an empty region, which is never refused, and queues the STOP word. -/
theorem probe_of_room (h : s.master.txq.length < s.cfg.mTxDepth) :
    probe p s = .next { s with
      master := { s.master with buf := ⟨s.cfg.ptrBits p, 0, 0⟩, txq := s.master.txq ++ [txwStopWord] } } := by
  have hbind : bbInit .mBuf p 0 s = .next (s.setBuf .mBuf ⟨s.cfg.ptrBits p, 0, 0⟩) :=
    bbInit_eq_next.mpr ⟨by simpa using (s.cfg.ptrBits_lt p).le, by simp, by simp⟩
  rw [probe, hbind, andThen_next]
  exact txPush_eq_next.mpr ⟨h, rfl⟩

/-- A write that is no probe binds its buffer, keeps `send_stop` and enables the transmit request. -/
theorem armWrite_of_bound {t : State} (hn : n ≠ 0) (h : bbInit .mBuf p n s = .next t) :
    armWrite p n stop s = .next (t.mapMaster fun m => setTdie { m with sendStop := stop }) := by
  rw [armWrite, if_neg hn, h, andThen_next]

/-- A read that is no probe binds its buffer, keeps `send_stop` and queues its RECEIVE word. -/
theorem armRead_of_bound {t : State} (hn : n ≠ 0) (h : bbInit .mBuf p n s = .next t)
    (hroom : t.master.txq.length < t.cfg.mTxDepth) :
    armRead p n stop s = .next { t with
      master := { t.master with sendStop := stop, txq := t.master.txq ++ [txwReceiveWord n] } } := by
  rw [armRead, if_neg hn, h, andThen_next]
  exact txPush_eq_next.mpr ⟨hroom, rfl⟩

end

/-- The binding of a transfer's buffer, its length narrowed before. -/
theorem bbInit_mBuf_of_fits {s : State} {p n : Nat} (hfit : s.cfg.ptrBits p + s.cfg.lenBits n ≤ 2 ^ s.cfg.ptrW)
    (hdev : s.cfg.onDevice (s.cfg.ptrBits p) (s.cfg.lenBits n) = false) :
    bbInit .mBuf p (s.cfg.lenBits n) s = .next { s with
      master := { s.master with buf := ⟨s.cfg.ptrBits p, s.cfg.lenBits n, 0⟩ } } :=
  (bbInit_lenBits .mBuf p n s).trans (bbInit_eq_next.mpr ⟨hfit, hdev, rfl⟩)

/-! ### The transfer commands: the statements -/

/-- Settles O21: the START word is queued, the buffer bound, and the transmit request enabled. -/
theorem writeArms : Obligations.WriteArms := by
  rintro s a p n _ _ stop rfl rfl hen hf ht hr hd hn hfit hdev
  rw [exec_transfer_of_ready (.inl ⟨rfl, rfl⟩) hen hf ht hr hd]
  exact armWrite_of_bound hn (bbInit_mBuf_of_fits (s := startedState a .write s) hfit hdev)

/-- Settles O22: the START and the RECEIVE word are queued, and the buffer is bound. -/
theorem readArms : Obligations.ReadArms := by
  rintro s a p n _ _ stop rfl rfl hen hf ht hr hd hn hlen hfit hdev
  rw [exec_transfer_of_ready (.inr ⟨rfl, rfl, hlen⟩) hen hf ht hr (Nat.zero_lt_of_lt hd)]
  exact armRead_of_bound hn (bbInit_mBuf_of_fits (s := startedState a .read s) hfit hdev) hd

/-- Settles O23: in either direction the narrowed length 0 makes a probe, which has room behind its START word. -/
theorem probeArms : Obligations.ProbeArms := by
  rintro s a p n _ stop rfl hlen hen hf ht hr hd
  have hprobe : ∀ {d : Dir} {i : Instr}, AsksTransfer s.cfg a p n stop d i →
      exec i s = probe p (startedState a d s) := by
    intro d i hi
    rw [exec_transfer_of_ready hi hen hf ht hr (Nat.zero_lt_of_lt hd), show s.cfg.lenBits n = 0 from hlen,
      armTransfer_zero]
  exact ⟨(hprobe (.inl ⟨rfl, rfl⟩)).trans (probe_of_room (s := startedState a .write s) hd),
    (hprobe (.inr ⟨rfl, rfl, by omega⟩)).trans (probe_of_room (s := startedState a .read s) hd)⟩

/-- Settles O25: `start` aborts and records the error, and the command goes no further. -/
theorem busyTransferRejected : Obligations.BusyTransferRejected := by
  intro s a p n stop i hi hen hf hd
  obtain ⟨d, hi⟩ := exists_asksTransfer hi
  exact exec_transfer_of_not_started hi hen (start_busy (s := s.withRes none) hf hd)

/-- Settles O26: `start` takes the new direction, flushes and records the error, and the command goes no further. -/
theorem staleFifoRejected : Obligations.StaleFifoRejected := by
  intro s a p n stop d i hi hen hf hq hd
  exact exec_transfer_of_not_started hi hen (start_stale (s := s.withRes none) hf hq hd)

/-- Settles O24: the length is tested before the engine's state is. -/
theorem oversizedReadRejected : Obligations.OversizedReadRejected := by
  intro s a p n stop hen hlen
  exact (if_neg (ne_false_of_eq_true hen)).trans (if_pos hlen)

/-- Settles O27: both commands fault before `M_BEGIN`; a refused binding refuses the transfer command, or the command that is
nothing but the binding. -/
theorem transferAndBindingStops : Obligations.TransferAndBindingStops := by
  refine ⟨fun s a p n stop hen => exec_transfer_of_not_begun hen, ?_, ?_, onDevice_iff⟩
  · rintro s a p n _ _ stop i rfl rfl hi hen hf ht hr hd
    obtain ⟨d, hi⟩ := exists_asksTransfer hi
    rw [exec_transfer_of_ready hi hen hf ht hr hd]
    have hnarrow := bbInit_lenBits .mBuf p n (startedState a d s)
    exact ⟨fun hwraps => armTransfer_of_refused (hnarrow.trans (bbInit_of_wraps (s := startedState a d s) hwraps .mBuf)),
      fun hfit hdev => armTransfer_of_refused (hnarrow.trans (bbInit_of_onDevice (s := startedState a d s) hfit hdev .mBuf))⟩
  · rintro s p n _ _ sel i rfl rfl hi
    obtain ⟨sel', hbind⟩ : ∃ sel', exec i s = bbInit sel' p n (s.withRes none) := by
      obtain rfl | rfl | rfl := hi
      · exact ⟨.sRxBuf, rfl⟩
      · exact ⟨.sTxBuf, rfl⟩
      · exact ⟨sel, rfl⟩
    rw [hbind]
    exact ⟨fun hwraps => bbInit_of_wraps (s := s.withRes none) hwraps sel',
      fun hfit hdev => bbInit_of_onDevice (s := s.withRes none) hfit hdev sel'⟩

end Sys2Proof.Machine
end

section
/-! PROOFS. The other host commands of the master engine (41_master_commands.md rules R90 to R92, R98 to R102, R106) and the output
events as steps of their own (45_line_unit.md rules R175, R182): the statements O18, O19, O20, O28 and O58. -/

namespace Sys2Proof.Machine

/-! ### Beginning and ending (R90 to R92) -/

/-- Settles O18: by what the body of `M_BEGIN` writes. -/
theorem mBeginArmsTheChannel : Obligations.MBeginArmsTheChannel := by
  rintro s f _ rfl
  show execMBegin f s = _
  rw [execMBegin, beginChannel_eq]
  rfl

/-- Settles O19: each threshold decides one of the two tests. -/
theorem speedClassThresholds : Obligations.SpeedClassThresholds := by
  intro f
  have hstd : 100000 < f → ¬ f ≤ fStandardMax := Nat.not_le_of_lt
  refine ⟨fun h => if_pos h, fun h h' => (if_neg (hstd h)).trans (if_pos h'), fun h => ?_⟩
  exact (if_neg (hstd (by omega))).trans (if_neg (Nat.not_lt_of_le h))

/-- Settles O20: the registers of the second `M_END` are written with what they hold. -/
theorem mEndDisables : Obligations.MEndDisables := by
  refine ⟨fun s => rfl, fun s t h => ?_⟩
  injection h with h
  subst h
  rfl

/-! ### Queries and pads (R98 to R102, R106) -/

/-- The states that are `idle` and beyond (R12, R65). -/
theorem MState.finished_iff (x : MState) : x.finished = true ↔ x = .idle ∨ x = .transferComplete ∨ x = .stopped := by
  cases x <;> decide

/-- `finished()` in both variants (R98). -/
theorem finished_iff (c : Config) (m : Master) :
    finished c m = true ↔
      (m.state = .idle ∨ m.state = .transferComplete ∨ m.state = .stopped) ∧ (c.finishedChecksBusy = true → m.busy = false) := by
  have hbusy : (!c.finishedChecksBusy || !m.busy) = true ↔ (c.finishedChecksBusy = true → m.busy = false) := by
    cases c.finishedChecksBusy <;> simp
  rw [finished, Bool.and_eq_true, MState.finished_iff, hbusy]

/-- `M_HAS_ERROR` tests for an error, the opposite of `ok`. -/
theorem execMHasError_outcome (s : State) :
    execMHasError s = .next { s with res := some (if s.master.err = .ok then 0 else 1) } := by
  by_cases h : s.master.err = .ok <;> simp [execMHasError, resBit, State.withRes, h]

/-- Settles O28: the queries and the knobs each touch one register. -/
theorem masterQueriesAndPads : Obligations.MasterQueriesAndPads :=
  ⟨finished_iff, fun _ => rfl, fun _ => rfl, fun _ => rfl, execMHasError_outcome, fun _ _ => rfl, fun _ _ => rfl⟩

/-! ### Output events (R105, R175, R182) -/

/-- What `channel_reset()` writes (R105). -/
theorem channelReset_eq (s : State) : channelReset s = { s with
    master := { clearFlags (flushMaster s.master) with busy := false, held := false },
    events := s.events ++ [.mChannelReset] } := rfl

/-- Settles O58: the channel reset with its event, and the two events that come alone. -/
theorem outputEvents : Obligations.OutputEvents := by
  refine ⟨fun s => ?_, fun s => rfl, fun s => rfl⟩
  show execMChannelReset s = _
  rw [execMChannelReset, channelReset_eq]
  rfl

end Sys2Proof.Machine
end

section
/-! PROOFS. What a master pass does, group by group (42_master_sequencer.md rules R110 to R119 and R123): the statements O41, O42,
O44, O46 and O47. -/

namespace Sys2Proof.Machine

/-! ### The pass in two parts (R110) -/

/-- Groups 2 to 4 of the pass on the snapshot `r`: the data handlers and the stop handler. -/
def serveDataAndStop (r : MStatus) (s : State) : Run State :=
  andThen (whenFlag r.rda handleRda s) fun s2 => andThen (whenFlag r.tdr handleTdr s2) (whenFlag r.stop handleStop)

theorem masterPass_eq (r : MStatus) (s : State) :
    masterPass r s = andThen (whenFlag r.anyError (handleErrors r) s) (serveDataAndStop r) := rfl

/-- The pass takes its snapshot at entry and leaves no result. -/
theorem exec_mIsr_of_pending {s : State} (h : mIrq s = true) :
    exec .mIsr s = masterPass (mStatus s.cfg s.master) (s.withRes none) := if_pos h

theorem exec_mIsr_eq_next {s t : State} :
    exec .mIsr s = .next t ↔ mIrq s = true ∧ masterPass (mStatus s.cfg s.master) (s.withRes none) = .next t := by
  cases h : mIrq s with
  | true => rw [exec_mIsr_of_pending h, eq_self, true_and]
  | false => simp [exec, execMIsr, h]

/-- The snapshot's error bits are the error flags. -/
@[simp] theorem mStatus_anyError (c : Config) (m : Master) : (mStatus c m).anyError = mErrorFlag m := rfl

theorem exec_mIsr_of_no_error {s : State} (h : mIrq s = true) (he : mErrorFlag s.master = false) :
    exec .mIsr s = serveDataAndStop (mStatus s.cfg s.master) (s.withRes none) := by
  rw [exec_mIsr_of_pending h, masterPass_eq, mStatus_anyError, he, whenFlag_false, andThen_next]

/-! ### When the data handlers serve nothing (R117, R118) -/

theorem MState.moving_iff (x : MState) : x.moving = true ↔ x = .starting ∨ x = .transferring := by
  simp [MState.moving]

theorem readInProgress_iff (m : Master) :
    readInProgress m = true ↔ m.dir = .read ∧ m.state.moving = true ∧ m.buf.len ≠ 0 := by
  simp [readInProgress, ByteBuffer.configured, Nat.pos_iff_ne_zero, and_assoc]

theorem writeInProgress_iff (m : Master) :
    writeInProgress m = true ↔ mTdie m = true ∧ m.dir = .write ∧ m.state.moving = true := by
  simp [writeInProgress, and_assoc]

theorem not_readInProgress_of_not_moving {m : Master} (h : m.state.moving = false) : readInProgress m = false := by
  simp [readInProgress, h]

theorem not_readInProgress_of_write {m : Master} (h : m.dir = .write) : readInProgress m = false := by
  simp [readInProgress, h]

theorem not_writeInProgress_of_not_moving {m : Master} (h : m.state.moving = false) : writeInProgress m = false := by
  simp [writeInProgress, h]

theorem not_writeInProgress_of_read {m : Master} (h : m.dir = .read) : writeInProgress m = false := by
  simp [writeInProgress, h]

/-- Outside a read the receive handler discards what it finds (R117, else branch). -/
theorem whenFlag_handleRda_of_not_read {b : Bool} {s : State} (h : b = true → readInProgress s.master = false) :
    whenFlag b handleRda s =
      .next { s with master := { s.master with rxq := if b then [] else s.master.rxq } } := by
  cases b with
  | false => rfl
  | true => simp [handleRda, h, State.mapMaster]

/-- The transmit handler serves a write in progress only (R118). -/
theorem whenFlag_handleTdr_of_not_write {b : Bool} {s : State} (h : b = true → writeInProgress s.master = false) :
    whenFlag b handleTdr s = .next s := by
  cases b with
  | false => rfl
  | true => simp [handleTdr, h]

/-- What group 4 leaves, with and without the STOP flag in the snapshot (R119). -/
theorem whenFlag_handleStop_eq (b : Bool) (s : State) : whenFlag b handleStop s = .next { s with
    master := { s.master with
      state := if b then .stopped else s.master.state, ier := if b then s.master.ier &&& 0x7E#7 else s.master.ier,
      stopFlag := s.master.stopFlag && !b } } := by
  cases b with
  | false => simp
  | true => simp [handleStop, State.mapMaster, clearTdie]

/-- Group 4 where the snapshot's STOP bit is still the flag. -/
theorem whenFlag_handleStop_of_snapshot {b : Bool} {s : State} (h : s.master.stopFlag = b) :
    whenFlag b handleStop s = .next { s with
      master := { s.master with
        state := if b then .stopped else s.master.state, ier := if b then s.master.ier &&& 0x7E#7 else s.master.ier,
        stopFlag := false } } := by
  rw [whenFlag_handleStop_eq, h, Bool.and_not_self]

/-- Groups 2 to 4 where neither data handler has a transfer to serve. -/
theorem serveDataAndStop_of_idle {r : MStatus} {s : State} (hr : r.rda = true → readInProgress s.master = false)
    (hw : r.tdr = true → writeInProgress s.master = false) : serveDataAndStop r s = .next { s with
      master := { s.master with
        state := if r.stop then .stopped else s.master.state,
        ier := if r.stop then s.master.ier &&& 0x7E#7 else s.master.ier,
        rxq := if r.rda then [] else s.master.rxq, stopFlag := s.master.stopFlag && !r.stop } } := by
  rw [serveDataAndStop, whenFlag_handleRda_of_not_read hr, andThen_next, whenFlag_handleTdr_of_not_write (by exact hw),
    andThen_next, whenFlag_handleStop_eq]

/-- After the errors are served no transfer is in progress, and the other groups find nothing but a STOP flag. -/
theorem serveDataAndStop_of_not_moving {r : MStatus} {s : State} (hm : s.master.state.moving = false)
    (hq : s.master.rxq = []) : serveDataAndStop r s = .next { s with
      master := { s.master with
        state := if r.stop then .stopped else s.master.state,
        ier := if r.stop then s.master.ier &&& 0x7E#7 else s.master.ier,
        stopFlag := s.master.stopFlag && !r.stop } } := by
  rw [serveDataAndStop_of_idle (fun _ => not_readInProgress_of_not_moving hm)
    fun _ => not_writeInProgress_of_not_moving hm, hq, ite_self, ← hq]

/-! ### A pass with an error flag (R111 to R116) -/

theorem mTdie_clearTdie (m : Master) : mTdie (clearTdie m) = false := by
  rw [mTdie, clearTdie_ier, BitVec.getLsbD_and]
  exact Bool.and_false _

theorem and_tdieMask_idem (x : BitVec 7) : x &&& 0x7E#7 &&& 0x7E#7 = x &&& 0x7E#7 := by
  rw [BitVec.and_assoc, BitVec.and_self]

theorem afterAbort_not_moving (m : Master) : (afterAbort m).state.moving = false := by
  cases h : m.held <;> simp [afterAbort, h, MState.moving]

theorem exec_mIsr_of_error {s s1 : State} (h : mIrq s = true) (he : mErrorFlag s.master = true)
    (h1 : handleErrors (mStatus s.cfg s.master) (s.withRes none) = .next s1) :
    exec .mIsr s = serveDataAndStop (mStatus s.cfg s.master) s1 := by
  rw [exec_mIsr_of_pending h, masterPass_eq, mStatus_anyError, he, whenFlag_true, h1, andThen_next]

/-- The precedence of R115 for a snapshot with an error flag: without the other three, the flag is `M_FERR`. -/
theorem recordedError_of_mErrorFlag (c : Config) {m : Master} (h : mErrorFlag m = true) :
    recordedError (mStatus c m) m =
      if m.pltFlag then .pinLowTimeout
      else if m.arbFlag then .arbitrationLost
      else if m.nakFlag then (if m.state = .starting then .addressNak else .dataNak)
      else if m.err = .ok then .masterFifoError else m.err := by
  unfold recordedError mStatus
  by_cases hp : m.pltFlag = true
  · simp [hp]
  · by_cases ha : m.arbFlag = true
    · simp [hp, ha]
    · by_cases hn : m.nakFlag = true
      · simp [hp, ha, hn]
      · have hf : m.ferrFlag = true := by simpa [mErrorFlag, hp, ha, hn] using h
        simp [hp, ha, hn, hf]

/-- Settles O41: the errors are recorded and the transfer aborted, which leaves the other groups only a STOP flag to serve. -/
theorem masterErrorPass : Obligations.MasterErrorPass := by
  intro s hirq he hplt hd
  have h1 := (handleErrors_eq_next (r := mStatus s.cfg s.master) (s := s.withRes none)).mpr ⟨fun _ => hd, rfl⟩
  rw [show ((mStatus s.cfg s.master).plt && (s.withRes none).master.pltc) = false from hplt, if_neg Bool.false_ne_true] at h1
  rw [exec_mIsr_of_error hirq he h1, serveDataAndStop_of_not_moving (afterAbort_not_moving _) rfl, recordErrors_eq,
    State.withRes_master, recordedError_of_mErrorFlag _ he]
  simp [afterAbort, mStatus, and_tdieMask_idem, State.withRes, clearTdie, txwStopWord]

/-- Settles O42: recovery begins the channel afresh, so that again only a STOP flag is left to serve. -/
theorem recoveryPass : Obligations.RecoveryPass := by
  intro s hirq hplt hpltc hd
  have he : mErrorFlag s.master = true := by simp [mErrorFlag, hplt]
  have h1 := (handleErrors_eq_next (r := mStatus s.cfg s.master) (s := s.withRes none)).mpr ⟨fun _ => hd, rfl⟩
  rw [show ((mStatus s.cfg s.master).plt && (s.withRes none).master.pltc) = true by simp [mStatus, hplt, hpltc], if_pos rfl,
    recover_eq] at h1
  rw [exec_mIsr_of_error hirq he h1, serveDataAndStop_of_not_moving rfl rfl, recordErrors_eq,
    State.withRes_master, recordedError_of_mErrorFlag _ he, hplt]
  cases hs : s.master.stopFlag <;>
    simp [afterAbort, mStatus, hs, mIerBegin, State.withRes, clearTdie, clearFlags, flushMaster]

/-! ### Passes that serve no transfer (R117, R119) -/

/-- A pass without an error flag and without a transfer to serve: it empties the receive FIFO on receive data, and serves a STOP
flag. -/
theorem exec_mIsr_of_idle {s : State} (h : mIrq s = true) (he : mErrorFlag s.master = false)
    (hr : s.cfg.mRxWatermark < s.master.rxq.length → readInProgress s.master = false)
    (hw : s.master.ier.getLsbD 0 = false ∨ s.cfg.mTxWatermark < s.master.txq.length) : exec .mIsr s = .next { s with
      master := { s.master with
        state := if s.master.stopFlag then .stopped else s.master.state,
        ier := if s.master.stopFlag then s.master.ier &&& 0x7E#7 else s.master.ier,
        rxq := if s.cfg.mRxWatermark < s.master.rxq.length then [] else s.master.rxq, stopFlag := false },
      res := none } := by
  have htdr : s.master.txq.length ≤ s.cfg.mTxWatermark → writeInProgress s.master = false := by
    intro hq
    have hi : s.master.ier.getLsbD 0 = false := hw.resolve_right (Nat.not_lt_of_le hq)
    rw [writeInProgress, mTdie, hi, Bool.false_and, Bool.false_and]
  rw [exec_mIsr_of_no_error h he,
    serveDataAndStop_of_idle (r := mStatus s.cfg s.master) (s := s.withRes none) (fun k => hr (of_decide_eq_true k))
      (fun k => htdr (of_decide_eq_true k))]
  cases hs : s.master.stopFlag <;> simp [mStatus, mRda, State.withRes, hs]

/-- Settles O44: what was received belongs to no read in progress. -/
theorem unexpectedDataDiscarded : Obligations.UnexpectedDataDiscarded := by
  intro s hirq he hrda hread htdr
  have hr : readInProgress s.master = false := by
    rw [← Bool.not_eq_true, readInProgress_iff, MState.moving_iff]
    rintro ⟨hd, hm, hl⟩
    obtain hdir | ⟨hs, ht⟩ | hlen := hread
    · exact absurd (hd.symm.trans hdir) (by decide)
    · exact hm.elim hs ht
    · exact hl hlen
  rw [exec_mIsr_of_idle hirq he (fun _ => hr) htdr, if_pos hrda]

/-- Settles O46: the stop handler runs last; with no other flag to serve it is all that runs. -/
theorem stopForcesStopped : Obligations.StopForcesStopped := by
  refine ⟨fun s t hstop h => ?_, fun s hirq hstop he hrda htdr => ?_⟩
  · obtain ⟨-, h⟩ := exec_mIsr_eq_next.mp h
    obtain ⟨s1, -, h⟩ := andThen_eq_next.mp h
    obtain ⟨s2, -, h⟩ := andThen_eq_next.mp h
    obtain ⟨s3, -, h⟩ := andThen_eq_next.mp h
    rw [show (mStatus s.cfg s.master).stop = true from hstop, whenFlag_true] at h
    obtain rfl := Host.Outcome.next.inj h
    exact ⟨rfl, rfl, mTdie_clearTdie s3.master⟩
  · have hn : ¬ s.cfg.mRxWatermark < s.master.rxq.length := Nat.not_lt_of_le hrda
    rw [exec_mIsr_of_idle hirq he (fun k => absurd k hn) htdr, if_neg hn, hstop, if_pos rfl, if_pos rfl]

/-- Settles O47: by the frame of the pass; the speed class of a recovery is that of the stored frequency. -/
theorem masterPassNever : Obligations.MasterPassNever := by
  intro s t h
  obtain ⟨-, h⟩ := exec_mIsr_eq_next.mp h
  have f : MasterFrame (s.withRes none) t := masterPass_frame h
  exact ⟨f.err, f.dir, f.sendStop, f.ptr, f.len, f.freq, f.cls, fun hc => f.cls.elim id fun k => k.trans hc.symm, f.slave⟩

end Sys2Proof.Machine
end

section
/-! PROOFS. The passes that serve a transfer: receive data of a read and transmit space of a write (42_master_sequencer.md rules
R117 and R118): the statements O43 and O45. -/

namespace Sys2Proof.Machine

/-! ### The receive handler of a read in progress (R117) -/

/-- The cursor reaches the end of a sound buffer exactly when as many bytes came as there was room for. -/
theorem ByteBuffer.Ok.filled_iff {c : Config} {b : ByteBuffer} (h : b.Ok c) (n : Nat) :
    b.next + min n b.room = b.len ↔ b.room ≤ n := by
  have hc : b.next ≤ b.len := h.cursor
  unfold ByteBuffer.room
  omega

/-- The end of a transfer where its STOP word, if one is asked for, finds room. -/
theorem completeTransfer_of_room {s : State} (h : s.master.txq.length < s.cfg.mTxDepth) :
    completeTransfer s = .next { s with
      master := { s.master with
        state := if s.master.sendStop then .stopping else .transferComplete,
        txq := if s.master.sendStop then s.master.txq ++ [txwStopWord] else s.master.txq } } :=
  completeTransfer_eq_next.mpr ⟨fun _ => h, rfl⟩

/-- The receive handler drains the FIFO into the buffer and, when the buffer is full, ends the transfer. -/
theorem handleRda_of_read {s : State} (hr : readInProgress s.master = true) (hok : s.master.buf.Ok s.cfg)
    (hroom : s.master.txq.length < s.cfg.mTxDepth) : ∃ mem : Mem, handleRda s = .next { s with
      mem := mem,
      master := { s.master with
        state := if s.master.buf.room ≤ s.master.rxq.length then
            (if s.master.sendStop then .stopping else .transferComplete)
          else .transferring,
        err := if s.master.buf.room < s.master.rxq.length then .bufferOverflow else s.master.err,
        buf := { s.master.buf with next := s.master.buf.next + min s.master.rxq.length s.master.buf.room },
        txq := if s.master.buf.room ≤ s.master.rxq.length ∧ s.master.sendStop = true then s.master.txq ++ [txwStopWord]
          else s.master.txq,
        rxq := [] } } ∧
      ∀ a : Nat, memRead mem a =
        if s.master.buf.ptr + s.master.buf.next ≤ a ∧
            a < s.master.buf.ptr + s.master.buf.next + min s.master.rxq.length s.master.buf.room then
          s.master.rxq.getD (a - (s.master.buf.ptr + s.master.buf.next)) 0#8
        else memRead s.mem a := by
  obtain ⟨-, hm, -⟩ := (readInProgress_iff _).mp hr
  obtain ⟨mem, hdrain, hmem⟩ :=
    drainRx_spec s.master.rxq { s with master := { s.master with state := .transferring, rxq := [] } } hok
  refine ⟨mem, ?_, hmem⟩
  rw [handleRda, if_pos hr, enterTransferring_moving hm]
  simp only [State.mapMaster, hdrain, ByteBuffer.finishedWriting, beq_iff_eq, hok.filled_iff]
  by_cases hfull : s.master.buf.room ≤ s.master.rxq.length
  · rw [if_pos hfull, completeTransfer_of_room (by exact hroom)]
    simp [hfull]
  · simp [hfull]

/-- Settles O43: a read leaves the transmit handler nothing to serve. -/
theorem masterReceivePass : Obligations.MasterReceivePass := by
  intro s hirq he hrda hdir hstate hlen hok hroom
  have hr : readInProgress s.master = true := (readInProgress_iff _).mpr ⟨hdir, (MState.moving_iff _).mpr hstate, hlen⟩
  obtain ⟨mem, h, hmem⟩ := handleRda_of_read (s := s.withRes none) hr hok hroom
  refine ⟨mem, ?_, hmem⟩
  have hr1 : (mStatus s.cfg s.master).rda = true := decide_eq_true hrda
  rw [exec_mIsr_of_no_error hirq he, serveDataAndStop, hr1, whenFlag_true, h, andThen_next,
    whenFlag_handleTdr_of_not_write (by exact fun _ => not_writeInProgress_of_read hdir), andThen_next,
    whenFlag_handleStop_of_snapshot (by exact rfl)]
  rfl

/-! ### The transmit handler of a write in progress (R118) -/

theorem length_transmitWords (m : Mem) (a k : Nat) : (transmitWords m a k).length = k := by
  rw [transmitWords, List.length_map, List.length_range]

theorem ByteBuffer.room_of_end {b : ByteBuffer} (h : b.next = b.len) : b.room = 0 := by
  rw [ByteBuffer.room, h, Nat.sub_self]

/-- With a byte left to send or a word still queued, a filled FIFO is not empty. -/
theorem filled_txq_ne_nil {c : Config} {b : ByteBuffer} {l : List (BitVec 11)} (hok : b.Ok c) (hd : 0 < c.mTxDepth)
    (hn : b.next ≠ b.len ∨ l ≠ []) (m : Mem) (a : Nat) :
    l ++ transmitWords m a (min (c.mTxDepth - l.length) b.room) ≠ [] := by
  rw [Ne, List.append_eq_nil_iff]
  rintro ⟨rfl, hwords⟩
  have hmin : min (c.mTxDepth - 0) b.room = 0 := by
    rw [← length_transmitWords m a (min _ _), ← List.length_nil, hwords]
  have hc : b.next ≤ b.len := hok.cursor
  rw [ByteBuffer.room] at hmin
  exact hn.elim (fun h => h (by omega)) fun h => h rfl

/-- With a byte left to send or a word still queued, the transmit handler fills the FIFO and the transfer goes on. -/
theorem handleTdr_of_unfinished {s : State} (hw : writeInProgress s.master = true) (hok : s.master.buf.Ok s.cfg)
    (hq : s.master.txq.length ≤ s.cfg.mTxDepth) (hd : 0 < s.cfg.mTxDepth)
    (hn : s.master.buf.next ≠ s.master.buf.len ∨ s.master.txq ≠ []) : handleTdr s = .next { s with
      master := { s.master with
        state := .transferring,
        buf := { s.master.buf with
          next := s.master.buf.next + min (s.cfg.mTxDepth - s.master.txq.length) s.master.buf.room },
        txq := s.master.txq ++ transmitWords s.mem (s.master.buf.ptr + s.master.buf.next)
          (min (s.cfg.mTxDepth - s.master.txq.length) s.master.buf.room) } } := by
  obtain ⟨-, -, hm⟩ := (writeInProgress_iff _).mp hw
  have hfill := fillTx_spec (s.cfg.mTxDepth - s.master.txq.length)
    { s with master := { s.master with state := .transferring } } hok (Nat.add_sub_cancel' hq).le
  rw [handleTdr, if_pos hw, enterTransferring_moving hm]
  dsimp only at hfill ⊢
  rw [hfill, andThen_next, if_neg]
  rw [Bool.and_eq_true, List.isEmpty_iff]
  exact fun h => filled_txq_ne_nil hok hd hn _ _ h.2

/-- With the buffer exhausted and the FIFO empty, the transmit handler ends the transfer. -/
theorem handleTdr_of_exhausted {s : State} (hw : writeInProgress s.master = true) (hok : s.master.buf.Ok s.cfg)
    (hd : 0 < s.cfg.mTxDepth) (hn : s.master.buf.next = s.master.buf.len) (ht : s.master.txq = []) :
    handleTdr s = .next { s with
      master := { s.master with
        state := if s.master.sendStop then .stopping else .transferComplete, ier := s.master.ier &&& 0x7E#7,
        txq := if s.master.sendStop then [txwStopWord] else [] } } := by
  obtain ⟨-, -, hm⟩ := (writeInProgress_iff _).mp hw
  have hfill := fillTx_spec (s.cfg.mTxDepth - s.master.txq.length)
    { s with master := { s.master with state := .transferring } } hok (by simp [ht])
  rw [handleTdr, if_pos hw, enterTransferring_moving hm]
  simp only [ByteBuffer.room_of_end hn, Nat.min_zero, transmitWords, List.range_zero, List.map_nil, List.append_nil,
    Nat.add_zero] at hfill
  dsimp only
  rw [hfill, andThen_next, if_pos (by simp [ByteBuffer.finishedReading, hn, ht]),
    completeTransfer_of_room (by simpa [ht] using hd)]
  simp [State.mapMaster, clearTdie, ht]

/-- The pass of a write: receive data is discarded, and a STOP flag is served after the transmit request. -/
theorem exec_mIsr_of_transmit_request {s s3 : State} (h : mIrq s = true) (he : mErrorFlag s.master = false)
    (hdir : s.master.dir = .write) (htdr : s.master.txq.length ≤ s.cfg.mTxWatermark)
    (h3 : handleTdr { s with
      master := { s.master with rxq := if s.cfg.mRxWatermark < s.master.rxq.length then [] else s.master.rxq },
      res := none } = .next s3) : exec .mIsr s = whenFlag s.master.stopFlag handleStop s3 := by
  have hr1 : (mStatus s.cfg s.master).tdr = true := decide_eq_true htdr
  rw [exec_mIsr_of_no_error h he, serveDataAndStop,
    whenFlag_handleRda_of_not_read (by exact fun _ => not_readInProgress_of_write hdir), hr1, andThen_next, whenFlag_true]
  simp only [mStatus, mRda, decide_eq_true_eq]
  exact congrArg (andThen · _) h3

/-- Settles O45: unfinished in the first two cases, exhausted in the third. -/
theorem masterTransmitPass : Obligations.MasterTransmitPass := by
  intro s q hirq he htdie htdr hdir hstate hok hroom hq
  have hw : writeInProgress s.master = true := (writeInProgress_iff _).mpr ⟨htdie, hdir, (MState.moving_iff _).mpr hstate⟩
  have hd : 0 < s.cfg.mTxDepth := Nat.zero_lt_of_lt hroom
  subst hq
  refine ⟨fun hn => ?_, fun hn ht => ?_, fun hn ht => ?_⟩
  · rw [exec_mIsr_of_transmit_request hirq he hdir htdr (handleTdr_of_unfinished hw hok hroom.le hd (.inl hn)),
      whenFlag_handleStop_of_snapshot (by exact rfl)]
  · rw [exec_mIsr_of_transmit_request hirq he hdir htdr (handleTdr_of_unfinished hw hok hroom.le hd (.inr ht)),
      whenFlag_handleStop_of_snapshot (by exact rfl)]
    simp [ByteBuffer.room_of_end hn, transmitWords]
  · rw [exec_mIsr_of_transmit_request hirq he hdir htdr (handleTdr_of_exhausted hw hok hd hn ht),
      whenFlag_handleStop_of_snapshot (by exact rfl)]
    cases hs : s.master.stopFlag <;> simp [and_tdieMask_idem, txwStopWord]

end Sys2Proof.Machine
end

section
/-! PROOFS. After one master pass the master vector is not pending, with a transmit watermark of 0 (42_master_sequencer.md rule
R122; 60_exceptions.md rule R203): the statement O49. -/

namespace Sys2Proof.Machine

/-! ### When the master vector is pending (R203) -/

theorem and_ne_zero_iff {w : Nat} (x y : BitVec w) :
    x &&& y ≠ 0#w ↔ ∃ i < w, y.getLsbD i = true ∧ x.getLsbD i = true := by
  constructor
  · intro h
    by_contra hn
    push Not at hn
    refine h (BitVec.eq_of_getLsbD_eq fun i hi => ?_)
    rw [BitVec.getLsbD_and, BitVec.getLsbD_zero, Bool.and_eq_false_iff, ← Bool.not_eq_true, ← Bool.not_eq_true]
    by_cases hy : y.getLsbD i = true
    · exact .inl (hn i hi hy)
    · exact .inr hy
  · rintro ⟨i, -, hy, hx⟩ h
    have hb : (x &&& y).getLsbD i = false := by rw [h, BitVec.getLsbD_zero]
    rw [BitVec.getLsbD_and, hx, hy] at hb
    exact absurd hb (by decide)

/-- The bits of the status word that can be enabled, lowest first (R66). -/
theorem MStatus.word_bits (r : MStatus) :
    (List.range 7).map (r.word.extractLsb' 0 7).getLsbD = [r.tdr, r.rda, r.stop, r.nak, r.arb, r.ferr, r.plt] := by
  simp only [List.range, List.range.loop, List.map_cons, List.map_nil, MStatus.word, BitVec.getLsbD_extractLsb',
    BitVec.getLsbD_append]
  simp

/-- The master vector, source by source (R203). -/
theorem mIrq_iff (s : State) : mIrq s = true ↔ s.master.irqEn = true ∧
    ((s.master.ier.getLsbD 0 = true ∧ s.master.txq.length ≤ s.cfg.mTxWatermark) ∨
      (s.master.ier.getLsbD 1 = true ∧ s.cfg.mRxWatermark < s.master.rxq.length) ∨
      (s.master.ier.getLsbD 2 = true ∧ s.master.stopFlag = true) ∨
      (s.master.ier.getLsbD 3 = true ∧ s.master.nakFlag = true) ∨
      (s.master.ier.getLsbD 4 = true ∧ s.master.arbFlag = true) ∨
      (s.master.ier.getLsbD 5 = true ∧ s.master.ferrFlag = true) ∨
      (s.master.ier.getLsbD 6 = true ∧ s.master.pltFlag = true)) := by
  have hb := (mStatus s.cfg s.master).word_bits
  simp only [List.range, List.range.loop, List.map_cons, List.map_nil, List.cons.injEq, and_true] at hb
  obtain ⟨h0, h1, h2, h3, h4, h5, h6⟩ := hb
  rw [mIrq, Bool.and_eq_true, bne_iff_ne, and_ne_zero_iff]
  simp only [Nat.exists_lt_succ_left, Nat.not_lt_zero, false_and, exists_false, or_false, Nat.reduceAdd, h0, h1, h2, h3, h4,
    h5, h6]
  simp only [mStatus, mTdr, mRda, decide_eq_true_eq]

/-- A channel begins with `TDIE` clear (R90). -/
theorem mIerBegin_tdie : mIerBegin.getLsbD 0 = false := by decide

/-! ### What is left to serve -/

/-- An enabled transmit interrupt that asks for a pass (R18, R22). -/
def TransmitRequest (s : State) : Prop :=
  s.master.en = true ∧ mTdie s.master = true ∧ s.master.txq.length ≤ s.cfg.mTxWatermark

theorem not_transmitRequest_of_tdie_clear {s : State} (h : mTdie s.master = false) : ¬ TransmitRequest s :=
  fun k => Bool.false_ne_true (h.symm.trans k.2.1)

/-- The sources of the master vector that may still ask for a pass: only those of the four groups of R110 that are marked. -/
structure PendsOnly (error rda tdr stop : Bool) (s : State) : Prop where
  error : mErrorFlag s.master = true → error = true
  rda : s.cfg.mRxWatermark < s.master.rxq.length → rda = true
  tdr : TransmitRequest s → tdr = true
  stop : s.master.stopFlag = true → stop = true

/-- At entry, only what the snapshot shows. -/
theorem pendsOnly_snapshot (s : State) :
    PendsOnly (mErrorFlag s.master) (mStatus s.cfg s.master).rda (mStatus s.cfg s.master).tdr s.master.stopFlag s :=
  ⟨id, decide_eq_true, fun h => decide_eq_true h.2.2, id⟩

/-- With nothing left to serve the vector is not pending. -/
theorem PendsOnly.mIrq_eq_false {s : State} (h : PendsOnly false false false false s) (hen : s.master.irqEn = s.master.en) :
    mIrq s = false := by
  have herr : mErrorFlag s.master = false := Bool.eq_false_iff.mpr fun k => Bool.false_ne_true (h.error k)
  simp only [mErrorFlag, Bool.or_eq_false_iff] at herr
  obtain ⟨⟨⟨hnak, harb⟩, hferr⟩, hplt⟩ := herr
  rw [← Bool.not_eq_true, mIrq_iff, hnak, harb, hferr, hplt, hen]
  rintro ⟨he, ⟨hi, hq⟩ | ⟨-, hq⟩ | ⟨-, hs⟩ | ⟨-, k⟩ | ⟨-, k⟩ | ⟨-, k⟩ | ⟨-, k⟩⟩
  · exact Bool.false_ne_true (h.tdr ⟨he, hi, hq⟩)
  · exact Bool.false_ne_true (h.rda hq)
  · exact Bool.false_ne_true (h.stop hs)
  all_goals exact Bool.false_ne_true k

section
variable {error rda tdr stop : Bool} {s t : State}

/-! ### Each group serves its sources (R111 to R119) -/

/-- Group 1 clears the error flags of its snapshot, and its abort empties both FIFOs and clears `TDIE`. -/
theorem PendsOnly.handleErrors (h : PendsOnly (mErrorFlag s.master) rda tdr stop s)
    (ht : whenFlag (mErrorFlag s.master) (handleErrors (mStatus s.cfg s.master)) s = .next t) :
    PendsOnly false rda tdr stop t := by
  obtain ⟨-, ht⟩ | ⟨he, rfl⟩ := whenFlag_eq_next.mp ht
  · obtain ⟨-, rfl⟩ := handleErrors_eq_next.mp ht
    rw [recordErrors_eq]
    by_cases hrec : ((mStatus s.cfg s.master).plt && s.master.pltc) = true
    · rw [if_pos hrec, recover_eq]
      exact ⟨nofun, fun k => absurd k (Nat.not_lt_zero _),
        fun k => absurd k (not_transmitRequest_of_tdie_clear mIerBegin_tdie), nofun⟩
    · rw [if_neg hrec]
      exact ⟨by simp [mErrorFlag, afterAbort, mStatus], fun k => absurd k (Nat.not_lt_zero _),
        fun k => absurd k (not_transmitRequest_of_tdie_clear (mTdie_clearTdie _)), h.stop⟩
  · rw [he] at h
    exact h

/-- The receive handler empties its FIFO, takes no transmit word, and changes neither a flag nor an enable. -/
theorem handleRda_result (h : handleRda s = .next t) :
    ∃ (mem : Mem) (st : MState) (e : ErrorCode) (b : ByteBuffer) (q : List (BitVec 11)), t = { s with
      mem := mem, master := { s.master with state := st, err := e, buf := b, txq := q, rxq := [] } } ∧
      s.master.txq.length ≤ q.length := by
  unfold handleRda at h
  split at h
  · obtain ⟨mem, x, e, heq, -, -⟩ :=
      drainRx_frame (enterTransferring s).master.rxq ((enterTransferring s).mapMaster fun m => { m with rxq := [] })
    dsimp only at h
    rw [heq] at h
    split at h
    · obtain ⟨-, rfl⟩ := completeTransfer_eq_next.mp h
      refine ⟨_, _, _, _, _, rfl, ?_⟩
      show _ ≤ (if s.master.sendStop then s.master.txq ++ [txwStopWord] else s.master.txq).length
      split <;> simp
    · obtain rfl := Host.Outcome.next.inj h
      exact ⟨_, _, _, _, _, rfl, le_rfl⟩
  · obtain rfl := Host.Outcome.next.inj h
    exact ⟨_, _, _, _, _, rfl, le_rfl⟩

theorem PendsOnly.handleRda (h : PendsOnly error rda tdr stop s) (ht : whenFlag rda handleRda s = .next t) :
    PendsOnly error false tdr stop t := by
  obtain ⟨-, ht⟩ | ⟨rfl, rfl⟩ := whenFlag_eq_next.mp ht
  · obtain ⟨mem, st, e, b, q, rfl, hq⟩ := handleRda_result ht
    exact ⟨h.error, fun k => absurd k (Nat.not_lt_zero _), fun ⟨ken, ki, kq⟩ => h.tdr ⟨ken, ki, hq.trans kq⟩, h.stop⟩
  · exact h

/-- On a sound state with watermark 0, the transmit handler leaves a word queued or `TDIE` clear. -/
theorem handleTdr_serves (hi : Inv s) (hti : TdieInv s) (hw0 : s.cfg.mTxWatermark = 0) (ht : handleTdr s = .next t) :
    ¬ TransmitRequest t := by
  intro hreq
  have ⟨hen, htdie, hq⟩ := hreq
  by_cases hw : writeInProgress s.master = true
  · have hd : 0 < s.cfg.mTxDepth := Nat.lt_of_lt_of_le Nat.zero_lt_two hi.two_le_mTxDepth
    by_cases hn : s.master.buf.next = s.master.buf.len ∧ s.master.txq = []
    · rw [handleTdr_of_exhausted hw hi.mBuf hd hn.1 hn.2] at ht
      obtain rfl := Host.Outcome.next.inj ht
      exact not_transmitRequest_of_tdie_clear (mTdie_clearTdie s.master) hreq
    · have hne : s.master.buf.next ≠ s.master.buf.len ∨ s.master.txq ≠ [] := not_and_or.mp hn
      rw [handleTdr_of_unfinished hw hi.mBuf hi.mTxFits hd hne] at ht
      obtain rfl := Host.Outcome.next.inj ht
      exact filled_txq_ne_nil hi.mBuf hd hne _ _ (List.length_eq_zero_iff.mp (Nat.le_zero.mp (hw0 ▸ hq)))
  · rw [handleTdr, if_neg hw] at ht
    obtain rfl := Host.Outcome.next.inj ht
    obtain ⟨hdir, -, hm⟩ := hti hen htdie
    exact hw ((writeInProgress_iff _).mpr ⟨htdie, hdir, hm⟩)

/-- The transmit handler leaves the receive FIFO and the flags alone. -/
theorem handleTdr_result (h : handleTdr s = .next t) :
    ∃ (st : MState) (b : ByteBuffer) (q : List (BitVec 11)) (i : BitVec 7), t = { s with
      master := { s.master with state := st, buf := b, txq := q, ier := i } } := by
  unfold handleTdr at h
  split at h
  · obtain ⟨s2, h1, h2⟩ := andThen_eq_next.mp h
    obtain ⟨x, l, rfl, -⟩ := fillTx_frame h1
    split at h2
    · obtain ⟨-, rfl⟩ := completeTransfer_eq_next.mp h2
      exact ⟨_, _, _, _, rfl⟩
    · obtain rfl := Host.Outcome.next.inj h2
      exact ⟨_, _, _, _, rfl⟩
  · obtain rfl := Host.Outcome.next.inj h
    exact ⟨_, _, _, _, rfl⟩

theorem PendsOnly.handleTdr (h : PendsOnly error rda tdr stop s) (hi : Inv s) (hti : TdieInv s)
    (hw0 : s.cfg.mTxWatermark = 0) (ht : whenFlag tdr handleTdr s = .next t) : PendsOnly error rda false stop t := by
  obtain ⟨-, ht⟩ | ⟨rfl, rfl⟩ := whenFlag_eq_next.mp ht
  · have hserved : ¬ TransmitRequest t := handleTdr_serves hi hti hw0 ht
    obtain ⟨st, b, q, i, rfl⟩ := handleTdr_result ht
    exact ⟨h.error, h.rda, fun k => absurd k hserved, h.stop⟩
  · exact h

theorem PendsOnly.handleStop (h : PendsOnly error rda tdr stop s) (ht : whenFlag stop handleStop s = .next t) :
    PendsOnly error rda tdr false t := by
  obtain ⟨-, ht⟩ | ⟨rfl, rfl⟩ := whenFlag_eq_next.mp ht
  · obtain rfl := Host.Outcome.next.inj ht
    exact ⟨h.error, h.rda, fun k => absurd k (not_transmitRequest_of_tdie_clear (mTdie_clearTdie _)), nofun⟩
  · exact h

/-! ### The whole pass -/

/-- The receive handler keeps R38 item 5: where it serves a read, `TDIE` is clear on an enabled channel. -/
theorem handleRda_tdieInv (h : TdieInv s) : Ensures TdieInv (handleRda s) := by
  intro t ht
  by_cases hr : readInProgress s.master = true
  · obtain ⟨hdir, -, -⟩ := (readInProgress_iff _).mp hr
    obtain ⟨mem, st, e, b, q, rfl, -⟩ := handleRda_result ht
    intro hen htdie
    exact absurd (hdir.symm.trans (h hen htdie).1) (by decide)
  · rw [handleRda, if_neg hr] at ht
    obtain rfl := Host.Outcome.next.inj ht
    exact h

end

/-- Each group serves its own sources, so that none is left after the last. -/
theorem masterPass_serves {s t : State} (hi : Inv s) (hti : TdieInv s) (hw0 : s.cfg.mTxWatermark = 0)
    (h : masterPass (mStatus s.cfg s.master) s = .next t) : PendsOnly false false false false t := by
  obtain ⟨s1, h1, h⟩ := andThen_eq_next.mp h
  obtain ⟨s2, h2, h⟩ := andThen_eq_next.mp h
  obtain ⟨s3, h3, h4⟩ := andThen_eq_next.mp h
  have i1 : Inv s1 := Ensures.whenFlag (handleErrors_inv _) _ hi s1 h1
  have t1 : TdieInv s1 :=
    Ensures.whenFlag (P := TdieInv) (fun u _ v hv => (handleErrors_rules _ u v hv).tdie) _ hti s1 h1
  have i2 : Inv s2 := Ensures.whenFlag handleRda_inv _ i1 s2 h2
  have t2 : TdieInv s2 := Ensures.whenFlag (fun _ => handleRda_tdieInv) _ t1 s2 h2
  have hcfg : s2.cfg = s.cfg :=
    (whenFlag_frame handleRda_frame h2).cfg.trans (whenFlag_frame handleErrors_frame h1).cfg
  have p1 := (pendsOnly_snapshot s).handleErrors h1
  have p2 := p1.handleRda h2
  have p3 := p2.handleTdr i2 t2 (hcfg ▸ hw0) h3
  exact p3.handleStop h4

/-- Settles O49: after the pass no source of the vector is left to serve. -/
theorem masterPassQuiesces : Obligations.MasterPassQuiesces := by
  intro s t hi hti hw0 h
  have hen : t.master.irqEn = t.master.en := (execMIsr_inv hi t h).mIrqEn
  obtain ⟨-, h⟩ := exec_mIsr_eq_next.mp h
  exact (masterPass_serves (hi.withRes none) hti hw0 h).mIrq_eq_false hen

end Sys2Proof.Machine
end

section
/-! PROOFS. The host commands of the slave engine and its address match predicate (43_slave_commands.md rules R130 to R144): the
statements O29, O30, O31 and O32. -/

namespace Sys2Proof.Machine

/-! ### The address match predicate (R143) -/

section
variable {v : Slave} {a : Addr}

theorem sMatch_of_not_listening (h : v.listen = false) : sMatch v a = false := if_pos h

theorem sMatch_of_none (hm : v.mode = .none) : sMatch v a = false := by
  simp [sMatch, hm]

/-- Match one address. -/
theorem sMatch_iff_of_single (h : v.listen = true) (hm : v.mode = .single) : sMatch v a = true ↔ a = v.match0 := by
  simp [sMatch, h, hm]

/-- Match exactly two addresses. -/
theorem sMatch_iff_of_dual (h : v.listen = true) (hm : v.mode = .dual) :
    sMatch v a = true ↔ a = v.match0 ∨ a = v.match1 := by
  simp [sMatch, h, hm]

/-- Match an inclusive contiguous range. -/
theorem sMatch_iff_of_range (h : v.listen = true) (hm : v.mode = .range) :
    sMatch v a = true ↔ v.match0.toNat ≤ a.toNat ∧ a.toNat ≤ v.match1.toNat := by
  simp [sMatch, h, hm]

end

/-- Settles O32: by the match register's mode, on an engine that listens. -/
theorem matchPredicate : Obligations.MatchPredicate := by
  intro v a
  cases h : v.listen with
  | false => simp [sMatch_of_not_listening h]
  | true =>
    cases hm : v.mode with
    | none => simp [sMatch_of_none hm]
    | single => simp [sMatch_iff_of_single h hm]
    | dual => simp [sMatch_iff_of_dual h hm]
    | range => simp [sMatch_iff_of_range h hm]

/-! ### Listening (R130 to R134) -/

/-- What `listen_common(mode, m0, m1)` writes (R130). -/
theorem listenCommon_eq (mode : MatchMode) (m0 m1 : Addr) (s : State) :
    listenCommon mode m0 m1 s = { s with
      slave := { s.slave with
        state := .idle, err := .ok, trail := false, listen := true, mode := mode, match0 := m0,
        match1 := m1, ier := 0x3F#6, irqEn := true, txq := [], rxq := [], amFlag := false, stopFlag := false,
        rsFlag := false, berrFlag := false, txreq := false, padApplied := s.slave.padPending },
      events := s.events ++ [.sChannelReset] } := rfl

/-- Settles O29: each command is `listen_common` in its mode. -/
theorem listenArms : Obligations.ListenArms := by
  intro s a b i mode m1 hi
  have hexec : exec i s = .next ((listenCommon mode a m1 s).withRes none) := by
    obtain ⟨rfl, rfl, rfl⟩ | ⟨rfl, rfl, rfl⟩ | ⟨rfl, rfl, rfl⟩ := hi <;> rfl
  rw [hexec, listenCommon_eq]
  rfl

/-- Settles O30: the registers of the second `S_STOP_LISTENING` are written with what they hold. -/
theorem stopListeningDisables : Obligations.StopListeningDisables := by
  refine ⟨fun s => rfl, fun s t h => ?_⟩
  injection h with h
  subst h
  rfl

/-! ### Buffers, callback handles, queries and pads (R135 to R142, R144) -/

/-- `S_HAS_ERROR` tests for an error, the opposite of `ok`. -/
theorem execSHasError_outcome (s : State) :
    execSHasError s = .next { s with res := some (if s.slave.err = .ok then 0 else 1) } := by
  by_cases h : s.slave.err = .ok <;> simp [execSHasError, resBit, State.withRes, h]

/-- Settles O31: a binding is `BB_INIT` of the command's buffer, and every other command touches one register. -/
theorem slaveConfiguration : Obligations.SlaveConfiguration := by
  refine ⟨fun s p n q k hq hk hfit hdev => ?_, fun s h x hx => ?_, fun _ => rfl, execSHasError_outcome,
    fun _ _ => rfl, fun _ _ => rfl⟩
  · have hbind := execBbInit_of_fits hq hk hfit hdev
    exact ⟨hbind .sRxBuf, hbind .sTxBuf⟩
  · subst hx
    exact ⟨rfl, rfl, rfl⟩

end Sys2Proof.Machine
end

section
/-! PROOFS. The three upcalls and what a callback does (44_slave_sequencer.md rule R158): the statements O56 and O57. -/

namespace Sys2Proof.Machine

/-! ### The upcalls (R158, R68) -/

/-- The next callback runs to completion, and one that does not return then holds the slave pass (R243). -/
theorem upcall_cons {w : Nat} {e : OutEvent} {s u : State} {c : Callback} {rest : List Callback} (hw : w ≠ 0)
    (hc : s.callbacks = c :: rest) (hu : runActs c.acts { emit e s with callbacks := rest } = .next u) :
    upcall w e s = .next (afterCallback c.returns u) := by
  simp only [upcall, if_neg hw, hc, hu, andThen_next]

/-- Settles O56: each upcall is `upcall` with its handle and its arguments. -/
theorem upcallSteps : Obligations.UpcallSteps := by
  intro s i h e hlive hi
  have hexec : exec i s = upcall h e (s.withRes none) := by
    obtain ⟨rfl, rfl, rfl⟩ | ⟨rfl, rfl, rfl⟩ | ⟨rfl, rfl, rfl⟩ := hi <;> exact slaveStep_live hlive
  rw [hexec]
  refine ⟨fun h0 => ?_, fun hw hc => upcall_nil hw hc, fun c rest u hw hc hu => ?_⟩
  · rw [h0, upcall_null]
    rfl
  · rw [upcall_cons (s := s.withRes none) hw hc hu]
    exact ⟨fun hr => by rw [hr]; rfl, fun hr => by rw [hr]; rfl⟩

/-! ### What a callback does (R158, R241) -/

theorem runAct_command_of_decode_ok {w : Word} {a0 a1 : Nat} {i : Instr} (h : decode ⟨.cmd, w, a0, a1⟩ = .ok i) (s : State) :
    runAct (.command w a0 a1) s = permittedCommand i s := by
  simp only [runAct, h]

theorem runAct_command_of_decode_error {w : Word} {a0 a1 : Nat} {e : DecodeError}
    (h : decode ⟨.cmd, w, a0, a1⟩ = .error e) (s : State) : runAct (.command w a0 a1) s = .refused (.notAccepted e) := by
  simp only [runAct, h]

/-- A command other than the four permitted (U7). -/
theorem permittedCommand_of_other {i : Instr} (hbuf : ∀ p n, i ≠ .sSetRxBuffer p n ∧ i ≠ .sSetTxBuffer p n)
    (herr : i ≠ .sError) (hhas : i ≠ .sHasError) (s : State) :
    permittedCommand i s = .refused .notPermittedInUpcall := by
  cases i with
  | sSetRxBuffer p n => exact absurd rfl (hbuf p n).1
  | sSetTxBuffer p n => exact absurd rfl (hbuf p n).2
  | sError => exact absurd rfl herr
  | sHasError => exact absurd rfl hhas
  | _ => rfl

/-- A buffer bound inside a callback is `BB_INIT` of that buffer. -/
theorem runAct_bind {w : Word} {a0 a1 p n : Nat} {sel : BufSel}
    (h : (sel = .sRxBuf ∧ decode ⟨.cmd, w, a0, a1⟩ = .ok (.sSetRxBuffer p n)) ∨
      (sel = .sTxBuf ∧ decode ⟨.cmd, w, a0, a1⟩ = .ok (.sSetTxBuffer p n))) (s : State) :
    runAct (.command w a0 a1) s = bbInit sel p n s := by
  obtain ⟨rfl, h⟩ | ⟨rfl, h⟩ := h <;> exact runAct_command_of_decode_ok h s

/-- Settles O57: a command is decoded and either permitted or refused, an access is `hostAccess`, and the acts run in order. -/
theorem permittedInUpcall : Obligations.PermittedInUpcall := by
  refine ⟨fun s w a0 a1 p n q k sel hq hk hd => ?_, fun s w a0 a1 hd => runAct_command_of_decode_ok hd s,
    fun s w a0 a1 hd => runAct_command_of_decode_ok hd s, fun s w a0 a1 i hd hbuf herr hhas => ?_,
    fun s w a0 a1 e hd => runAct_command_of_decode_error hd s, fun s a x hx => ?_, fun s a x b hx => ?_,
    fun s t a rest h => ?_, fun s a rest r h => ?_⟩
  · subst hq hk
    rw [runAct_bind hd]
    exact ⟨fun hfit hdev => bbInit_eq_next.mpr ⟨hfit, hdev, rfl⟩, fun hwrap => bbInit_of_wraps hwrap sel,
      fun hfit hdev => bbInit_of_onDevice hfit hdev sel⟩
  · rw [runAct_command_of_decode_ok hd, permittedCommand_of_other hbuf herr hhas]
  · subst hx
    rw [runAct]
    exact hostAccess_outcome a _ s
  · subst hx
    rw [runAct]
    exact hostAccess_outcome a _ s
  · rw [runActs, h, andThen_next]
  · rw [runActs, h, andThen_refused]

end Sys2Proof.Machine
end

section
/-! PROOFS. What each group of a slave pass does (44_slave_sequencer.md rules R151 to R157), in the terms of Safety.lean. -/

namespace Sys2Proof.Machine

/-! ### The received byte (R151, R152) -/

/-- The start-of-frame mark stands above the data byte (R63). -/
theorem entrySof_append (sof : Bool) (x : Byte) : entrySof ((if sof then 1#1 else 0#1) ++ x) = sof :=
  BitVec.getLsbD_append.trans (by cases sof <;> rfl)

theorem entryData_append (c : BitVec 1) (x : Byte) : entryData (c ++ x) = x := BitVec.extractLsb'_append_eq_right

theorem startFrame_eq (sof : Bool) (s : State) : startFrame sof s = { s with
    slave := { s.slave with
      state := if sof then .receiving else s.slave.state,
      rxbuf := { s.slave.rxbuf with next := if sof then 0 else s.slave.rxbuf.next } } } := by
  cases sof <;> rfl

theorem ByteBuffer.configured_iff (b : ByteBuffer) : b.configured = true ↔ b.len ≠ 0 := by
  simp [ByteBuffer.configured, Nat.pos_iff_ne_zero]

section
variable {s : State}

theorem storeOrDiscard_of_room (b : Byte) (hst : s.slave.state = .receiving) (hlen : s.slave.rxbuf.len ≠ 0)
    (hroom : s.slave.rxbuf.next ≠ s.slave.rxbuf.len) :
    storeOrDiscard b s = { s with
      mem := memWrite s.mem (s.slave.rxbuf.cursor s.cfg) b,
      slave := { s.slave with rxbuf := s.slave.rxbuf.advance s.cfg } } := by
  rw [storeOrDiscard, if_pos hst, if_pos ((ByteBuffer.configured_iff _).mpr hlen), bbWrite_room (sel := .sRxBuf) hroom]
  rfl

/-- Where there is no buffer or no room the byte is dropped. -/
theorem storeOrDiscard_of_full (b : Byte) (hst : s.slave.state = .receiving)
    (hfull : s.slave.rxbuf.len = 0 ∨ s.slave.rxbuf.next = s.slave.rxbuf.len) :
    storeOrDiscard b s = sRaise .bufferOverflow s := by
  rw [storeOrDiscard, if_pos hst]
  by_cases hlen : s.slave.rxbuf.len = 0
  · rw [if_neg fun h => (ByteBuffer.configured_iff _).mp h hlen]
  · rw [if_pos ((ByteBuffer.configured_iff _).mpr hlen), bbWrite_full (sel := .sRxBuf) (hfull.resolve_left hlen)]
    rfl

theorem storeOrDiscard_of_not_receiving (b : Byte) (hst : s.slave.state ≠ .receiving) : storeOrDiscard b s = s :=
  if_neg hst

end

section
variable {s t : State}

/-- The first group of the pass does what `ByteServed` says. -/
theorem ByteServed.whenFlag_handleRx (h : ByteServed s t) :
    whenFlag (sRda s.slave) handleRx (s.withRes none) = .next t := by
  obtain ⟨hq, rfl⟩ | ⟨sof, x, st, nx, hq, hst, hnx, h⟩ := h
  · rw [sRda, hq]
    rfl
  · have htake : whenFlag (sRda s.slave) handleRx (s.withRes none) = .next (storeOrDiscard x { s with
        slave := { s.slave with rxq := [], state := st, rxbuf := { s.slave.rxbuf with next := nx } }, res := none }) := by
      rw [sRda, hq, hst, hnx, List.isEmpty_cons, Bool.not_false, whenFlag_true, handleRx]
      simp only [State.withRes_slave, hq, entryData_append, entrySof_append, startFrame_eq]
      rfl
    rw [htake]
    obtain ⟨rfl, hlen, hroom, rfl⟩ | ⟨rfl, hfull, rfl⟩ | ⟨hne, rfl⟩ := h
    · exact congrArg _ (storeOrDiscard_of_room x rfl hlen hroom)
    · exact congrArg _ (storeOrDiscard_of_full x rfl hfull)
    · have hsof : sof = false := by
        cases sof with
        | false => rfl
        | true => exact absurd hst hne
      subst hsof hst hnx
      exact congrArg _ (storeOrDiscard_of_not_receiving x hne)

/-- The registers the received byte can change. -/
theorem ByteServed.eq (h : ByteServed s t) :
    ∃ (mem : Mem) (q : List (BitVec 9)) (x : SState) (n : Nat) (e : ErrorCode), t = { s with
      mem := mem,
      slave := { s.slave with rxq := q, state := x, rxbuf := { s.slave.rxbuf with next := n }, err := e },
      res := none } := by
  obtain ⟨-, rfl⟩ | ⟨sof, x, st, nx, -, -, -, ⟨-, -, -, rfl⟩ | ⟨-, -, rfl⟩ | ⟨-, rfl⟩⟩ := h <;>
    exact ⟨_, _, _, _, _, rfl⟩

theorem ByteServed.hung (h : ByteServed s t) : t.slave.hung = s.slave.hung := by
  obtain ⟨_, _, _, _, _, rfl⟩ := h.eq
  rfl

theorem ByteServed.txq (h : ByteServed s t) : t.slave.txq = s.slave.txq := by
  obtain ⟨_, _, _, _, _, rfl⟩ := h.eq
  rfl

theorem ByteServed.rsFlag (h : ByteServed s t) : t.slave.rsFlag = s.slave.rsFlag := by
  obtain ⟨_, _, _, _, _, rfl⟩ := h.eq
  rfl

theorem ByteServed.stopFlag (h : ByteServed s t) : t.slave.stopFlag = s.slave.stopFlag := by
  obtain ⟨_, _, _, _, _, rfl⟩ := h.eq
  rfl

end

/-! ### The end of a frame (R153) -/

/-- No callback reaches the transmit register. -/
theorem upcall_txq {w : Nat} {e : OutEvent} {s u : State} (h : upcall w e s = .next u) : u.slave.txq = s.slave.txq := by
  rw [(upcall_frame h).1.slave]

/-- An upcall with no callback listed (log 7), whatever its handle. -/
theorem upcall_of_no_callback {s : State} (hcb : s.callbacks = []) (w : Nat) (e : OutEvent) :
    upcall w e s = .next { s with events := if w = 0 then s.events else s.events ++ [e] } := by
  by_cases hw : w = 0
  · rw [hw, upcall_null]
    rfl
  · rw [upcall_nil hw hcb, if_neg hw]
    rfl

section
variable {r : SStatus} {s t : State} {o : Run State}

/-- The snapshot's end-of-frame flags are those that are set, and all of them are cleared. -/
theorem mapSlave_clearEof (hrs : r.rs = s.slave.rsFlag) (hstop : r.stop = s.slave.stopFlag) :
    s.mapSlave (clearEof r) = eofCleared s := by
  simp [State.mapSlave, clearEof, eofCleared, hrs, hstop]

@[simp] theorem eofCleared_state (s : State) : (eofCleared s).slave.state = s.slave.state := rfl

/-- The second group is run where an end of frame is flagged. -/
theorem whenFlag_handleEof_of_flag (hrs : r.rs = s.slave.rsFlag) (hstop : r.stop = s.slave.stopFlag)
    (h : s.slave.rsFlag = true ∨ s.slave.stopFlag = true) : whenFlag (r.rs || r.stop) (handleEof r) s = handleEof r s :=
  if_pos (by rw [hrs, hstop]; simpa using h)

theorem handleEof_of_receiving (hrs : r.rs = s.slave.rsFlag) (hstop : r.stop = s.slave.stopFlag)
    (hst : s.slave.state = .receiving) :
    handleEof r s = andLive (afterReceive (eofCleared s)) fun u => .next (setSState .idle u) := by
  simp only [handleEof, mapSlave_clearEof hrs hstop, eofCleared_state, hst]

theorem handleEof_of_transmitting (hrs : r.rs = s.slave.rsFlag) (hstop : r.stop = s.slave.stopFlag)
    (hst : s.slave.state = .transmitting) :
    handleEof r s = andLive (afterTransmit (clearTrail (eofCleared s))) fun u => .next (setSState .idle u) := by
  simp only [handleEof, mapSlave_clearEof hrs hstop, eofCleared_state, hst]

theorem handleEof_of_aborted (hrs : r.rs = s.slave.rsFlag) (hstop : r.stop = s.slave.stopFlag)
    (hst : s.slave.state = .aborted) : handleEof r s = .next (setSState .idle (clearTrail (eofCleared s))) := by
  simp only [handleEof, mapSlave_clearEof hrs hstop, eofCleared_state, hst]

theorem handleEof_of_idle (hrs : r.rs = s.slave.rsFlag) (hstop : r.stop = s.slave.stopFlag)
    (hst : s.slave.state = .idle) : handleEof r s = .next (eofCleared s) := by
  simp only [handleEof, mapSlave_clearEof hrs hstop, eofCleared_state, hst]

/-- The second group makes its upcall and, unless the callback holds the pass, puts the session into `idle`. -/
theorem ClosingUpcall.whenFlag_handleEof (hrs : r.rs = s.slave.rsFlag) (hstop : r.stop = s.slave.stopFlag)
    (h : ClosingUpcall s o) :
    whenFlag (r.rs || r.stop) (handleEof r) s = andLive o fun u => .next (setSState .idle u) := by
  obtain ⟨hflag, h⟩ := h
  rw [whenFlag_handleEof_of_flag hrs hstop hflag]
  obtain ⟨hst, rfl⟩ | ⟨hst, rfl⟩ := h
  · exact handleEof_of_receiving hrs hstop hst
  · exact handleEof_of_transmitting hrs hstop hst

/-- The second group does what `FrameEnded` says. -/
theorem FrameEnded.whenFlag_handleEof (hrs : r.rs = s.slave.rsFlag) (hstop : r.stop = s.slave.stopFlag)
    (h : FrameEnded s t) : whenFlag (r.rs || r.stop) (handleEof r) s = .next t := by
  obtain ⟨hr, hs, rfl⟩ | ⟨hflag, hst, rfl⟩ | ⟨hflag, hst, rfl⟩ | ⟨u, hu, hlive, rfl⟩ := h
  · rw [hrs, hstop, hr, hs]
    rfl
  · rw [whenFlag_handleEof_of_flag hrs hstop hflag, handleEof_of_idle hrs hstop hst]
  · rw [whenFlag_handleEof_of_flag hrs hstop hflag, handleEof_of_aborted hrs hstop hst]
    rfl
  · rw [hu.whenFlag_handleEof hrs hstop, andLive_live hlive]
    rfl

/-- A frame received ends with no callback listed. -/
theorem frameEnded_of_receiving (hflag : s.slave.rsFlag = true ∨ s.slave.stopFlag = true)
    (hst : s.slave.state = .receiving) (hlive : s.slave.hung = false) (hcb : s.callbacks = []) :
    FrameEnded s { eofCleared s with
      slave := { (eofCleared s).slave with state := .idle },
      events := if s.slave.cbAfterRx = 0 then s.events
        else s.events ++ [.afterReceive s.slave.cbAfterRx s.slave.rxbuf.next (s.slave.addr.setWidth 8)] } :=
  .inr (.inr (.inr ⟨_, ⟨hflag, .inl ⟨hst, upcall_of_no_callback (s := eofCleared s) hcb _ _⟩⟩, hlive, rfl⟩))

/-- A frame transmitted ends with no callback listed. -/
theorem frameEnded_of_transmitting (hflag : s.slave.rsFlag = true ∨ s.slave.stopFlag = true)
    (hst : s.slave.state = .transmitting) (hlive : s.slave.hung = false) (hcb : s.callbacks = []) :
    FrameEnded s { eofCleared s with
      slave := { (eofCleared s).slave with state := .idle, trail := false },
      events := if s.slave.cbAfterTx = 0 then s.events
        else s.events ++ [.afterTransmit s.slave.cbAfterTx (s.slave.addr.setWidth 8)] } :=
  .inr (.inr (.inr ⟨_, ⟨hflag, .inr ⟨hst, upcall_of_no_callback (s := clearTrail (eofCleared s)) hcb _ _⟩⟩, hlive, rfl⟩))

theorem FrameEnded.live (h : FrameEnded s t) (hlive : s.slave.hung = false) : t.slave.hung = false := by
  obtain ⟨-, -, rfl⟩ | ⟨-, -, rfl⟩ | ⟨-, -, rfl⟩ | ⟨u, -, hu, rfl⟩ := h
  · exact hlive
  · exact hlive
  · exact hlive
  · exact hu

/-- The end of a frame leaves the transmit register alone, its upcall included. -/
theorem FrameEnded.txq (h : FrameEnded s t) : t.slave.txq = s.slave.txq := by
  obtain ⟨-, -, rfl⟩ | ⟨-, -, rfl⟩ | ⟨-, -, rfl⟩ | ⟨u, ⟨-, ⟨-, hu⟩ | ⟨-, hu⟩⟩, -, rfl⟩ := h
  · rfl
  · rfl
  · rfl
  · exact upcall_txq (u := u) (s := eofCleared s) hu
  · exact upcall_txq (u := u) (s := clearTrail (eofCleared s)) hu

end

/-! ### The transmit request (R156, R157) -/

/-- Two parts of a pass in a row, the first of which ends with an update that holds no pass. -/
theorem andLive_andLive_next {g : State → State} (hg : ∀ u, (g u).slave.hung = u.slave.hung) (x : Run State)
    (f : State → Run State) : andLive (andLive x fun u => .next (g u)) f = andLive x fun u => f (g u) := by
  cases x with
  | next u => cases hu : u.slave.hung <;> simp [andLive, hg, hu]
  | fault r => rfl
  | refused r => rfl

section
variable {s : State}

theorem supplyByte_of_unbound (hlen : s.slave.txbuf.len = 0) :
    supplyByte s = .next { s with slave := { s.slave with txq := s.slave.txq ++ [0#8], err := .bufferUnderflow } } :=
  if_neg fun h => (ByteBuffer.configured_iff _).mp h hlen

theorem supplyByte_of_data (hdata : s.slave.txbuf.next < s.slave.txbuf.len) :
    supplyByte s = .next { s with
      slave := { s.slave with
        txq := s.slave.txq ++ [memRead s.mem (s.slave.txbuf.cursor s.cfg)], txbuf := s.slave.txbuf.advance s.cfg } } := by
  rw [supplyByte, if_pos ((ByteBuffer.configured_iff _).mpr (Nat.ne_zero_of_lt hdata)),
    if_pos (show s.slave.txbuf.hasData = true from decide_eq_true hdata), (bbRead_eq_next (sel := .sTxBuf)).mpr ⟨hdata, rfl⟩]
  rfl

/-- Past the last byte a dummy is sent: the first is the trailing byte, every later one an underflow. -/
theorem supplyByte_of_end (hlen : s.slave.txbuf.len ≠ 0) (hend : s.slave.txbuf.len ≤ s.slave.txbuf.next) :
    supplyByte s = .next (if s.slave.trail then
        { s with slave := { s.slave with txq := s.slave.txq ++ [0#8], err := .bufferUnderflow } }
      else { s with slave := { s.slave with txq := s.slave.txq ++ [0#8], trail := true } }) := by
  rw [supplyByte, if_pos ((ByteBuffer.configured_iff _).mpr hlen), if_neg (by simpa [ByteBuffer.hasData] using hend)]
  cases s.slave.trail <;> rfl

theorem handleTx_of_transmitting (hlive : s.slave.hung = false) (hst : s.slave.state = .transmitting) :
    handleTx s = supplyByte s := by
  rw [handleTx, if_neg (by simp [hst]), startTransmit, if_pos hst, andLive_live hlive]

/-- What the first request of a frame writes after its upcall (R156). -/
def openTransmit (s : State) : State := s.mapSlave fun v => { v with txbuf := v.txbuf.rewind, state := .transmitting }

/-- The first request of a frame: the upcall, then the first byte of the buffer that is bound by then. -/
theorem handleTx_of_first (hst : s.slave.state = .idle ∨ s.slave.state = .receiving) :
    handleTx s = andLive (beforeTransmit s) fun u => supplyByte (openTransmit u) := by
  have hna : s.slave.state ≠ .aborted := by obtain h | h := hst <;> simp [h]
  have hnt : s.slave.state ≠ .transmitting := by obtain h | h := hst <;> simp [h]
  rw [handleTx, if_neg hna, startTransmit, if_neg hnt]
  exact andLive_andLive_next (g := openTransmit) (fun _ => rfl) _ _

/-- The last group of the pass does what `TransmitServed` says. -/
theorem transmitServed_handleTx (hlive : s.slave.hung = false) (hq : s.slave.txq = []) : TransmitServed s (handleTx s) := by
  refine ⟨fun hst => ?_, fun hst hlen => ?_, fun hst hdata => ?_, fun hst hlen hend htr => ?_,
    fun hst hlen hend htr => ?_, fun hst => ⟨fun u hu hh => ?_, fun u hu hh hlen => ?_, fun u hu hh hlen => ?_,
      fun r hr => ?_⟩⟩
  · rw [handleTx, if_pos hst, sPush, State.mapSlave, hq]
    rfl
  · rw [handleTx_of_transmitting hlive hst, supplyByte_of_unbound hlen, hq]
    rfl
  · rw [handleTx_of_transmitting hlive hst, supplyByte_of_data hdata, hq]
    rfl
  · rw [handleTx_of_transmitting hlive hst, supplyByte_of_end hlen hend, hq, htr]
    rfl
  · rw [handleTx_of_transmitting hlive hst, supplyByte_of_end hlen hend, hq, if_pos htr]
    rfl
  · rw [handleTx_of_first hst, hu, andLive_held hh]
  · have hqu : u.slave.txq = [] := (upcall_txq hu).trans hq
    rw [handleTx_of_first hst, hu, andLive_live hh, supplyByte_of_data (s := openTransmit u) (Nat.pos_of_ne_zero hlen),
      ← (upcall_frame hu).1.cfg]
    simp [openTransmit, hqu, ByteBuffer.cursor, ByteBuffer.advance, ByteBuffer.rewind, Config.ptrBits, Config.lenBits,
      State.mapSlave]
  · have hqu : u.slave.txq = [] := (upcall_txq hu).trans hq
    rw [handleTx_of_first hst, hu, andLive_live hh, supplyByte_of_unbound (s := openTransmit u) hlen]
    simp [openTransmit, hqu, ByteBuffer.rewind, State.mapSlave]
  · rw [handleTx_of_first hst, hr]
    rfl

end

/-- The first request of a frame where the upcall has a handle and no callback is listed. -/
theorem TransmitServed.of_no_callback {s : State} {o : Run State} (h : TransmitServed s o)
    (hst : s.slave.state = .idle ∨ s.slave.state = .receiving) (hlive : s.slave.hung = false) (hcb : s.callbacks = [])
    (hw : s.slave.cbBeforeTx ≠ 0) (hlen : s.slave.txbuf.len ≠ 0) :
    o = .next { s with
      slave := { s.slave with
        state := .transmitting, txq := [memRead s.mem (s.slave.txbuf.ptr % 2 ^ s.cfg.ptrW)],
        txbuf := { s.slave.txbuf with next := 1 % 2 ^ s.cfg.lenW } },
      events := s.events ++ [.beforeTransmit s.slave.cbBeforeTx (s.slave.addr.setWidth 8)] } := by
  obtain ⟨-, -, -, -, -, hfirst⟩ := h
  obtain ⟨-, hdata, -, -⟩ := hfirst hst
  exact hdata _ (upcall_nil hw hcb) hlive hlen

end Sys2Proof.Machine
end

section
/-! PROOFS. The slave pass as a whole (44_slave_sequencer.md rule R150), and the passes that have one source to serve, or an address
match beside it: the statements O50 to O54. -/

namespace Sys2Proof.Machine

/-! ### The pass in its groups (R150) -/

/-- What a bit error and an address match leave, where the flags of `v` have them. -/
def errorAndMatchServed (v : Slave) (s : State) : State :=
  let s3 := if v.berrFlag then bitErrorServed s else s
  if v.amFlag then matchServed s3 else s3

/-- The pass on the snapshot of `v`, once its end of frame is served. -/
def passAfterEof (v : Slave) (s : State) : Run State := whenFlag (sTdr v) handleTx (errorAndMatchServed v s)

theorem slavePass_eq (v : Slave) (s : State) :
    slavePass (sStatus v) s = andThen (whenFlag (sRda v) handleRx s) fun s1 =>
      andLive (whenFlag (v.rsFlag || v.stopFlag) (handleEof (sStatus v)) s1) (passAfterEof v) := by
  have hrest : ∀ u, (andThen (whenFlag v.berrFlag handleBerr u) fun s3 =>
      andThen (whenFlag v.amFlag handleAm s3) fun s4 => whenFlag (sTdr v) handleTx s4) = passAfterEof v u := by
    intro u
    unfold passAfterEof errorAndMatchServed
    cases v.berrFlag <;> cases v.amFlag <;> simp [handleBerr_eq, handleAm_eq]
  rw [← funext hrest]
  rfl

theorem errorAndMatchServed_hung (v : Slave) (s : State) : (errorAndMatchServed v s).slave.hung = s.slave.hung := by
  unfold errorAndMatchServed
  cases v.berrFlag <;> cases v.amFlag <;> rfl

/-- A bit error empties the transmit register, an address match leaves it alone. -/
theorem errorAndMatchServed_txq (v : Slave) {s : State} (h : s.slave.txq = []) : (errorAndMatchServed v s).slave.txq = [] := by
  unfold errorAndMatchServed
  cases v.berrFlag <;> cases v.amFlag <;> simp [matchServed, bitErrorServed, h]

theorem errorAndMatchServed_of_no_flag {v : Slave} (hberr : v.berrFlag = false) (ham : v.amFlag = false) (s : State) :
    errorAndMatchServed v s = s := by
  simp [errorAndMatchServed, hberr, ham]

theorem errorAndMatchServed_of_match {v : Slave} (hberr : v.berrFlag = false) (ham : v.amFlag = true) (s : State) :
    errorAndMatchServed v s = matchServed s := by
  simp [errorAndMatchServed, hberr, ham]

theorem sTdr_eq_false {v : Slave} (h : v.txreq = false ∨ v.txq ≠ []) : sTdr v = false := by
  simpa [sTdr, or_iff_not_imp_left] using h

theorem sTdr_eq_true {v : Slave} (hreq : v.txreq = true) (hq : v.txq = []) : sTdr v = true := by
  simp [sTdr, hreq, hq]

section
variable {s s1 s2 : State}

theorem exec_sIsr_of_pending (hlive : s.slave.hung = false) (hirq : sIrq s = true) :
    exec .sIsr s = slavePass (sStatus s.slave) (s.withRes none) :=
  (slaveStep_live hlive).trans (if_pos hirq)

/-- A pass whose end of frame makes an upcall goes on after it, unless the callback holds the pass. -/
theorem exec_sIsr_of_closingUpcall {o : Run State} (hlive : s.slave.hung = false) (hirq : sIrq s = true)
    (hb : ByteServed s s1) (hc : ClosingUpcall s1 o) :
    exec .sIsr s = andLive o fun u => passAfterEof s.slave (setSState .idle u) := by
  rw [exec_sIsr_of_pending hlive hirq, slavePass_eq, hb.whenFlag_handleRx, andThen_next,
    ← andLive_andLive_next (g := setSState .idle) fun _ => rfl]
  exact congrArg (andLive · _) (hc.whenFlag_handleEof (r := sStatus s.slave) hb.rsFlag.symm hb.stopFlag.symm)

/-- A pass whose first two groups complete leaves the rest to the other three. -/
theorem exec_sIsr_of_frameEnded (hlive : s.slave.hung = false) (hirq : sIrq s = true) (hb : ByteServed s s1)
    (hf : FrameEnded s1 s2) : exec .sIsr s = passAfterEof s.slave s2 := by
  rw [exec_sIsr_of_pending hlive hirq, slavePass_eq, hb.whenFlag_handleRx, andThen_next,
    ← andLive_live (f := passAfterEof s.slave) (hf.live (hb.hung.trans hlive))]
  exact congrArg (andLive · _) (hf.whenFlag_handleEof (r := sStatus s.slave) hb.rsFlag.symm hb.stopFlag.symm)

theorem passAfterEof_of_no_request {v : Slave} (hno : v.txreq = false ∨ v.txq ≠ []) (s : State) :
    passAfterEof v s = .next (errorAndMatchServed v s) := by
  rw [passAfterEof, sTdr_eq_false hno, whenFlag_false]

theorem transmitServed_exec_sIsr (hlive : s.slave.hung = false) (hirq : sIrq s = true) (hb : ByteServed s s1)
    (hf : FrameEnded s1 s2) (hreq : s.slave.txreq = true) (hq : s.slave.txq = []) :
    TransmitServed (errorAndMatchServed s.slave s2) (exec .sIsr s) := by
  rw [exec_sIsr_of_frameEnded hlive hirq hb hf, passAfterEof, sTdr_eq_true hreq hq, whenFlag_true]
  exact transmitServed_handleTx ((errorAndMatchServed_hung _ _).trans (hf.live (hb.hung.trans hlive)))
    (errorAndMatchServed_txq _ (hf.txq.trans (hb.txq.trans hq)))

end

/-- Settles O54: `ByteServed`, `FrameEnded` and `TransmitServed` say what the groups do, one after the other. -/
theorem repeatedStartSnapshot : Obligations.RepeatedStartSnapshot := by
  intro s s1 hlive hirq hb
  refine ⟨fun u hc hh => ?_, fun r hc => ?_, fun s2 s3 s4 hf h3 h4 => ?_,
    fun hst hflag hberr ham hreq hq hlen hrx htx hcb => ?_⟩
  · rw [exec_sIsr_of_closingUpcall hlive hirq hb hc, andLive_held hh]
  · rw [exec_sIsr_of_closingUpcall hlive hirq hb hc]
    rfl
  · obtain rfl : s4 = errorAndMatchServed s.slave s2 := by rw [h4, h3]; rfl
    refine ⟨fun hno => ?_, transmitServed_exec_sIsr hlive hirq hb hf⟩
    rw [exec_sIsr_of_frameEnded hlive hirq hb hf, passAfterEof_of_no_request hno]
  · obtain ⟨mem, q, x, n, e, hs1⟩ := hb.eq
    have hf := frameEnded_of_receiving (s := s1) (by rwa [hb.rsFlag, hb.stopFlag]) hst (hb.hung.trans hlive)
      (by rw [hs1]; exact hcb)
    subst hs1
    have ht := transmitServed_exec_sIsr hlive hirq hb hf hreq hq
    rw [errorAndMatchServed_of_match hberr ham] at ht
    refine (ht.of_no_callback (.inl rfl) hlive hcb htx hlen).trans ?_
    simp [matchServed, eofCleared, hrx]

/-! ### Passes with one source to serve (R151 to R155) -/

/-- A pass that has no event but the received byte, if one waits. -/
theorem exec_sIsr_of_byteServed {s t : State} (hlive : s.slave.hung = false) (hirq : sIrq s = true) (hb : ByteServed s t)
    (ham : s.slave.amFlag = false) (hstop : s.slave.stopFlag = false) (hrs : s.slave.rsFlag = false)
    (hberr : s.slave.berrFlag = false) (hno : s.slave.txreq = false ∨ s.slave.txq ≠ []) : exec .sIsr s = .next t := by
  have hf : FrameEnded t t := .inl ⟨hb.rsFlag.trans hrs, hb.stopFlag.trans hstop, rfl⟩
  rw [exec_sIsr_of_frameEnded hlive hirq hb hf, passAfterEof_of_no_request hno, errorAndMatchServed_of_no_flag hberr ham]

/-- Settles O50: each clause is a way in which the byte is served. -/
theorem slaveReceivePass : Obligations.SlaveReceivePass := by
  intro s sof x st nx hlive hirq hq ham hstop hrs hberr hno hst hnx
  have hpass : ∀ t, ByteServed s t → exec .sIsr s = .next t := fun t hb =>
    exec_sIsr_of_byteServed hlive hirq hb ham hstop hrs hberr hno
  exact ⟨fun hrec hlen hroom => hpass _ (.inr ⟨sof, x, st, nx, hq, hst, hnx, .inl ⟨hrec, hlen, hroom, rfl⟩⟩),
    fun hrec hfull => hpass _ (.inr ⟨sof, x, st, nx, hq, hst, hnx, .inr (.inl ⟨hrec, hfull, rfl⟩)⟩),
    fun hne => hpass _ (.inr ⟨sof, x, st, nx, hq, hst, hnx, .inr (.inr ⟨hne, rfl⟩)⟩)⟩

/-- No byte waits. -/
theorem byteServed_of_empty {s : State} (hq : s.slave.rxq = []) : ByteServed s { s with res := none } := .inl ⟨hq, rfl⟩

/-- What follows an upcall at the end of a frame when nothing else is to serve. -/
theorem andLive_next_idle (u : State) :
    andLive (.next u) (fun v => .next (setSState .idle v)) =
      .next (if u.slave.hung then u else { u with slave := { u.slave with state := .idle } }) := by
  cases hu : u.slave.hung with
  | true => rw [andLive_held hu, if_pos rfl]
  | false => rw [andLive_live hu, if_neg Bool.false_ne_true]; rfl

/-- Settles O51: the frame ends with an upcall in `receiving` and in `transmitting`, without one in the other states. -/
theorem slaveEndOfFrame : Obligations.SlaveEndOfFrame := by
  intro s s1 hlive hirq hq hflag hberr ham hno hs1
  have hb := byteServed_of_empty hq
  have hrest : ∀ u, passAfterEof s.slave u = .next u := fun u => by
    rw [passAfterEof_of_no_request hno, errorAndMatchServed_of_no_flag hberr ham]
  have hupcall : ∀ u, ClosingUpcall { s with res := none } (.next u) →
      exec .sIsr s = .next (if u.slave.hung then u else { u with slave := { u.slave with state := .idle } }) := fun u hc => by
    rw [exec_sIsr_of_closingUpcall hlive hirq hb hc, ← andLive_next_idle]
    simp only [hrest]
  have hend : ∀ t, FrameEnded { s with res := none } t → exec .sIsr s = .next t := fun t hf => by
    rw [exec_sIsr_of_frameEnded hlive hirq hb hf, hrest]
  subst hs1
  exact ⟨fun hst hcb => hend _ (frameEnded_of_receiving hflag hst hlive hcb),
    fun u hst hu => hupcall u ⟨hflag, .inl ⟨hst, hu⟩⟩,
    fun hst hcb => hend _ (frameEnded_of_transmitting hflag hst hlive hcb),
    fun u hst hu => hupcall u ⟨hflag, .inr ⟨hst, hu⟩⟩,
    fun hst => hend _ (.inr (.inr (.inl ⟨hflag, hst, rfl⟩))), fun hst => hend _ (.inr (.inl ⟨hflag, hst, rfl⟩))⟩

/-- Settles O52: the two groups in their order, the bit error first. -/
theorem slaveBitErrorAndMatch : Obligations.SlaveBitErrorAndMatch := by
  intro s hlive hirq hq hrs hstop hno
  have hpass : exec .sIsr s = .next (errorAndMatchServed s.slave { s with res := none }) := by
    rw [exec_sIsr_of_frameEnded hlive hirq (byteServed_of_empty hq) (.inl ⟨hrs, hstop, rfl⟩), passAfterEof_of_no_request hno]
  refine ⟨fun hberr ham => ?_, fun hberr ham => ?_, fun hberr ham => ?_⟩ <;>
    rw [hpass, errorAndMatchServed, hberr, ham] <;> rfl

/-- Settles O53: the match, if there is one, is served before the request. -/
theorem slaveTransmitPass : Obligations.SlaveTransmitPass := by
  intro s s1 hlive hirq hrxq hstop hrs hberr hreq hq hs1
  have ht : TransmitServed s1 (exec .sIsr s) := by
    have hs1' : s1 = errorAndMatchServed s.slave { s with res := none } := by rw [hs1, errorAndMatchServed, hberr]; rfl
    rw [hs1']
    exact transmitServed_exec_sIsr hlive hirq (byteServed_of_empty hrxq) (.inl ⟨hrs, hstop, rfl⟩) hreq hq
  refine ⟨ht, fun hst hcb hw hlen => ?_⟩
  cases ham : s.slave.amFlag with
  | true =>
    obtain rfl : s1 = matchServed { s with res := none } := by rw [hs1, ham]; rfl
    exact ht.of_no_callback hst hlive hcb hw hlen
  | false =>
    obtain rfl : s1 = { s with res := none } := by rw [hs1, ham]; rfl
    rw [ht.of_no_callback hst hlive hcb hw hlen]
    simp [ham]

end Sys2Proof.Machine
end

section
/-! PROOFS. What a slave pass never does (44_slave_sequencer.md rule R161): the statement O55. -/

namespace Sys2Proof.Machine

theorem exec_sIsr_eq_next {s t : State} :
    exec .sIsr s = .next t ↔ s.slave.hung = false ∧ sIrq s = true ∧ slavePass (sStatus s.slave) (s.withRes none) = .next t := by
  refine slaveStep_eq_next.trans (and_congr_right fun _ => ?_)
  cases sIrq s <;> simp

/-! ### The faults of the slave pass -/

theorem upcall_faults (w : Nat) (e : OutEvent) (s : State) : FaultsOnlyOnPush (upcall w e s) :=
  fun r h => absurd h (upcall_ne_fault w e s r)

theorem FaultsOnlyOnPush.andLive {x : Run State} {f : State → Run State} (hx : FaultsOnlyOnPush x)
    (hf : ∀ u, FaultsOnlyOnPush (f u)) : FaultsOnlyOnPush (andLive x f) :=
  .andThen hx fun u => .ite (fun _ => .next u) fun _ => hf u

theorem handleRx_faults (s : State) : FaultsOnlyOnPush (handleRx s) := by
  unfold handleRx
  split <;> exact .next _

theorem handleEof_faults (r : SStatus) (s : State) : FaultsOnlyOnPush (handleEof r s) := by
  unfold handleEof
  dsimp only
  split
  · exact .andLive (upcall_faults _ _ _) fun _ => .next _
  · exact .andLive (upcall_faults _ _ _) fun _ => .next _
  · exact .next _
  · exact .next _

/-- The pass reads a byte only where the buffer has one, so that no read is past its end (R157). -/
theorem supplyByte_faults (s : State) : FaultsOnlyOnPush (supplyByte s) := by
  refine .ite (fun _ => .ite (fun hdata => .andThen ?_ fun _ => .next _) fun _ => .ite (fun _ => .next _) fun _ => .next _)
    fun _ => .next _
  rw [(bbRead_eq_next (sel := .sTxBuf)).mpr ⟨of_decide_eq_true hdata, rfl⟩]
  exact .next _

theorem handleTx_faults (s : State) : FaultsOnlyOnPush (handleTx s) :=
  .ite (fun _ => .next _) fun _ => .andLive
    (.ite (fun _ => .next s) fun _ => .andLive (upcall_faults _ _ s) fun _ => .next _) supplyByte_faults

theorem execSIsr_faults (s : State) : FaultsOnlyOnPush (execSIsr s) :=
  .ite (fun _ => .refused _) fun _ => .ite (fun _ => .andThen (.whenFlag handleRx_faults _ _) fun s1 =>
    .andLive (.whenFlag (handleEof_faults _) _ s1) fun s2 =>
      .andThen (.whenFlag (f := handleBerr) (fun _ => .next _) _ s2) fun s3 =>
        .andThen (.whenFlag (f := handleAm) (fun _ => .next _) _ s3) fun s4 => .whenFlag handleTx_faults _ s4)
    fun _ => .refused _

/-- Settles O55: by the frame of the pass, and by the faults it can end in. -/
theorem slavePassNever : Obligations.SlavePassNever := by
  have hframe : ∀ s t, exec .sIsr s = .next t → SlaveFrame 2 1 1 (s.withRes none) t := fun s t h => by
    obtain ⟨-, -, h⟩ := exec_sIsr_eq_next.mp h
    exact slavePass_frame h
  refine ⟨fun s t h => ?_, fun s t h => (hframe s t h).bound, fun s h => nomatch execSIsr_faults s _ h⟩
  have f := hframe s t h
  obtain ⟨hrx, hbefore, hafter⟩ := f.handles
  obtain ⟨l, hl, hcb⟩ := f.callbacks
  have hbound : s.callbacks.length ≤ t.callbacks.length + 2 := by
    rw [show s.callbacks = _ from hcb, List.length_append]
    omega
  exact ⟨f.err, f.listen, f.mode, f.match0, f.match1, f.ier, f.irqEn, hrx, hbefore, hafter, f.master, f.rxq.1, f.txq, hbound⟩

end Sys2Proof.Machine
end

section
/-! PROOFS. The moves of the line unit, where their guards hold and where they do not (45_line_unit.md rules R170 to R181): the
statements O33 to O36. -/

namespace Sys2Proof.Machine

section
variable {s : State} {w : BitVec 11} {rest : List (BitVec 11)}

/-! ### Guards (R170) -/

theorem guarded_of_true {g : Bool} (h : g = true) (t : State) : guarded g t = .next t := if_pos h

theorem guarded_of_false {g : Bool} (h : g = false) (t : State) : guarded g t = .refused .moveNotEnabled :=
  if_neg (Bool.eq_false_iff.mp h)

/-! ### The commands R62 reserves -/

theorem reservedCmd_stop : reservedCmd txwStopWord = false := rfl

theorem reservedCmd_of_reserved
    (h : w.extractLsb' 8 3 = 3#3 ∨ w.extractLsb' 8 3 = 5#3 ∨ w.extractLsb' 8 3 = 6#3 ∨ w.extractLsb' 8 3 = 7#3) :
    reservedCmd w = true := by
  obtain h | h | h | h := h <;> simp [reservedCmd, txwCmd, h]

/-! ### What each word does (R171) -/

theorem takeEffect_transmit (d : Byte) (m : Master) : takeEffect (txwTransmitWord d) m = m := by simp [takeEffect]

theorem takeEffect_receive (n : Nat) (m : Master) : takeEffect (txwReceiveWord n) m = m := by simp [takeEffect]

theorem takeEffect_stop (m : Master) : takeEffect txwStopWord m = { m with held := false, stopFlag := true } := by
  simp [takeEffect]

theorem takeEffect_start (a : Addr) (d : Dir) (m : Master) :
    takeEffect (txwStartWord a d) m = { m with held := true, busy := true } := by simp [takeEffect]

/-! ### Taking a word (R171, log 13) -/

theorem execLuMTake_of_disabled (hen : s.master.en = false) : execLuMTake s = .refused .moveNotEnabled := by
  unfold execLuMTake
  split
  · rfl
  · exact if_pos hen

theorem execLuMTake_of_empty (hq : s.master.txq = []) : execLuMTake s = .refused .moveNotEnabled := by
  simp only [execLuMTake, hq]

theorem execLuMTake_of_cons (hen : s.master.en = true) (hq : s.master.txq = w :: rest) :
    execLuMTake s = if reservedCmd w then .fault .reservedTxWord else .next (takeWord w rest s) := by
  simp only [execLuMTake, hq, hen, Bool.true_eq_false, if_false]

/-- A given word is taken where the channel is enabled and the word is the head of the FIFO. -/
theorem takeThis_eq_guarded (w : BitVec 11) (s : State) :
    takeThis w s = guarded (s.master.en && s.master.txq.head? == some w) (takeWord w s.master.txq.tail s) := by
  unfold takeThis
  split
  next hq => simp [hq, guarded]
  next v rest hq => simp [hq]

theorem takeThis_of_disabled (hen : s.master.en = false) (w : BitVec 11) : takeThis w s = .refused .moveNotEnabled := by
  rw [takeThis_eq_guarded, guarded_of_false (by simp [hen])]

theorem takeThis_of_not_head (hq : s.master.txq.head? ≠ some w) : takeThis w s = .refused .moveNotEnabled := by
  rw [takeThis_eq_guarded, guarded_of_false (by simp [hq])]

theorem takeThis_of_cons (hen : s.master.en = true) (hq : s.master.txq = w :: rest) :
    takeThis w s = .next (takeWord w rest s) := by
  rw [takeThis_eq_guarded, guarded_of_true (by simp [hen, hq]), hq, List.tail_cons]

/-- On the head of the FIFO, a word that is not reserved, `LU_M_TAKE` and the word's own instruction do the same. -/
theorem exec_take_head {i : Instr} (hi : i = .luMTake ∨ exec i s = takeThis w s) (hen : s.master.en = true)
    (hq : s.master.txq = w :: rest) (hw : reservedCmd w = false) :
    exec i s = .next { s with master := takeEffect w { s.master with txq := rest }, res := some w.toNat } := by
  obtain rfl | hi := hi
  · exact (execLuMTake_of_cons hen hq).trans (if_neg (Bool.eq_false_iff.mp hw))
  · exact hi.trans (takeThis_of_cons hen hq)

/-! ### The moves of the slave side (R177, R178) -/

theorem execLuSRx_of_empty (hlive : s.slave.hung = false) (hq : s.slave.rxq = []) (b : Byte) (sof : Bool) :
    execLuSRx b sof s = .next { s with slave := { s.slave with rxq := [rxEntry sof b] }, res := none } := by
  rw [execLuSRx, slaveStep_live hlive, guarded_of_true (by rw [hq]; rfl), State.mapSlave, hq]
  rfl

theorem execLuSTake_of_singleton {b : Byte} (hq : s.slave.txq = [b]) :
    execLuSTake s = slaveStep (.next { s with slave := { s.slave with txq := [] }, res := some b.toNat }) s := by
  simp only [execLuSTake, hq]
  rfl

theorem execLuSTake_of_length_ne_one (hq : s.slave.txq.length ≠ 1) :
    execLuSTake s = slaveStep (.refused .moveNotEnabled) s := by
  unfold execLuSTake
  split
  next b hb => exact absurd (congrArg List.length hb) hq
  next => rfl

theorem execLuSTake_of_held (hheld : s.slave.hung = true) : execLuSTake s = .refused .slaveHung := by
  unfold execLuSTake
  split <;> exact slaveStep_held hheld

end

/-! ### The line unit: the statements -/

/-- Settles O33: either instruction is the taking of the head, whose effect is that of its command. -/
theorem lineUnitTakesTheHead : Obligations.LineUnitTakesTheHead := by
  refine ⟨fun s d rest i hi hen hq => ?_, fun s n rest i hi hen hq => ?_, fun s rest i hi hen hq => ?_,
    fun s a d rest i hi hen hq => ?_⟩
  · rw [exec_take_head (hi.imp_right (· ▸ rfl)) hen hq (reservedCmd_transmit d), takeEffect_transmit]
  · rw [exec_take_head (hi.imp_right (· ▸ rfl)) hen hq (reservedCmd_receive n), takeEffect_receive]
  · rw [exec_take_head (hi.imp_right (· ▸ rfl)) hen hq reservedCmd_stop, takeEffect_stop]
    rfl
  · rw [exec_take_head (hi.imp_right (· ▸ rfl)) hen hq (reservedCmd_start a d), takeEffect_start]

/-- Settles O34: each guard holds, and each move writes its one register. -/
theorem masterLineMoves : Obligations.MasterLineMoves := by
  refine ⟨fun s b hen hroom => guarded_of_true ?_ _, fun s hen => ?_, fun s v hen => ?_, fun s v => guarded_of_true ?_ _⟩
  · rw [hen, decide_eq_true hroom]
    rfl
  · have hflag : ∀ f, exec (.luMFlag f) s = .next ((s.mapMaster (setMFlag f)).withRes none) := fun _ => guarded_of_true hen _
    exact ⟨hflag .stop, hflag .nak, hflag .arb, hflag .ferr, hflag .plt⟩
  · have hlevel : ∀ l, exec (.luMLevel l v) s = .next ((s.mapMaster (setMLevel l v)).withRes none) := fun _ =>
      guarded_of_true (by rw [hen, Bool.true_or]) _
    exact ⟨hlevel .busy, hlevel .held⟩
  · exact Bool.or_true _

/-- Settles O35: each move steps a slave engine that is not held, where its guard, if it has one, holds. -/
theorem slaveLineMoves : Obligations.SlaveLineMoves := by
  refine ⟨fun s a hlive hm => ?_, fun s b hlive hq => ?_, fun s b hlive hq => ?_, fun s hlive => slaveStep_live hlive,
    fun s hlive => slaveStep_live hlive, fun s hlive => slaveStep_live hlive⟩
  · have haddr : ∀ rw, exec (.luSAddr a rw) s = .next
        ((s.mapSlave fun v => { v with amFlag := true, asr := a, txreq := dirBit rw }).withRes none) := fun _ =>
      (slaveStep_live hlive).trans (guarded_of_true hm _)
    exact ⟨haddr .write, haddr .read⟩
  · exact ⟨execLuSRx_of_empty hlive hq b true, execLuSRx_of_empty hlive hq b false⟩
  · exact (execLuSTake_of_singleton hq).trans (slaveStep_live hlive)

/-- Settles O36: the guards of the master side need an enabled channel, and each move's own guard is tested besides; every step
of the slave side is a `slaveStep`. -/
theorem guardsAreHard : Obligations.GuardsAreHard := by
  refine ⟨fun s i hen hi => ?_, fun s hq => execLuMTake_of_empty hq, fun s w rest hen hq hw => ?_, fun s w i hq hi => ?_,
    fun s b hfull => guarded_of_false (by simp [hfull]) _, fun s a rw hlive hm => ?_, fun s b sof hlive hq => ?_,
    fun s hlive hq => ?_, fun s i hheld hi => ?_⟩
  · obtain rfl | ⟨b, rfl⟩ | ⟨f, rfl⟩ | ⟨v, rfl⟩ | ⟨v, rfl⟩ | ⟨d, rfl⟩ | ⟨n, rfl⟩ | rfl | ⟨a, d, rfl⟩ := hi
    · exact execLuMTake_of_disabled hen
    · exact guarded_of_false (by rw [hen, Bool.false_and]) _
    · exact guarded_of_false hen _
    · exact guarded_of_false (by rw [hen]; rfl) _
    · exact guarded_of_false (by rw [hen]; rfl) _
    all_goals exact takeThis_of_disabled hen _
  · exact (execLuMTake_of_cons hen hq).trans (if_pos (reservedCmd_of_reserved hw))
  · obtain ⟨d, rfl, rfl⟩ | ⟨n, rfl, rfl⟩ | ⟨rfl, rfl⟩ | ⟨a, d, rfl, rfl⟩ := hi <;> exact takeThis_of_not_head hq
  · exact (slaveStep_live hlive).trans (guarded_of_false hm _)
  · exact (slaveStep_live hlive).trans (guarded_of_false (List.isEmpty_eq_false_iff.mpr hq) _)
  · exact (execLuSTake_of_length_ne_one hq).trans (slaveStep_live hlive)
  · obtain rfl | rfl | rfl | rfl | ⟨a, rw, rfl⟩ | ⟨b, sof, rfl⟩ | rfl | rfl | rfl | rfl := hi
    pick_goal 7
    · exact execLuSTake_of_held hheld
    all_goals exact slaveStep_held hheld

end Sys2Proof.Machine
end

section
/-! PROOFS. When the two vectors are pending, source by source, and that no pass runs without its vector (60_exceptions.md rules
R203 to R205): the statement O40. -/

namespace Sys2Proof.Machine

/-- The bits of the status word, lowest first (R67). -/
theorem SStatus.word_bits (r : SStatus) :
    (List.range 6).map r.word.getLsbD = [r.tdr, r.rda, r.am, r.stop, r.rs, r.berr] := by
  simp only [List.range, List.range.loop, List.map_cons, List.map_nil, SStatus.word, BitVec.getLsbD_append]
  simp

/-- The slave vector, source by source (R204). -/
theorem sIrq_iff (s : State) : sIrq s = true ↔ s.slave.irqEn = true ∧
    ((s.slave.ier.getLsbD 0 = true ∧ s.slave.txreq = true ∧ s.slave.txq = []) ∨
      (s.slave.ier.getLsbD 1 = true ∧ s.slave.rxq ≠ []) ∨
      (s.slave.ier.getLsbD 2 = true ∧ s.slave.amFlag = true) ∨
      (s.slave.ier.getLsbD 3 = true ∧ s.slave.stopFlag = true) ∨
      (s.slave.ier.getLsbD 4 = true ∧ s.slave.rsFlag = true) ∨
      (s.slave.ier.getLsbD 5 = true ∧ s.slave.berrFlag = true)) := by
  have hb := (sStatus s.slave).word_bits
  simp only [List.range, List.range.loop, List.map_cons, List.map_nil, List.cons.injEq, and_true] at hb
  obtain ⟨h0, h1, h2, h3, h4, h5⟩ := hb
  have htdr : (sStatus s.slave).tdr = true ↔ s.slave.txreq = true ∧ s.slave.txq = [] := by
    rw [sStatus, sTdr, Bool.and_eq_true, List.isEmpty_iff]
  have hrda : (sStatus s.slave).rda = true ↔ s.slave.rxq ≠ [] := by
    rw [sStatus, sRda, Bool.not_eq_true', List.isEmpty_eq_false_iff]
  rw [sIrq, Bool.and_eq_true, bne_iff_ne, and_ne_zero_iff]
  simp only [Nat.exists_lt_succ_left, Nat.not_lt_zero, false_and, exists_false, or_false, Nat.reduceAdd, h0, h1, h2, h3, h4,
    h5, htdr, hrda]
  rfl

theorem exec_mIsr_of_not_pending {s : State} (h : mIrq s = false) : exec .mIsr s = .refused .vectorNotPending :=
  if_neg (Bool.eq_false_iff.mp h)

theorem exec_sIsr_of_not_pending {s : State} (hlive : s.slave.hung = false) (h : sIrq s = false) :
    exec .sIsr s = .refused .vectorNotPending :=
  (slaveStep_live hlive).trans (if_neg (Bool.eq_false_iff.mp h))

/-- Settles O40: an enabled vector is pending while some bit of its status word meets its enable. -/
theorem vectorsPending : Obligations.VectorsPending :=
  ⟨mIrq_iff, sIrq_iff, fun _ => exec_mIsr_of_not_pending, fun _ => exec_sIsr_of_not_pending⟩

end Sys2Proof.Machine
end

section
/-! PROOFS. Only a transfer command that passes its readiness test clears the master's error, and only a listen command the
slave's (60_exceptions.md rule R218): the statement O60. -/

namespace Sys2Proof.Machine

/-! ### What an instruction of the master engine leaves alone (R10) -/

/-- An instruction of the master engine leaves the slave engine alone: independence, with the slave engine's own registers put
in their place. -/
theorem exec_slave_eq {i : Instr} (hi : i.engine = .master) {s t : State} (h : exec i s = .next t) : t.slave = s.slave := by
  have e : exec i s = mapNext (withSlave s.slave) (exec i s) := (exec_ignoresSlave s.slave hi).eq_mapNext s
  rw [h] at e
  injection e with e
  exact (congrArg State.slave e :)

/-! ### Instructions that write no error register -/

/-- The instructions that can write an error register (R200): the transfer commands, the listen commands and the two passes. -/
def mayWriteError (i : Instr) : Bool :=
  match i with
  | .mWriteAsync .. | .mReadAsync .. | .mIsr | .sListen _ | .sListen2 _ _ | .sListenRange _ _ | .sIsr => true
  | _ => false

/-- The two error registers hold these codes. -/
structure ErrorsAre (e f : ErrorCode) (s : State) : Prop where
  master : s.master.err = e
  slave : s.slave.err = f

section
variable {e f : ErrorCode} {s : State} (h : ErrorsAre e f s)
include h

theorem ErrorsAre.setBuf (sel : BufSel) (b : ByteBuffer) : ErrorsAre e f (s.setBuf sel b) := by
  cases sel <;> exact { h with }

theorem bbInit_errorsAre (sel : BufSel) (p n : Nat) : Ensures (ErrorsAre e f) (bbInit sel p n s) := by
  intro t ht
  obtain ⟨-, -, rfl⟩ := bbInit_eq_next.mp ht
  exact h.setBuf _ _

theorem bbWrite_errorsAre (sel : BufSel) (b : Byte) : ErrorsAre e f (bbWrite sel b s).2 := by
  by_cases hn : (s.buf sel).next = (s.buf sel).len
  · rwa [bbWrite_full hn]
  · rw [bbWrite_room hn]
    exact ErrorsAre.setBuf (s := s.memWrite _ b) { h with } _ _

theorem bbRead_errorsAre {sel : BufSel} {r : Byte × State} (hr : bbRead sel s = .next r) : ErrorsAre e f r.2 := by
  obtain ⟨-, rfl⟩ := bbRead_eq_next.mp hr
  exact h.setBuf _ _

theorem ErrorsAre.takeWord (w : BitVec 11) (rest : List (BitVec 11)) : ErrorsAre e f (takeWord w rest s) :=
  ⟨(takeEffect_err w _).trans h.master, h.slave⟩

theorem execLuSTake_errorsAre : Ensures (ErrorsAre e f) (execLuSTake s) := by
  unfold execLuSTake
  split
  · exact .slaveStep (.next { h with })
  · exact .slaveStep (.refused _)

/-- A callback can bind the slave's buffers but records no error (R158). -/
theorem upcall_errorsAre (w : Nat) (ev : OutEvent) : Ensures (ErrorsAre e f) (upcall w ev s) := by
  intro t ht
  have k := (upcall_frame ht).1
  exact ⟨k.master ▸ h.master, by rw [k.slave]; exact h.slave⟩

/-- An instruction that writes no error register leaves both as they are: by its arm, the arms that act alike together. -/
theorem exec_errorsAre {i : Instr} (hi : mayWriteError i = false) : Ensures (ErrorsAre e f) (exec i s) := by
  cases i with
  | mBegin _ | mEnd | mFinished | mGetBytesTransferred | mError | mHasError | mSetPadControl _ | mSetPullups _ =>
    exact .next { h with }
  | sStopListening | sAfterReceive _ | sBeforeTransmit _ | sAfterTransmit _ | sError | sHasError | sSetPadControl _
  | sSetPullups _ => exact .next { h with }
  | bbHasData _ | bbNotStartedReading _ | bbNotStartedWriting _ | bbFinishedReading _ | bbFinishedWriting _
  | bbConfigured _ => exact .next { h with }
  | mChannelReset | mRecoveryPulses | sChannelReset => exact .next { h with }
  | sSetRxBuffer _ _ | sSetTxBuffer _ _ | bbInit _ _ _ => exact bbInit_errorsAre (s := s.withRes none) { h with } _ _ _
  | bbWrite sel b => exact .next { bbWrite_errorsAre h sel b with }
  | bbRead sel => exact .andThen fun _ hr => .next { bbRead_errorsAre h hr with }
  | txwTransmit _ | txwReceive _ | txwStop | txwStart _ _ => exact takeThis_ensures (fun w rest _ => h.takeWord w rest) _
  | luMTake => exact execLuMTake_ensures fun w rest _ => h.takeWord w rest
  | luMRx _ => exact .guarded fun _ => { h with }
  | luMFlag name => exact .guarded fun _ => ⟨(setMFlag_err name _).trans h.master, h.slave⟩
  | luMLevel name v => exact .guarded fun _ => ⟨(setMLevel_err name v _).trans h.master, h.slave⟩
  | luSAddr _ _ | luSRx _ _ => exact .slaveStep (.guarded fun _ => { h with })
  | luSTake => exact execLuSTake_errorsAre h
  | luSRs | luSStop | luSBerr => exact .slaveStep (.next { h with })
  | upAfterReceive | upBeforeTransmit | upAfterTransmit =>
    exact .slaveStep (upcall_errorsAre (s := s.withRes none) { h with } _ _)
  | mWriteAsync _ _ _ _ | mReadAsync _ _ _ _ | mIsr | sListen _ | sListen2 _ _ | sListenRange _ _ | sIsr => cases hi

end

/-! ### Transfer commands and passes -/

/-- `start` on an engine that is not finished records the error it is refused for (R93). -/
theorem start_of_not_finished {a : Addr} {d : Dir} {s : State} (hf : finished s.cfg s.master = false) {r : Bool × State}
    (hr : start a d s = .next r) : r.1 = false ∧ r.2.master.err = .masterNotReady := by
  obtain ⟨-, rfl⟩ | ⟨h, -, -⟩ | ⟨h, -, -, -⟩ := start_eq_next hr
  · exact ⟨rfl, rfl⟩
  · exact absurd (hf.symm.trans h) (by decide)
  · exact absurd (hf.symm.trans h) (by decide)

/-- What a transfer command does on from a `start` on an engine that is not finished. -/
theorem start_andThen_err_of_not_finished {a : Addr} {d : Dir} {s : State} (hf : finished s.cfg s.master = false)
    (f : State → Run State) : Ensures (fun t => t.master.err ≠ .ok)
      (andThen (start a d (s.withRes none)) fun r => if r.1 then f r.2 else .next r.2) := by
  refine .andThen fun r hr => ?_
  obtain ⟨hr1, hr2⟩ := start_of_not_finished (s := s.withRes none) hf hr
  refine .ite (fun h => absurd (hr1.symm.trans h) (by decide)) fun _ => .next ?_
  rw [hr2]
  decide

/-- Only past its readiness test does `M_WRITE_ASYNC` leave no error (R93, R95). -/
theorem finished_of_execMWriteAsync_ok {a : Addr} {p n : Nat} {stop : Bool} {s t : State}
    (h : exec (.mWriteAsync a p n stop) s = .next t) (hok : t.master.err = .ok) : finished s.cfg s.master = true := by
  by_contra hf
  have k : Ensures (fun t => t.master.err ≠ .ok) (execMWriteAsync a p n stop s) :=
    .ite (fun _ => .fault _) fun _ => start_andThen_err_of_not_finished (Bool.eq_false_iff.mpr hf) _
  exact k t h hok

/-- Only past its readiness test does `M_READ_ASYNC` leave no error (R93, R96). -/
theorem finished_of_execMReadAsync_ok {a : Addr} {p n : Nat} {stop : Bool} {s t : State}
    (h : exec (.mReadAsync a p n stop) s = .next t) (hok : t.master.err = .ok) : finished s.cfg s.master = true := by
  by_contra hf
  have k : Ensures (fun t => t.master.err ≠ .ok) (execMReadAsync a p n stop s) :=
    .ite (fun _ => .fault _) fun _ => .ite (fun _ => .next (by simp [mRaise])) fun _ =>
      start_andThen_err_of_not_finished (Bool.eq_false_iff.mpr hf) _
  exact k t h hok

theorem master_err_of_mIsr {s t : State} (h : exec .mIsr s = .next t) (hok : t.master.err = .ok) : s.master.err = .ok :=
  (masterPass_frame (exec_mIsr_eq_next.mp h).2).err hok

theorem slave_err_of_sIsr {s t : State} (h : exec .sIsr s = .next t) (hok : t.slave.err = .ok) : s.slave.err = .ok :=
  (slavePass_frame (exec_sIsr_eq_next.mp h).2.2).err hok

/-! ### Over all instructions -/

/-- The master's half of R218. -/
theorem master_err_cleared_only_by_start {i : Instr} {s t : State} (h : exec i s = .next t) (hs : s.master.err ≠ .ok)
    (ht : t.master.err = .ok) :
    finished s.cfg s.master = true ∧ ∃ a p n st, i = .mWriteAsync a p n st ∨ i = .mReadAsync a p n st := by
  cases hw : mayWriteError i with
  | false => exact absurd ((exec_errorsAre ⟨rfl, rfl⟩ hw t h).master.symm.trans ht) hs
  | true =>
    cases i with
    | mWriteAsync a p n st => exact ⟨finished_of_execMWriteAsync_ok h ht, a, p, n, st, .inl rfl⟩
    | mReadAsync a p n st => exact ⟨finished_of_execMReadAsync_ok h ht, a, p, n, st, .inr rfl⟩
    | mIsr => exact absurd (master_err_of_mIsr h ht) hs
    | sListen _ | sListen2 _ _ | sListenRange _ _ | sIsr => exact absurd (exec_master_eq rfl h ▸ ht) hs
    | _ => cases hw

/-- The slave's half of R218. -/
theorem slave_err_cleared_only_by_listen {i : Instr} {s t : State} (h : exec i s = .next t) (hs : s.slave.err ≠ .ok)
    (ht : t.slave.err = .ok) : ∃ a b, i = .sListen a ∨ i = .sListen2 a b ∨ i = .sListenRange a b := by
  cases hw : mayWriteError i with
  | false => exact absurd ((exec_errorsAre ⟨rfl, rfl⟩ hw t h).slave.symm.trans ht) hs
  | true =>
    cases i with
    | sListen a => exact ⟨a, a, .inl rfl⟩
    | sListen2 a b => exact ⟨a, b, .inr (.inl rfl)⟩
    | sListenRange a b => exact ⟨a, b, .inr (.inr rfl)⟩
    | sIsr => exact absurd (slave_err_of_sIsr h ht) hs
    | mWriteAsync _ _ _ _ | mReadAsync _ _ _ _ | mIsr => exact absurd (exec_slave_eq rfl h ▸ ht) hs
    | _ => cases hw

/-- Settles O60: what writes neither error register keeps both; a pass records errors only; a transfer command that is not
ready records that, and an instruction of one engine leaves the other's error alone. -/
theorem errorClearedOnlyByStartOrListen : Obligations.ErrorClearedOnlyByStartOrListen :=
  fun _ _ _ h => ⟨master_err_cleared_only_by_start h, slave_err_cleared_only_by_listen h⟩

end Sys2Proof.Machine
end

section
/-! PROOFS. The block after reset: no vector, no match, no move of the master side but that of the low-timer level
(70_reset_and_hazards.md rule R230, 45_line_unit.md rule R170, 43_slave_commands.md rule R143): the statement O12. -/

namespace Sys2Proof.Machine

/-! ### What a disabled engine does (R203 to R205) -/

theorem mIrq_of_not_irqEn {s : State} (h : s.master.irqEn = false) : mIrq s = false := by
  rw [mIrq, h, Bool.false_and]

theorem sIrq_of_not_irqEn {s : State} (h : s.slave.irqEn = false) : sIrq s = false := by
  rw [sIrq, h, Bool.false_and]

/-- With nothing chosen and neither vector pending, a step changes nothing. -/
theorem step_of_quiet {s : State} (hp : s.pending = []) (hm : mIrq s = false) (hv : sIrq s = false) : step s = .next s := by
  rw [step_of_pending_nil hp, serve_of_not_mIrq hm, hv, Bool.false_and, if_neg Bool.false_ne_true]

/-! ### The state after reset -/

theorem mIrq_reset : mIrq State.reset = false := mIrq_of_not_irqEn rfl

theorem sIrq_reset : sIrq State.reset = false := sIrq_of_not_irqEn rfl

/-- Idle counts as finished, and the bus is not busy (R98). -/
theorem finished_reset : finished State.reset.cfg State.reset.master = true :=
  (finished_iff _ _).mpr ⟨.inl rfl, fun _ => rfl⟩

/-- Settles O12: both interrupt enables, `m_en` and `s_listen` are 0 at reset, and each clause says what follows from that in
every state. -/
theorem quietAfterReset : Obligations.QuietAfterReset := by
  obtain ⟨hdisabled, -⟩ := guardsAreHard
  obtain ⟨-, -, -, hpltc⟩ := masterLineMoves
  obtain ⟨-, hfinished, -, hmError, -⟩ := masterQueriesAndPads
  obtain ⟨-, -, hsError, -⟩ := slaveConfiguration
  refine ⟨mIrq_reset, sIrq_reset, exec_mIsr_of_not_pending mIrq_reset, exec_sIsr_of_not_pending rfl sIrq_reset,
    hdisabled _ _ rfl (.inl rfl), fun b => hdisabled _ _ rfl ?rx, fun f => hdisabled _ _ rfl ?flag,
    fun v => hdisabled _ _ rfl ?busy, fun v => hdisabled _ _ rfl ?held, hpltc State.reset,
    fun _ => sMatch_of_not_listening rfl, ?finished, hmError State.reset, hsError State.reset,
    step_of_quiet rfl mIrq_reset sIrq_reset⟩
  case rx => exact .inr (.inl ⟨b, rfl⟩)
  case flag => exact .inr (.inr (.inl ⟨f, rfl⟩))
  case busy => exact .inr (.inr (.inr (.inl ⟨v, rfl⟩)))
  case held => exact .inr (.inr (.inr (.inr (.inl ⟨v, rfl⟩))))
  case finished => rw [hfinished, if_pos finished_reset]

end Sys2Proof.Machine
end
